-- ==== Sys2Proof/Word.lean ====
section
/-! DEFINITION. The words, bytes and bit strings of the HUFF core (00_scope.md R10, R11). -/

namespace Sys2Proof

/-- A 32-bit word: every register, every command word, every memory address (R8, R10). -/
abbrev Word := BitVec 32

/-- An 8-bit byte: a symbol, a memory byte, an opcode (R8, R10). -/
abbrev Byte := BitVec 8

/-- A bit string. Its first element is the bit nearest the root of the tree, which is the first bit written
to and read from the payload (R11). -/
abbrev Bits := List Bool

end Sys2Proof
end

