-- ==== Sys2Proof/Syntax.lean ====
section
/-! DEFINITION. The commands of the HUFF core, one constructor per row of spec/opcode_table.json (30_encoding.md
R106), and the raw fields of a command word (R100). -/

namespace Sys2Proof

/-- The sixteen commands (R106). The symbol operand is an unsigned byte (R102) and LAST a boolean (R103), so
every value of this type is an instruction of the table. -/
inductive Instr where
  | nop
  | sreset
  | histClear
  | histAccum
  | histByte (sym : Byte)
  | treeBuild
  | codeAssign
  | hdrWrite
  | hdrRead
  | packReset
  | packSym (sym : Byte) (last : Bool)
  | packBlock (last : Bool)
  | packFlush
  | unpack
  | encode
  | decode
  deriving DecidableEq, Repr

/-- The four fields of a command word (R100): OPCODE [7:0], OPERAND [15:8], LAST [16], RSVD [31:17]. -/
structure CmdFields where
  opcode  : Byte
  operand : Byte
  last    : Bool
  rsvd    : BitVec 15
  deriving DecidableEq, Repr

end Sys2Proof
end

