-- ==== Sys2Proof/WellFormed.lean ====
section
/-! DEFINITION. Which command words are legal (30_encoding.md R105), read off the opcode map of R106. The decoder
(Decode.lean) is written on its own; that the two agree is a statement. -/

namespace Sys2Proof

/-- One row of the opcode map (R106): the opcode and its "uses OPERAND" and "uses LAST" columns. -/
structure OpcodeRow where
  opcode      : Byte
  usesOperand : Bool
  usesLast    : Bool
  deriving DecidableEq, Repr

/-- The opcode map (R106), in the order of its rows. -/
def opcodeMap : List OpcodeRow :=
  [⟨0x00#8, false, false⟩, ⟨0x01#8, false, false⟩,
   ⟨0x10#8, false, false⟩, ⟨0x11#8, false, false⟩, ⟨0x12#8, true, false⟩,
   ⟨0x20#8, false, false⟩, ⟨0x21#8, false, false⟩,
   ⟨0x30#8, false, false⟩, ⟨0x31#8, false, false⟩] ++
  [⟨0x40#8, false, false⟩, ⟨0x41#8, true, true⟩, ⟨0x42#8, false, true⟩, ⟨0x43#8, false, false⟩,
   ⟨0x50#8, false, false⟩, ⟨0x60#8, false, false⟩, ⟨0x61#8, false, false⟩]

/-- R105 (a): OPCODE is one of the sixteen. -/
def CmdFields.opcodeDefined (f : CmdFields) : Bool := opcodeMap.any fun r => r.opcode == f.opcode

/-- R105 (b): RSVD is 0. -/
def CmdFields.rsvdZero (f : CmdFields) : Bool := f.rsvd == 0

/-- R105 (c): OPERAND is 0 unless the opcode uses it. -/
def CmdFields.operandAllowed (f : CmdFields) : Bool :=
  f.operand == 0 || opcodeMap.any fun r => r.opcode == f.opcode && r.usesOperand

/-- R105 (d): LAST is 0 unless the opcode uses it. -/
def CmdFields.lastAllowed (f : CmdFields) : Bool :=
  !f.last || opcodeMap.any fun r => r.opcode == f.opcode && r.usesLast

/-- A command word is legal exactly when it passes the four checks of R105. -/
def CmdFields.wellFormed (f : CmdFields) : Bool :=
  f.opcodeDefined && f.rsvdZero && f.operandAllowed && f.lastAllowed

end Sys2Proof
end

