-- ==== Sys2Proof/Decode.lean ====
section
/-! DEFINITION. The decoder of command words, total, rejecting by name (30_encoding.md R100 to R107), and the
encoder (R109). A command is the word the host wrote to CMD: it is never fetched from memory (20_memory.md R90). -/

namespace Sys2Proof

/-- Why a word is illegal (R105, R107). Every reason completes with the same error, E_ILLEGAL_CMD(w). -/
inductive Reject where
  /-- R105 (b): RSVD is not 0. -/
  | rsvdNonZero
  /-- R105 (a), R107: one of the 240 reserved opcodes. -/
  | reservedOpcode
  /-- R105 (c): a non-zero OPERAND that the opcode does not use. -/
  | operandNonZero
  /-- R105 (d): a set LAST that the opcode does not use. -/
  | lastNonZero
  deriving DecidableEq, Repr

/-- The fields of a command word (R100). -/
def fieldsOf (w : Word) : CmdFields where
  opcode  := w.extractLsb' 0 8
  operand := w.extractLsb' 8 8
  last    := w.getLsbD 16
  rsvd    := w.extractLsb' 17 15

/-- A command that uses neither OPERAND nor LAST. -/
def decodePlain (f : CmdFields) (i : Instr) : Except Reject Instr :=
  if f.operand ≠ 0 then .error .operandNonZero
  else if f.last then .error .lastNonZero
  else .ok i

/-- HIST_BYTE: OPERAND is the symbol, LAST is unused (R102). -/
def decodeHistByte (f : CmdFields) : Except Reject Instr :=
  if f.last then .error .lastNonZero else .ok (.histByte f.operand)

/-- PACK_BLOCK: LAST is used, OPERAND is not (R103). -/
def decodePackBlock (f : CmdFields) : Except Reject Instr :=
  if f.operand ≠ 0 then .error .operandNonZero else .ok (.packBlock f.last)

/-- The opcode map (R106), once RSVD is known to be 0. -/
def decodeOpcode (f : CmdFields) : Except Reject Instr :=
  if f.opcode = 0x00#8 then decodePlain f .nop
  else if f.opcode = 0x01#8 then decodePlain f .sreset
  else if f.opcode = 0x10#8 then decodePlain f .histClear
  else if f.opcode = 0x11#8 then decodePlain f .histAccum
  else if f.opcode = 0x12#8 then decodeHistByte f
  else if f.opcode = 0x20#8 then decodePlain f .treeBuild
  else if f.opcode = 0x21#8 then decodePlain f .codeAssign
  else if f.opcode = 0x30#8 then decodePlain f .hdrWrite
  else if f.opcode = 0x31#8 then decodePlain f .hdrRead
  else if f.opcode = 0x40#8 then decodePlain f .packReset
  else if f.opcode = 0x41#8 then .ok (.packSym f.operand f.last)
  else if f.opcode = 0x42#8 then decodePackBlock f
  else if f.opcode = 0x43#8 then decodePlain f .packFlush
  else if f.opcode = 0x50#8 then decodePlain f .unpack
  else if f.opcode = 0x60#8 then decodePlain f .encode
  else if f.opcode = 0x61#8 then decodePlain f .decode
  else .error .reservedOpcode

/-- The decoder (R105, R106). -/
def decode (w : Word) : Except Reject Instr :=
  if (fieldsOf w).rsvd ≠ 0 then .error .rsvdNonZero else decodeOpcode (fieldsOf w)

/-- The opcode of each command (R106). It is also the STAGE of its errors (60_exceptions.md R212). -/
def opcodeOf (i : Instr) : Byte :=
  match i with
  | .nop => 0x00#8
  | .sreset => 0x01#8
  | .histClear => 0x10#8
  | .histAccum => 0x11#8
  | .histByte _ => 0x12#8
  | .treeBuild => 0x20#8
  | .codeAssign => 0x21#8
  | .hdrWrite => 0x30#8
  | .hdrRead => 0x31#8
  | .packReset => 0x40#8
  | .packSym _ _ => 0x41#8
  | .packBlock _ => 0x42#8
  | .packFlush => 0x43#8
  | .unpack => 0x50#8
  | .encode => 0x60#8
  | .decode => 0x61#8

/-- The symbol operand, 0 when absent (R109). -/
def symOf (i : Instr) : Byte :=
  match i with
  | .histByte sym => sym
  | .packSym sym _ => sym
  | .nop | .sreset | .histClear | .histAccum | .treeBuild | .codeAssign | .hdrWrite | .hdrRead => 0#8
  | .packReset | .packBlock _ | .packFlush | .unpack | .encode | .decode => 0#8

/-- The LAST flag, false when absent (R109). -/
def lastOf (i : Instr) : Bool :=
  match i with
  | .packSym _ last => last
  | .packBlock last => last
  | .nop | .sreset | .histClear | .histAccum | .histByte _ | .treeBuild | .codeAssign | .hdrWrite => false
  | .hdrRead | .packReset | .packFlush | .unpack | .encode | .decode => false

/-- The encoder: `enc(m) = OPCODE(m) | sym << 8 | last << 16` (R109). -/
def encode (i : Instr) : Word :=
  (opcodeOf i).setWidth 32 ||| ((symOf i).setWidth 32 <<< 8) ||| ((BitVec.ofBool (lastOf i)).setWidth 32 <<< 16)

/-- The instruction the decoder reads from an opcode-table word (bit 0 is the least significant bit of the one
command word). A word that does not fit 32 bits is no command word. -/
def decodeTableWord (nbits w : Nat) : Option Instr :=
  if w % 2 ^ nbits < 2 ^ 32 then
    match decode (BitVec.ofNat 32 (w % 2 ^ nbits)) with
    | .ok i => some i
    | .error _ => none
  else none

end Sys2Proof
end

