-- ==== Sys2Proof/Config.lean ====
section
/-! DEFINITION. The fixed parameters of 00_scope.md R8, and the one value the spec leaves open (log 12).
The platform's parameters MEM_BACKED and REG_BASE (R9) are plain data in the machine's state (logs 4, 5). -/

namespace Sys2Proof.Config

/-- The value of the ID register (R3, R24). -/
def idValue : Word := 0x1FA00001#32

/-- The number of bytes of the address space (R70): windows may end here and not pass it (R73). -/
def addrSpace : Nat := 4294967296

/-- The largest value of a 32-bit count, 2^32 - 1 (R8 COUNT_W, R12). -/
def maxCount : Nat := 4294967295

/-- MAX_CODE_LEN (R8, R118). -/
def maxCodeLen : Nat := 23

/-- TABLE_MAX, the most entries of a code table (R8). -/
def tableMax : Nat := 256

/-- NODE_MAX, the number of arena slots (R8). -/
def nodeMax : Nat := 511

/-- The two signature bytes (R8, R114). -/
def signature0 : Byte := 0x1F#8
@[inherit_doc signature0]
def signature1 : Byte := 0xA0#8

/-- DESIGN CHOICE (log 12), safe. ERR_INFO of E_UNMATCHED_CODE when the bit position it should hold (R184) does not
fit ERR_INFO's 32 bits (R28): the spec states no result there, so the value is free. It has no body: nothing
can be proved of it. -/
opaque wideBitPosition : Nat → Word

end Sys2Proof.Config
end

