-- ==== Sys2Proof/Machine/State.lean ====
section
/-! DEFINITION. The state of the HUFF core and of the memory it shares with the host (10_state.md R58), as plain
data, and its value after hardware reset (70_reset_and_hazards.md R240). -/

namespace Sys2Proof.Machine

/-- Why a step of the HOST stops. The core itself never faults: every command rule is total and ends in a
completion (40_control.md R136). -/
inductive Fault where
  /-- Raised by a host memory access while BUSY that 20_memory.md R87 forbids: a write into the SRC or DST window, or
  a read of the DST window. Its outcome is undefined and "a model treats such an access as a fault". Safe (log 8). -/
  | hostWindowAccessWhileBusy (addr : Word)
  /-- Raised by a host byte access to an address with no memory behind it (MEM_BACKED false, R74): what the
  platform does there is not the spec's. Safe (log 7). -/
  | hostAccessUnbacked (addr : Word)
  /-- Raised by a host register access whose address is not in the 256-byte register window at REG_BASE (R22): it
  does not reach this core, and what it reaches is the platform's. Safe (log 5). -/
  | registerWindowMissed (addr : Word)
  deriving DecidableEq, Repr

/-- Why exec gives an instruction no meaning. -/
inductive Refusal where
  /-- Raised by an arm of exec whose instruction has no meaning yet. No arm does. Safe. -/
  | notModelled (mnemonic : String)
  deriving DecidableEq, Repr

/-- The error codes (60_exceptions.md R211). Their numbers are `errByte` of Ops.lean. -/
inductive ErrCode where
  | illegalCmd
  | sequence
  | range
  | bus
  | overlap
  | countOverflow
  | empty
  | codeTooLong
  | noCode
  | dstFull
  | badSignature
  | truncated
  | badTableSize
  | badCodeLen
  | dupSymbol
  | notPrefixFree
  | payloadExhausted
  | unmatchedCode
  deriving DecidableEq, Repr

/-- What a rule raises: `raise E_NAME(info)` (00_scope.md R13). -/
structure CmdError where
  code : ErrCode
  info : Word
  deriving DecidableEq, Repr

/-- A raised error with the stage it is reported at (60_exceptions.md R212). -/
structure Raised where
  stage : Byte
  err   : CmdError
  deriving DecidableEq, Repr

/-- A table with one entry per symbol, 0 to 255 (10_state.md R53, R55). -/
abbrev Table (α : Type) := Vector α 256

/-- A slot of the node arena (10_state.md R54). -/
inductive Node where
  | leaf (sym : Byte) (weight : Word)
  | internal (weight : Word) (left right : BitVec 9)
  deriving DecidableEq, Repr

/-- A stretch of addresses with no memory behind them: part of the platform's MEM_BACKED (20_memory.md R74). -/
structure Region where
  base : Nat
  size : Nat
  deriving DecidableEq, Repr

/-- Memory as the list of the cells that differ from what an unlisted address reads as, addresses strictly rising
(20_memory.md R70, log 6). -/
abbrev Memory := List Host.Cell

/-- One step of one agent (40_control.md R130), or the reset input (R240). -/
inductive Turn where
  /-- The core takes its step: the completion of the accepted command, if there is one. -/
  | core
  /-- The reset input is asserted. -/
  | reset
  /-- The host reads the register at a host address. -/
  | regRead (addr : Word)
  /-- The host writes the register at a host address. -/
  | regWrite (addr : Word) (value : Word)
  /-- The host reads a memory byte. -/
  | memRead (addr : Word)
  /-- The host writes a memory byte. -/
  | memWrite (addr : Word) (value : Byte)
  deriving DecidableEq, Repr

/-- The machine's state. The fields down to `mem` are the state of 10_state.md R58, each under the name of its register
or array; the last four are the platform's parameters and the model's own plain data (logs 1, 3, 4, 5). -/
structure State where
  /-- CMD_LAST (R25). -/
  cmdLast    : Word
  /-- STATUS.BUSY (R26). -/
  busy       : Bool
  /-- STATUS.DONE (R26). -/
  done       : Bool
  /-- STATUS.OVERRUN (R26). -/
  overrun    : Bool
  /-- STATUS.TREE_VALID (R26). -/
  treeValid  : Bool
  /-- STATUS.CODES_VALID (R26). -/
  codesValid : Bool
  /-- STATUS.HDR_VALID (R26). -/
  hdrValid   : Bool
  /-- ERR.CODE (R27). -/
  errCode    : Byte
  /-- ERR.STAGE (R27). -/
  errStage   : Byte
  /-- ERR_INFO (R28). -/
  errInfo    : Word
  /-- IRQ_EN.DONE_IE (R29). -/
  doneIe     : Bool
  /-- SRC_BASE (R31). -/
  srcBase    : Word
  /-- SRC_LEN (R32). -/
  srcLen     : Word
  /-- DST_BASE (R33). -/
  dstBase    : Word
  /-- DST_CAP (R34). -/
  dstCap     : Word
  /-- IN_PTR (R35). -/
  inPtr      : Word
  /-- OUT_PTR (R36). -/
  outPtr     : Word
  /-- HIST_SEL (R39). -/
  histSel    : Byte
  /-- NODE_SEL (R41). -/
  nodeSel    : BitVec 9
  /-- CODE_SEL (R46). -/
  codeSel    : Byte
  /-- ROOT (R44). -/
  root       : BitVec 9
  /-- PW_BYTE (R49, R56). -/
  pwByte     : Byte
  /-- PW_CUR (R49, R56). -/
  pwCur      : BitVec 3
  /-- PW_SYMS (R50, R56). -/
  pwSyms     : Word
  /-- DEC_SYMS (R51). -/
  decSyms    : Word
  /-- DEC_PBYTES (R52). -/
  decPbytes  : Word
  /-- HIST (R53). -/
  hist       : Table Word
  /-- NODE, the arena; NNODES is its length (R45, R54). -/
  nodes      : List Node
  /-- CT (R55). -/
  ct         : Table Bits
  /-- The memory shared with the host (R70). -/
  mem        : Memory
  /-- MEM_BACKED, the platform's parameter: the regions with no memory behind them (R9, R74; log 4). -/
  unbacked   : List Region
  /-- REG_BASE, the platform's parameter (R9, R22; log 5). -/
  regBase    : Word
  /-- The steps still to come, first one first (R130; log 1). -/
  turns      : List Turn
  /-- What the host's last read returned (R130; log 3). -/
  readData   : Word
  deriving DecidableEq, Repr

/-- Hardware reset at power-on (70_reset_and_hazards.md R240): every register 0, every array empty or 0, every flag clear. The
values of `mem`, `unbacked`, `regBase`, `turns` and `readData` are DESIGN CHOICE (logs 1, 3, 4, 5, 6). -/
def State.reset : State where
  cmdLast    := 0#32
  busy       := false
  done       := false
  overrun    := false
  treeValid  := false
  codesValid := false
  hdrValid   := false
  errCode    := 0#8
  errStage   := 0#8
  errInfo    := 0#32
  doneIe     := false
  srcBase    := 0#32
  srcLen     := 0#32
  dstBase    := 0#32
  dstCap     := 0#32
  inPtr      := 0#32
  outPtr     := 0#32
  histSel    := 0#8
  nodeSel    := 0#9
  codeSel    := 0#8
  root       := 0#9
  pwByte     := 0#8
  pwCur      := 0#3
  pwSyms     := 0#32
  decSyms    := 0#32
  decPbytes  := 0#32
  hist       := Vector.replicate 256 0#32
  nodes      := []
  ct         := Vector.replicate 256 []
  mem        := []
  unbacked   := []
  regBase    := 0#32
  turns      := []
  readData   := 0#32

end Sys2Proof.Machine
end

