-- ==== Sys2Proof/Machine/Ops.lean ====
section
/-! DEFINITION. The named operations over memory and tables, and the completion of a command: the success that
commits and the error that leaves everything else as it was (40_control.md R134, 60_exceptions.md R214). -/

namespace Sys2Proof.Machine

/-! ### Memory (20_memory.md R70, R77, R83) -/

/-- What an address that no cell lists reads as. DESIGN CHOICE (log 6), unsafe: the spec leaves the contents at
power-on unspecified. -/
def unlistedByte : Byte := 0#8

/-- MemRead(a, 1). -/
def readByte : Memory → Nat → Byte
  | [], _ => unlistedByte
  | (b, v) :: rest, a => if a = b then v else readByte rest a

/-- A cell put before the first cell of a higher address. -/
def insertCell (c : Host.Cell) : Memory → Memory
  | [] => [c]
  | d :: rest => if c.1 < d.1 then c :: d :: rest else d :: insertCell c rest

/-- MemWrite(a, 1, v): the cell of a goes, and a new one comes unless v is what an unlisted address reads as. It keeps
the canonical form `Memory.wf`. -/
def writeByte (m : Memory) (a : Nat) (v : Byte) : Memory :=
  if v = unlistedByte then m.filter fun c => c.1 ≠ a
  else insertCell (a, v) (m.filter fun c => c.1 ≠ a)

/-- The canonical form: addresses strictly rising and inside the address space, no cell that holds what an unlisted
address reads as. -/
abbrev Memory.wf (m : Memory) : Prop :=
  m.Pairwise (fun c d => c.1 < d.1) ∧ ∀ c ∈ m, c.1 < Config.addrSpace ∧ c.2 ≠ unlistedByte

/-! ### Tables (10_state.md R53, R55) -/

/-- The entry of a symbol. -/
def tableGet {α : Type} (t : Table α) (sym : Byte) : α := t[sym.toNat]'(sym.isLt)

/-- The table with one entry replaced. -/
def tableSet {α : Type} (t : Table α) (sym : Byte) (x : α) : Table α := t.set sym.toNat x sym.isLt

/-- The table with the same entry at every symbol. -/
def tableFill {α : Type} (x : α) : Table α := Vector.replicate 256 x

/-- The symbols 0 to 255 in ascending order (00_scope.md R13). -/
def allSymbols : List Byte := (List.range 256).map (BitVec.ofNat 8)

/-- Every symbol with its entry, in ascending symbol order: what a `for s in 0..255` runs over (R13). -/
def tableRows {α : Type} (t : Table α) : List (Byte × α) := allSymbols.zip t.toList

/-! ### Arithmetic of 00_scope.md R12 -/

/-- `ceil8(x) = (x + 7) div 8`. -/
def ceil8 (x : Nat) : Nat := (x + 7) / 8

/-- `sat32(x) = min(x, 2^32 - 1)`. -/
def sat32 (x : Nat) : Word := BitVec.ofNat 32 (min x Config.maxCount)

/-- `be32(b0, b1, b2, b3)`, big-endian (R12, R78). -/
def be32 (b0 b1 b2 b3 : Byte) : Word :=
  BitVec.ofNat 32 (2 ^ 24 * b0.toNat + 2 ^ 16 * b1.toNat + 2 ^ 8 * b2.toNat + b3.toNat)

/-- The four bytes of a word, most significant first (R113). -/
def bytesOf32 (v : Word) : List Byte :=
  [v.extractLsb' 24 8, v.extractLsb' 16 8, v.extractLsb' 8 8, v.extractLsb' 0 8]

/-! ### Errors and completion -/

/-- The number of each error code (60_exceptions.md R211). -/
def errByte (e : ErrCode) : Byte :=
  match e with
  | .illegalCmd => 0x01#8
  | .sequence => 0x02#8
  | .range => 0x03#8
  | .bus => 0x04#8
  | .overlap => 0x05#8
  | .countOverflow => 0x06#8
  | .empty => 0x07#8
  | .codeTooLong => 0x08#8
  | .noCode => 0x09#8
  | .dstFull => 0x0A#8
  | .badSignature => 0x0B#8
  | .truncated => 0x0C#8
  | .badTableSize => 0x0D#8
  | .badCodeLen => 0x0E#8
  | .dupSymbol => 0x0F#8
  | .notPrefixFree => 0x10#8
  | .payloadExhausted => 0x11#8
  | .unmatchedCode => 0x12#8

/-- `raise` when a condition holds (00_scope.md R13). -/
def raiseIf (c : Prop) [Decidable c] (code : ErrCode) (info : Word) : Option CmdError :=
  if c then some ⟨code, info⟩ else none

/-- The rule of a command: from the state before it, the state it leaves or the error it raises (R136). -/
abbrev Rule := State → Except CmdError State

/-- A rule whose checks all come before its effect (R213: "every check precedes every commit"). A check that makes
several in a row joins them by `Option.or`: the first that raises decides the error reported. -/
def guarded (check : State → Option CmdError) (effect : State → State) : Rule := fun s =>
  match check s with
  | some e => .error e
  | none => .ok (effect s)

/-- Report a rule's error at a stage (60_exceptions.md R212). -/
def atStage (stage : Byte) (r : Except CmdError State) : Except Raised State :=
  match r with
  | .ok t => .ok t
  | .error e => .error ⟨stage, e⟩

/-- Run the steps of a composite in order, each on the state the previous one left; the first that raises ends it
(47_composite.md R200, R202). -/
def runSteps : List (Byte × Rule) → State → Except Raised State
  | [], s => .ok s
  | (stage, rule) :: rest, s =>
    match rule s with
    | .error e => .error ⟨stage, e⟩
    | .ok t => runSteps rest t

/-- The completion of a command that succeeded: the rule's state is committed, ERR and ERR_INFO are 0 (R134). -/
def completeOk (t : State) : State :=
  { t with busy := false, done := true, errCode := 0#8, errStage := 0#8, errInfo := 0#32 }

/-- Taking an error, the core's only exception (60_exceptions.md R210, R214): the state before the command, with BUSY
cleared, DONE set and ERR.CODE, ERR.STAGE, ERR_INFO recorded. There is no trap entry (R215), and nothing to return to
or restore (R216): the next command simply starts. -/
def takeError (s : State) (r : Raised) : State :=
  { s with busy := false, done := true, errCode := errByte r.err.code, errStage := r.stage, errInfo := r.err.info }

/-- The completion step (40_control.md R134), from the state before it and the rule's result. -/
def complete (s : State) (r : Except Raised State) : Host.Outcome State Fault Refusal :=
  match r with
  | .ok t => .next (completeOk t)
  | .error e => .next (takeError s e)

/-- The completion of a command that has one stage, its own opcode (R212). -/
def completeAs (i : Instr) (rule : Rule) (s : State) : Host.Outcome State Fault Refusal :=
  complete s (atStage (opcodeOf i) (rule s))

end Sys2Proof.Machine
end

