-- ==== Sys2Proof/Machine/Operands.lean ====
section
/-! DEFINITION. What commands take their operands from and put their results into: the SRC and DST windows with
their checks (20_memory.md R72 to R76), the packed code words (30_encoding.md R117), and the values derived
from the arrays (10_state.md R37, R38, R48). -/

namespace Sys2Proof.Machine

/-! ### The windows -/

/-- MEM_BACKED (R74): an address of the 2^32 that no unbacked region covers. -/
def memBacked (s : State) (a : Nat) : Bool :=
  !s.unbacked.any fun r => decide (r.base ≤ a ∧ a < r.base + r.size)

/-- An address of the window that starts at base and has len bytes (R72). -/
def inWindow (base len : Word) (a : Nat) : Bool :=
  decide (base.toNat ≤ a ∧ a < base.toNat + len.toNat)

/-- `SrcByte(o)` (R13, R72). -/
def srcByte (s : State) (o : Nat) : Byte := readByte s.mem (s.srcBase.toNat + o)

/-- The bytes of the SRC window in order. -/
def srcBytes (s : State) : List Byte := (List.range s.srcLen.toNat).map (srcByte s)

/-- `get32(o)` (46_container.md R191). -/
def get32 (s : State) (o : Nat) : Word :=
  be32 (srcByte s o) (srcByte s (o + 1)) (srcByte s (o + 2)) (srcByte s (o + 3))

/-- `DstWrite(o, v)` (R13, R72). -/
def dstWrite (s : State) (o : Nat) (v : Byte) : State :=
  { s with mem := writeByte s.mem (s.dstBase.toNat + o) v }

/-- DstWrite of consecutive bytes from offset o on. -/
def dstWriteAll (s : State) (o : Nat) : List Byte → State
  | [] => s
  | v :: rest => dstWriteAll (dstWrite s o v) (o + 1) rest

/-- The range check of one window (R73); info is 0 for SRC and 1 for DST. -/
def rangeCheck (base len info : Word) : Option CmdError :=
  raiseIf (base.toNat + len.toNat > Config.addrSpace) .range info

/-- The lowest address of the window that has no memory behind it, over the regions without memory (R74). -/
def lowestUnbacked : List Region → Nat → Nat → Option Nat
  | [], _, _ => none
  | r :: rest, base, len =>
    if max r.base base < min (r.base + r.size) (base + len) then
      match lowestUnbacked rest base len with
      | some a => some (min (max r.base base) a)
      | none => some (max r.base base)
    else lowestUnbacked rest base len

/-- The backing check of one window: `E_BUS(a)`, a the lowest such address (R74). -/
def busCheck (s : State) (base len : Word) : Option CmdError :=
  match lowestUnbacked s.unbacked base.toNat len.toNat with
  | some a => some ⟨.bus, BitVec.ofNat 32 a⟩
  | none => none

/-- The overlap check (R75). -/
def overlapCheck (s : State) : Option CmdError :=
  raiseIf (s.srcLen.toNat > 0 ∧ s.dstCap.toNat > 0 ∧
    s.srcBase.toNat < s.dstBase.toNat + s.dstCap.toNat ∧
    s.dstBase.toNat < s.srcBase.toNat + s.srcLen.toNat) .overlap 0#32

/-- The checks of a command that uses the SRC window only (R76). -/
def srcCheck (s : State) : Option CmdError :=
  (rangeCheck s.srcBase s.srcLen 0#32).or <| busCheck s s.srcBase s.srcLen

/-- The checks of a command that uses the DST window only (R76). -/
def dstCheck (s : State) : Option CmdError :=
  (rangeCheck s.dstBase s.dstCap 1#32).or <| busCheck s s.dstBase s.dstCap

/-- The checks of a command that uses both windows: SRC range, DST range, SRC backing, DST backing, overlap (R76). -/
def windowsCheck (s : State) : Option CmdError :=
  (rangeCheck s.srcBase s.srcLen 0#32).or <|
  (rangeCheck s.dstBase s.dstCap 1#32).or <|
  (busCheck s s.srcBase s.srcLen).or <|
  (busCheck s s.dstBase s.dstCap).or <|
  overlapCheck s

/-- The output does not fit the DST window: `E_DST_FULL` with the bytes needed, saturated (60_exceptions.md R211). -/
def dstFullCheck (s : State) (needed : Nat) : Option CmdError :=
  raiseIf (needed > s.dstCap.toNat) .dstFull (sat32 needed)

/-- The SRC window ends too early: `E_TRUNCATED` with the bytes needed, saturated (R211). -/
def truncatedCheck (s : State) (needed : Nat) : Option CmdError :=
  raiseIf (s.srcLen.toNat < needed) .truncated (sat32 needed)

/-! ### Packed code words (30_encoding.md R117) -/

/-- `sum over j in 0..L-1 of c_j << (L - j)`. -/
def codeSum : Bits → Nat
  | [] => 0
  | b :: rest => b.toNat <<< (rest.length + 1) + codeSum rest

/-- `CodeWord(c) = L << 24 | sum over j of c_j << (L - j)`. -/
def codeWord (c : Bits) : Word := BitVec.ofNat 32 (c.length <<< 24 ||| codeSum c)

/-- `Len(W) = W[31:24]`. -/
def wordLen (w : Word) : Nat := (w.extractLsb' 24 8).toNat

/-- `Code(W) = [W[L], W[L-1], ..., W[1]]`; the other bits are ignored. -/
def wordCode (w : Word) : Bits := (List.range (wordLen w)).map fun j => w.getLsbD (wordLen w - j)

/-! ### Values derived from the arrays -/

/-- TOTAL: the sum of the counters (10_state.md R37). -/
def histTotal (h : Table Word) : Nat := (h.toList.map BitVec.toNat).sum

/-- NDIST: the number of symbols with a count (R38). -/
def histDistinct (h : Table Word) : Nat := (h.toList.filter fun c => c ≠ 0#32).length

/-- The lengths of the codes that are not empty. -/
def codeLengths (ct : Table Bits) : List Nat := (ct.toList.map List.length).filter fun n => n ≠ 0

/-- MIN_LEN: the least length of a non-empty code, 0 when there is none (R48). -/
def minLen (ct : Table Bits) : Nat := (codeLengths ct).min?.getD 0

/-- MAX_LEN: the greatest length of a code, 0 when there is none (R48). -/
def maxLen (ct : Table Bits) : Nat := (codeLengths ct).max?.getD 0

/-- The symbol whose code is the given string (R57). -/
def symbolOf (ct : Table Bits) (c : Bits) : Option Byte :=
  ((tableRows ct).find? fun r => r.2 = c).map Prod.fst

/-- The weight of a node (R43). -/
def nodeWeight (n : Node) : Word :=
  match n with
  | .leaf _ w => w
  | .internal w _ _ => w

end Sys2Proof.Machine
end

