-- ==== Sys2Proof/Machine/Flags.lean ====
section
/-! DEFINITION. The STATUS bits (10_state.md R26), the checks on the validity flags (60_exceptions.md R211
E_SEQUENCE) and the interrupt level (R217). -/

namespace Sys2Proof.Machine

/-- A flag at its bit of a register. -/
def flagBit (b : Bool) (k : Nat) : Word := if b then 1#32 <<< k else 0#32

/-- STATUS.ERROR: 1 exactly when ERR.CODE is not 0 (R26). -/
def statusError (s : State) : Bool := s.errCode != 0#8

/-- The STATUS register (R26). -/
def statusWord (s : State) : Word :=
  flagBit s.busy 0 ||| flagBit s.done 1 ||| flagBit (statusError s) 2 ||| flagBit s.overrun 3 |||
    flagBit s.treeValid 4 ||| flagBit s.codesValid 5 ||| flagBit s.hdrValid 6

/-- The interrupt level: `IRQ = STATUS.DONE and IRQ_EN.DONE_IE` (R217). -/
def irq (s : State) : Bool := s.done && s.doneIe

/-- The validity flags a command misses, as STATUS bits, raise E_SEQUENCE (R211). -/
def sequenceCheck (missing : Word) : Option CmdError := raiseIf (missing ≠ 0#32) .sequence missing

/-- CODE_ASSIGN needs TREE_VALID. -/
def needTree (s : State) : Option CmdError := sequenceCheck (flagBit (!s.treeValid) 4)

/-- HDR_WRITE, PACK_SYM and PACK_BLOCK need CODES_VALID. -/
def needCodes (s : State) : Option CmdError := sequenceCheck (flagBit (!s.codesValid) 5)

/-- UNPACK needs CODES_VALID and HDR_VALID. -/
def needCodesAndHdr (s : State) : Option CmdError :=
  sequenceCheck (flagBit (!s.codesValid) 5 ||| flagBit (!s.hdrValid) 6)

/-- A new histogram: the tree and the codes built from the earlier one are no longer valid (41_histogram.md R140). -/
def withHist (s : State) (h : Table Word) : State :=
  { s with hist := h, treeValid := false, codesValid := false }

end Sys2Proof.Machine
end

