-- ==== Sys2Proof/Machine/Codes.lean ====
section
/-! DEFINITION. The code generator: CODE_ASSIGN (43_codes.md R160 to R163). -/

namespace Sys2Proof.Machine

/-- `Walk(i, path)` (R161). `fuel` bounds the depth: the arena's size is enough for a tree. An index that names no
slot, and a path longer than the arena, occur in no state a run reaches (DESIGN CHOICE, log 10). -/
def walk (nodes : List Node) : Nat → Nat → Bits → Table Bits → Table Bits
  | 0, _, _, ct => ct
  | fuel + 1, i, path, ct =>
    match nodes[i]? with
    | none => ct
    | some (.leaf sym _) => tableSet ct sym path
    | some (.internal _ l r) =>
      walk nodes fuel r.toNat (path ++ [true]) (walk nodes fuel l.toNat (path ++ [false]) ct)

/-- The table of the tree: the code "0" for a root that is a leaf (R162), else the root-to-leaf paths (R161). -/
def assignCodes (nodes : List Node) (root : Nat) : Table Bits :=
  match nodes[root]? with
  | some (.leaf sym _) => tableSet (tableFill []) sym [false]
  | _ => walk nodes nodes.length root [] (tableFill [])

/-- `E_CODE_TOO_LONG(L << 8 | s)`, s the smallest symbol with a code of more than 23 bits (R163). -/
def tooLongCheck (ct : Table Bits) : Option CmdError :=
  (tableRows ct).findSome? fun r =>
    raiseIf (r.2.length > Config.maxCodeLen) .codeTooLong (BitVec.ofNat 32 (r.2.length <<< 8 ||| r.1.toNat))

/-- The checks of CODE_ASSIGN in order (R160): E_SEQUENCE, E_CODE_TOO_LONG. -/
def codeAssignCheck (s : State) : Option CmdError :=
  (needTree s).or <| tooLongCheck (assignCodes s.nodes s.root.toNat)

/-- The effect of CODE_ASSIGN (R160). -/
def codeAssignEffect (s : State) : State :=
  { s with ct := assignCodes s.nodes s.root.toNat, codesValid := true }

/-- CODE_ASSIGN (R160). -/
def codeAssignRule : Rule := guarded codeAssignCheck codeAssignEffect

/-- CODE_ASSIGN (R160). -/
def execCodeAssign (s : State) : Host.Outcome State Fault Refusal := completeAs .codeAssign codeAssignRule s

end Sys2Proof.Machine
end

