-- ==== Sys2Proof/Machine/Container.lean ====
section
/-! DEFINITION. The container serializer and deserializer: HDR_WRITE and HDR_READ (46_container.md R190 to R193), over
the layout of 30_encoding.md R112 to R120. -/

namespace Sys2Proof.Machine

/-- HDRLEN(N), the bytes before the payload (R112). -/
def hdrLen (n : Nat) : Nat := 14 + 5 * n

/-! ### HDR_WRITE -/

/-- `E_NO_CODE(s)`, s the smallest symbol with a count and no code (R190). -/
def noCodeInHist (s : State) : Option CmdError :=
  (tableRows s.hist).findSome? fun r =>
    raiseIf (r.2 ≠ 0#32 ∧ tableGet s.ct r.1 = []) .noCode (r.1.setWidth 32)

/-- The payload bits the histogram's symbols pack to (R190). -/
def histCodeBits (s : State) : Nat :=
  ((tableRows s.hist).map fun r => r.2.toNat * (tableGet s.ct r.1).length).sum

/-- The table entries in ascending symbol order: the symbols with a code (R119, R190). -/
def tableEntries (ct : Table Bits) : List (Byte × Bits) := (tableRows ct).filter fun r => r.2 ≠ []

/-- The five bytes of a table entry (R116). -/
def entryBytes (e : Byte × Bits) : List Byte := e.1 :: bytesOf32 (codeWord e.2)

/-- The header: signature, TableSize, the entries, SymbolCount, PayloadByteCount (R112, R190). -/
def headerBytes (ct : Table Bits) (symbolCount payloadBytes : Nat) : List Byte :=
  [Config.signature0, Config.signature1] ++ bytesOf32 (BitVec.ofNat 32 (tableEntries ct).length) ++
    (tableEntries ct).flatMap entryBytes ++
    bytesOf32 (BitVec.ofNat 32 symbolCount) ++ bytesOf32 (BitVec.ofNat 32 payloadBytes)

/-- The checks of HDR_WRITE in order (R190). -/
def hdrWriteCheck (s : State) : Option CmdError :=
  (needCodes s).or <|
  (dstCheck s).or <|
  (noCodeInHist s).or <|
  (raiseIf (ceil8 (histCodeBits s) > Config.maxCount) .countOverflow 0#32).or <|
  dstFullCheck s (hdrLen (tableEntries s.ct).length)

/-- The effect of HDR_WRITE (R190). -/
def hdrWriteEffect (s : State) : State :=
  { dstWriteAll s 0 (headerBytes s.ct (histTotal s.hist) (ceil8 (histCodeBits s))) with
    outPtr := BitVec.ofNat 32 (hdrLen (tableEntries s.ct).length) }

/-- HDR_WRITE (R190). -/
def hdrWriteRule : Rule := guarded hdrWriteCheck hdrWriteEffect

/-- HDR_WRITE (R190). -/
def execHdrWrite (s : State) : Host.Outcome State Fault Refusal := completeAs .hdrWrite hdrWriteRule s

/-! ### HDR_READ -/

/-- One string is a prefix of the other, equal strings included (R193). -/
def prefixClash (c d : Bits) : Bool := c.isPrefixOf d || d.isPrefixOf c

/-- The checks on entry i with symbol sym and code word w, against the entries before it (R193). -/
def entryCheck (i : Nat) (sym : Byte) (w : Word) (before : List (Byte × Bits)) : Option CmdError :=
  (raiseIf (wordLen w = 0 ∨ wordLen w > Config.maxCodeLen) .badCodeLen (BitVec.ofNat 32 i)).or <|
  (raiseIf (before.any fun e => e.1 == sym) .dupSymbol (BitVec.ofNat 32 i)).or <|
  raiseIf (before.any fun e => prefixClash (wordCode w) e.2) .notPrefixFree (BitVec.ofNat 32 i)

/-- Entry i, read (R192) and checked against the entries before it (R193). -/
def readEntry (s : State) (i : Nat) (before : List (Byte × Bits)) : Except CmdError (Byte × Bits) :=
  match entryCheck i (srcByte s (6 + 5 * i)) (get32 s (7 + 5 * i)) before with
  | some e => .error e
  | none => .ok (srcByte s (6 + 5 * i), wordCode (get32 s (7 + 5 * i)))

/-- `n` entries from entry i on, each read and checked against those before it (R191 to R193). -/
def readEntries (s : State) : Nat → Nat → List (Byte × Bits) → Except CmdError (List (Byte × Bits))
  | 0, _, before => .ok before
  | n + 1, i, before => (readEntry s i before).bind fun e => readEntries s n (i + 1) (before ++ [e])

/-- The code table of the entries read (R191). -/
def tableOfEntries (es : List (Byte × Bits)) : Table Bits :=
  es.foldl (fun ct e => tableSet ct e.1 e.2) (tableFill [])

/-- TableSize, the field at offset 2 (R191). -/
def hdrTableSize (s : State) : Nat := (get32 s 2).toNat

/-- SymbolCount, the field after the entries (R191). -/
def hdrSymbolCount (s : State) : Word := get32 s (6 + 5 * hdrTableSize s)

/-- PayloadByteCount (R191). -/
def hdrPayloadBytes (s : State) : Word := get32 s (10 + 5 * hdrTableSize s)

/-- The checks of HDR_READ before the entries, in order (R191). -/
def hdrReadCheck (s : State) : Option CmdError :=
  (srcCheck s).or <|
  (truncatedCheck s 2).or <|
  (raiseIf (srcByte s 0 ≠ Config.signature0 ∨ srcByte s 1 ≠ Config.signature1) .badSignature
    (BitVec.ofNat 32 ((srcByte s 0).toNat <<< 8 ||| (srcByte s 1).toNat))).or <|
  (truncatedCheck s 6).or <|
  (raiseIf (hdrTableSize s = 0 ∨ hdrTableSize s > Config.tableMax) .badTableSize (get32 s 2)).or <|
  truncatedCheck s (hdrLen (hdrTableSize s))

/-- The effect of HDR_READ (R191). -/
def hdrReadEffect (s : State) (es : List (Byte × Bits)) : State :=
  { s with
    ct := tableOfEntries es, decSyms := hdrSymbolCount s, decPbytes := hdrPayloadBytes s,
    inPtr := BitVec.ofNat 32 (hdrLen (hdrTableSize s)),
    treeValid := false, codesValid := true, hdrValid := true }

/-- HDR_READ (R191). -/
def hdrReadRule : Rule := fun s =>
  match hdrReadCheck s with
  | some e => .error e
  | none =>
    match readEntries s (hdrTableSize s) 0 [] with
    | .error e => .error e
    | .ok es =>
      match truncatedCheck s (hdrLen (hdrTableSize s) + (hdrPayloadBytes s).toNat) with
      | some e => .error e
      | none => .ok (hdrReadEffect s es)

/-- HDR_READ (R191). -/
def execHdrRead (s : State) : Host.Outcome State Fault Refusal := completeAs .hdrRead hdrReadRule s

end Sys2Proof.Machine
end

