-- ==== Sys2Proof/Machine/Histogram.lean ====
section
/-! DEFINITION. The histogram accumulator: HIST_CLEAR, HIST_ACCUM, HIST_BYTE (41_histogram.md R140 to R142). -/

namespace Sys2Proof.Machine

/-- One more occurrence of a symbol. -/
def countSymbol (h : Table Word) (sym : Byte) : Table Word := tableSet h sym (tableGet h sym + 1#32)

/-- HIST_CLEAR (R140). -/
def histClearRule : Rule := fun s => .ok (withHist s (tableFill 0#32))

/-- The checks of HIST_ACCUM in order (R141): E_RANGE, E_BUS, E_COUNT_OVERFLOW. -/
def histAccumCheck (s : State) : Option CmdError :=
  (srcCheck s).or <|
  raiseIf (histTotal s.hist + s.srcLen.toNat > Config.maxCount) .countOverflow 0#32

/-- The effect of HIST_ACCUM (R141): every byte of the SRC window is counted. -/
def histAccumEffect (s : State) : State := withHist s ((srcBytes s).foldl countSymbol s.hist)

/-- HIST_ACCUM (R141). -/
def histAccumRule : Rule := guarded histAccumCheck histAccumEffect

/-- The check of HIST_BYTE (R142). -/
def histByteCheck (s : State) : Option CmdError :=
  raiseIf (histTotal s.hist = Config.maxCount) .countOverflow 0#32

/-- HIST_BYTE (R142). -/
def histByteRule (sym : Byte) : Rule :=
  guarded histByteCheck fun s => withHist s (countSymbol s.hist sym)

/-- HIST_CLEAR (R140). -/
def execHistClear (s : State) : Host.Outcome State Fault Refusal := completeAs .histClear histClearRule s

/-- HIST_ACCUM (R141). -/
def execHistAccum (s : State) : Host.Outcome State Fault Refusal := completeAs .histAccum histAccumRule s

/-- HIST_BYTE (R142). -/
def execHistByte (sym : Byte) (s : State) : Host.Outcome State Fault Refusal :=
  completeAs (.histByte sym) (histByteRule sym) s

end Sys2Proof.Machine
end

