-- ==== Sys2Proof/Machine/Packer.lean ====
section
/-! DEFINITION. The bit packer: PACK_RESET, PACK_SYM, PACK_BLOCK, PACK_FLUSH (44_packer.md R170 to R176). -/

namespace Sys2Proof.Machine

/-- The partial byte goes to the DST window at OUT_PTR, and a new one starts (R170, R171). -/
def emitByte (s : State) : State :=
  { dstWrite s s.outPtr.toNat s.pwByte with outPtr := s.outPtr + 1#32, pwByte := 0#8, pwCur := 0#3 }

/-- `PutBit(b)` (R170): the bit lands at bit 7 - PW_CUR of the partial byte, which is flushed when it is full. -/
def putBit (s : State) (b : Bool) : State :=
  let byte := s.pwByte ||| ((BitVec.ofBool b).setWidth 8 <<< (7 - s.pwCur.toNat))
  if s.pwCur.toNat + 1 = 8 then emitByte { s with pwByte := byte }
  else { s with pwByte := byte, pwCur := s.pwCur + 1#3 }

/-- `PutCode(c)`: PutBit of each bit in order, c_0 first (R170). -/
def putCode (s : State) (c : Bits) : State := c.foldl putBit s

/-- `Flush()` (R171). -/
def flush (s : State) : State := if s.pwCur ≠ 0#3 then emitByte s else s

/-- `if last: Flush()` (R174, R175). -/
def flushIf (last : Bool) (s : State) : State := if last then flush s else s

/-- `NewBytes(nbits, last)` (R172). -/
def newBytes (s : State) (nbits : Nat) (last : Bool) : Nat :=
  (s.pwCur.toNat + nbits) / 8 + (if last ∧ (s.pwCur.toNat + nbits) % 8 ≠ 0 then 1 else 0)

/-- `OUT_PTR + NewBytes(nbits, last)`: the DST bytes a packing command needs (R172). -/
def packNeeds (s : State) (nbits : Nat) (last : Bool) : Nat := s.outPtr.toNat + newBytes s nbits last

/-- Packing one symbol: its code, then one more symbol counted (R174). -/
def packOne (s : State) (sym : Byte) : State :=
  { putCode s (tableGet s.ct sym) with pwSyms := s.pwSyms + 1#32 }

/-- PACK_RESET (R173). -/
def packResetRule : Rule := fun s => .ok { s with pwByte := 0#8, pwCur := 0#3, pwSyms := 0#32 }

/-- The checks of PACK_SYM in order (R174). -/
def packSymCheck (sym : Byte) (last : Bool) (s : State) : Option CmdError :=
  (needCodes s).or <|
  (dstCheck s).or <|
  (raiseIf (tableGet s.ct sym = []) .noCode (sym.setWidth 32)).or <|
  (raiseIf (s.pwSyms.toNat + 1 > Config.maxCount) .countOverflow 0#32).or <|
  dstFullCheck s (packNeeds s (tableGet s.ct sym).length last)

/-- PACK_SYM (R174). -/
def packSymRule (sym : Byte) (last : Bool) : Rule :=
  guarded (packSymCheck sym last) fun s => flushIf last (packOne s sym)

/-- `E_NO_CODE(o)`, o the first SRC offset whose byte has no code (R175). -/
def noCodeInSrc (s : State) : Option CmdError :=
  (srcBytes s).zipIdx.findSome? fun p =>
    raiseIf (tableGet s.ct p.1 = []) .noCode (BitVec.ofNat 32 p.2)

/-- The bits the SRC bytes pack to (R175). -/
def srcCodeBits (s : State) : Nat := ((srcBytes s).map fun b => (tableGet s.ct b).length).sum

/-- The checks of PACK_BLOCK in order (R175). -/
def packBlockCheck (last : Bool) (s : State) : Option CmdError :=
  (needCodes s).or <|
  (windowsCheck s).or <|
  (noCodeInSrc s).or <|
  (raiseIf (s.pwSyms.toNat + s.srcLen.toNat > Config.maxCount) .countOverflow 0#32).or <|
  dstFullCheck s (packNeeds s (srcCodeBits s) last)

/-- The effect of PACK_BLOCK (R175). The bytes are those the window held before the command: no command that writes
the DST window reads it (20_memory.md R75, R77; log 9). -/
def packBlockEffect (last : Bool) (s : State) : State := flushIf last ((srcBytes s).foldl packOne s)

/-- PACK_BLOCK (R175). -/
def packBlockRule (last : Bool) : Rule := guarded (packBlockCheck last) (packBlockEffect last)

/-- The checks of PACK_FLUSH in order (R176). -/
def packFlushCheck (s : State) : Option CmdError :=
  (dstCheck s).or <| dstFullCheck s (packNeeds s 0 true)

/-- PACK_FLUSH (R176). -/
def packFlushRule : Rule := guarded packFlushCheck flush

/-- PACK_RESET (R173). -/
def execPackReset (s : State) : Host.Outcome State Fault Refusal := completeAs .packReset packResetRule s

/-- PACK_SYM (R174). -/
def execPackSym (sym : Byte) (last : Bool) (s : State) : Host.Outcome State Fault Refusal :=
  completeAs (.packSym sym last) (packSymRule sym last) s

/-- PACK_BLOCK (R175). -/
def execPackBlock (last : Bool) (s : State) : Host.Outcome State Fault Refusal :=
  completeAs (.packBlock last) (packBlockRule last) s

/-- PACK_FLUSH (R176). -/
def execPackFlush (s : State) : Host.Outcome State Fault Refusal := completeAs .packFlush packFlushRule s

end Sys2Proof.Machine
end

