-- ==== Sys2Proof/Machine/Tree.lean ====
section
/-! DEFINITION. The tree builder: TREE_BUILD (42_tree.md R150 to R154). -/

namespace Sys2Proof.Machine

/-- An element of the active set: the weight of a node and its arena index, the pair Select compares (R151). -/
structure Active where
  weight : Nat
  index  : Nat
  deriving DecidableEq, Repr

/-- The lexicographic order of (weight, index) (R151). -/
def Active.before (a b : Active) : Bool :=
  decide (a.weight < b.weight ∨ (a.weight = b.weight ∧ a.index ≤ b.index))

/-- `Select(A)` and `A \ {Select(A)}`: the least (weight, index) and the others (R151). -/
def select : List Active → Option (Active × List Active)
  | [] => none
  | a :: rest =>
    match select rest with
    | none => some (a, [])
    | some (m, others) => if a.before m then some (a, rest) else some (m, a :: others)

/-- The leaves: the symbols with a count, in ascending order, with their counts (R150). -/
def leavesOf (h : Table Word) : List Node :=
  (tableRows h).filterMap fun r => if r.2 = 0#32 then none else some (.leaf r.1 r.2)

/-- The active set before the first merge: every leaf with its index (R150). -/
def leavesActive (leaves : List Node) : List Active :=
  leaves.zipIdx.map fun p => ⟨(nodeWeight p.1).toNat, p.2⟩

/-- The internal node of a merge, the first selected as left child (R150). Weights fit 32 bits because TOTAL does
(DEDUCED, log 11). -/
def mergeNode (a b : Active) : Node :=
  .internal (BitVec.ofNat 32 (a.weight + b.weight)) (BitVec.ofNat 9 a.index) (BitVec.ofNat 9 b.index)

/-- The merge loop of R150: the arena and the index of the last node left. Each merge takes one node off the active set,
so `fuel`, its size, is enough. -/
def mergeLoop : Nat → List Node → List Active → List Node × Nat
  | 0, nodes, active => (nodes, (active.head?.map Active.index).getD 0)
  | fuel + 1, nodes, active =>
    match select active with
    | none => (nodes, 0)
    | some (a, rest) =>
      match select rest with
      | none => (nodes, a.index)
      | some (b, others) =>
        mergeLoop fuel (nodes ++ [mergeNode a b]) (others ++ [⟨a.weight + b.weight, nodes.length⟩])

/-- The arena and the root TREE_BUILD leaves for a histogram (R150). -/
def buildTree (h : Table Word) : List Node × Nat :=
  mergeLoop (leavesOf h).length (leavesOf h) (leavesActive (leavesOf h))

/-- The check of TREE_BUILD (R150). -/
def treeBuildCheck (s : State) : Option CmdError := raiseIf (leavesOf s.hist = []) .empty 0#32

/-- The effect of TREE_BUILD (R150). -/
def treeBuildEffect (s : State) : State :=
  { s with
    nodes := (buildTree s.hist).1, root := BitVec.ofNat 9 (buildTree s.hist).2,
    treeValid := true, codesValid := false }

/-- TREE_BUILD (R150). -/
def treeBuildRule : Rule := guarded treeBuildCheck treeBuildEffect

/-- TREE_BUILD (R150). -/
def execTreeBuild (s : State) : Host.Outcome State Fault Refusal := completeAs .treeBuild treeBuildRule s

end Sys2Proof.Machine
end

