-- ==== Sys2Proof/Machine/Unpacker.lean ====
section
/-! DEFINITION. The bit unpacker: UNPACK (45_unpacker.md R180 to R185). -/

namespace Sys2Proof.Machine

/-- `GetBit(pos)` (R181). -/
def getBit (s : State) (pos : Nat) : Bool :=
  (srcByte s (s.inPtr.toNat + pos / 8)).getLsbD (7 - pos % 8)

/-- ERR_INFO of E_UNMATCHED_CODE: the bit position of the candidate's first bit (R184). A position that does not fit
32 bits has no stated ERR_INFO: a free value (DESIGN CHOICE, log 12). -/
def unmatchedInfo (start : Nat) : Word :=
  if start ≤ Config.maxCount then BitVec.ofNat 32 start else Config.wideBitPosition start

/-- The loop of R180 from bit position `pos`, with `cand` the candidate and `out` the symbols emitted. Each turn reads
one bit, so the payload's bits left, and one turn more, are fuel enough; out of fuel is out of payload. The
candidate's first bit is at `pos - |cand|`. -/
def unpackLoop (s : State) (nbits want lo hi : Nat) : Nat → Nat → Bits → List Byte → Except CmdError (List Byte)
  | 0, _, _, out => .error ⟨.payloadExhausted, BitVec.ofNat 32 out.length⟩
  | fuel + 1, pos, cand, out =>
    if want ≤ out.length then .ok out
    else if pos = nbits then .error ⟨.payloadExhausted, BitVec.ofNat 32 out.length⟩
    else
      let next := cand ++ [getBit s pos]
      match (if lo ≤ next.length then symbolOf s.ct next else none) with
      | some sym => unpackLoop s nbits want lo hi fuel (pos + 1) [] (out ++ [sym])
      | none =>
        if hi ≤ next.length then .error ⟨.unmatchedCode, unmatchedInfo (pos - cand.length)⟩
        else unpackLoop s nbits want lo hi fuel (pos + 1) next out

/-- The symbols UNPACK decodes, or the error its loop meets first (R180). -/
def unpackSymbols (s : State) : Except CmdError (List Byte) :=
  unpackLoop s (8 * s.decPbytes.toNat) s.decSyms.toNat (minLen s.ct) (maxLen s.ct)
    (8 * s.decPbytes.toNat + 1) 0 [] []

/-- The checks of UNPACK before its loop, in order (R180). -/
def unpackCheck (s : State) : Option CmdError :=
  (needCodesAndHdr s).or <|
  (windowsCheck s).or <|
  (truncatedCheck s (s.inPtr.toNat + s.decPbytes.toNat)).or <|
  dstFullCheck s s.decSyms.toNat

/-- The effect of UNPACK with the symbols decoded (R180): they go to DST offsets 0 on, whatever OUT_PTR was. -/
def unpackEffect (s : State) (out : List Byte) : State := { dstWriteAll s 0 out with outPtr := s.decSyms }

/-- UNPACK (R180). -/
def unpackRule : Rule := fun s =>
  match unpackCheck s with
  | some e => .error e
  | none =>
    match unpackSymbols s with
    | .error e => .error e
    | .ok out => .ok (unpackEffect s out)

/-- UNPACK (R180). -/
def execUnpack (s : State) : Host.Outcome State Fault Refusal := completeAs .unpack unpackRule s

end Sys2Proof.Machine
end

