-- ==== Sys2Proof/Machine/Composite.lean ====
section
/-! DEFINITION. The composite commands ENCODE and DECODE (47_composite.md R200 to R202). -/

namespace Sys2Proof.Machine

/-- The steps of ENCODE, each with the stage it reports (R200). -/
def encodeSteps : List (Byte × Rule) :=
  [(opcodeOf .histClear, histClearRule),
   (opcodeOf .histAccum, histAccumRule),
   (opcodeOf .treeBuild, treeBuildRule),
   (opcodeOf .codeAssign, codeAssignRule),
   (opcodeOf .hdrWrite, hdrWriteRule),
   (opcodeOf .packReset, packResetRule),
   (opcodeOf (.packBlock true), packBlockRule true)]

/-- The steps of DECODE (R201). -/
def decodeSteps : List (Byte × Rule) :=
  [(opcodeOf .hdrRead, hdrReadRule),
   (opcodeOf .unpack, unpackRule)]

/-- The composite's own window checks, at its own stage, then its steps (R200, R201). -/
def runComposite (i : Instr) (steps : List (Byte × Rule)) (s : State) : Except Raised State :=
  match windowsCheck s with
  | some e => .error ⟨opcodeOf i, e⟩
  | none => runSteps steps s

/-- ENCODE (R200). An empty input is a no-op that sets OUT_PTR to 0 and makes no check. -/
def encodeRun (s : State) : Except Raised State :=
  if s.srcLen = 0#32 then .ok { s with outPtr := 0#32 } else runComposite .encode encodeSteps s

/-- DECODE (R201). -/
def decodeRun (s : State) : Except Raised State := runComposite .decode decodeSteps s

/-- ENCODE (R200). -/
def execEncode (s : State) : Host.Outcome State Fault Refusal := complete s (encodeRun s)

/-- DECODE (R201). -/
def execDecode (s : State) : Host.Outcome State Fault Refusal := complete s (decodeRun s)

end Sys2Proof.Machine
end

