-- ==== Sys2Proof/Machine/Control.lean ====
section
/-! DEFINITION. The control commands NOP and SRESET (40_control.md R137, R138). -/

namespace Sys2Proof.Machine

/-- NOP changes nothing (R137). -/
def nopRule : Rule := fun s => .ok s

/-- SRESET restores the internal state and keeps the host's programming (R138). -/
def sresetEffect (s : State) : State :=
  { s with
    hist := tableFill 0#32, ct := tableFill [], nodes := [], root := 0#9,
    pwByte := 0#8, pwCur := 0#3, pwSyms := 0#32, decSyms := 0#32, decPbytes := 0#32,
    inPtr := 0#32, outPtr := 0#32, treeValid := false, codesValid := false, hdrValid := false }

@[inherit_doc sresetEffect]
def sresetRule : Rule := fun s => .ok (sresetEffect s)

/-- NOP (R137). -/
def execNop (s : State) : Host.Outcome State Fault Refusal := completeAs .nop nopRule s

/-- SRESET (R138). -/
def execSreset (s : State) : Host.Outcome State Fault Refusal := completeAs .sreset sresetRule s

end Sys2Proof.Machine
end

