-- ==== Sys2Proof/Machine/Dispatch.lean ====
section
/-! DEFINITION. Which meaning each command has (40_control.md R136), one arm per constructor. -/

namespace Sys2Proof.Machine

/-- The completion of an accepted legal command (40_control.md R134, R136). -/
def exec (i : Instr) (s : State) : Host.Outcome State Fault Refusal :=
  match i with
  | .nop => Sys2Proof.Machine.execNop s
  | .sreset => Sys2Proof.Machine.execSreset s
  | .histClear => Sys2Proof.Machine.execHistClear s
  | .histAccum => Sys2Proof.Machine.execHistAccum s
  | .histByte sym => Sys2Proof.Machine.execHistByte sym s
  | .treeBuild => Sys2Proof.Machine.execTreeBuild s
  | .codeAssign => Sys2Proof.Machine.execCodeAssign s
  | .hdrWrite => Sys2Proof.Machine.execHdrWrite s
  | .hdrRead => Sys2Proof.Machine.execHdrRead s
  | .packReset => Sys2Proof.Machine.execPackReset s
  | .packSym sym last => Sys2Proof.Machine.execPackSym sym last s
  | .packBlock last => Sys2Proof.Machine.execPackBlock last s
  | .packFlush => Sys2Proof.Machine.execPackFlush s
  | .unpack => Sys2Proof.Machine.execUnpack s
  | .encode => Sys2Proof.Machine.execEncode s
  | .decode => Sys2Proof.Machine.execDecode s

end Sys2Proof.Machine
end

