-- ==== Sys2Proof/Machine/Completion.lean ====
section
/-! DEFINITION. The core's step, the completion of the accepted command (40_control.md R134, R136). -/

namespace Sys2Proof.Machine

/-- The error of an illegal word: `error(E_ILLEGAL_CMD, w[7:0], w)` (R136). -/
def illegalCommand (w : Word) : Raised := ⟨w.extractLsb' 0 8, ⟨.illegalCmd, w⟩⟩

/-- The completion of the command word in CMD_LAST: legality is decided now, not at acceptance (30_encoding.md R105). -/
def completion (s : State) : Host.Outcome State Fault Refusal :=
  match decode s.cmdLast with
  | .ok i => exec i s
  | .error _ => complete s (.error (illegalCommand s.cmdLast))

/-- The core's turn: the completion while BUSY (R134); while idle it does nothing and keeps all state
(60_exceptions.md R228, log 1). -/
def coreStep (s : State) : Host.Outcome State Fault Refusal :=
  if s.busy then completion s else .next s

end Sys2Proof.Machine
end

