-- ==== Sys2Proof/Machine/HostAccess.lean ====
section
/-! DEFINITION. The register file as the host sees it (10_state.md R22 to R52), the host's four kinds of step (40_control.md
R130 to R133, R139), and the hardware reset (70_reset_and_hazards.md R240, R241). -/

namespace Sys2Proof.Machine

/-- The register offset a host address reaches: the low two address bits are ignored, `o & 0xFC` (R22). An address
outside the 256 bytes from REG_BASE on reaches no register. -/
def regOffset (s : State) (addr : Word) : Option Nat :=
  if (addr - s.regBase).toNat < 256 then some ((addr - s.regBase).toNat / 4 * 4) else none

/-! ### Reads (R22: no register read has a side effect) -/

/-- NODE_INFO of a slot (R42). -/
def nodeInfo (n : Node) : Word :=
  match n with
  | .leaf sym _ => 1#32 <<< 31 ||| sym.setWidth 32
  | .internal _ l r => 1#32 <<< 31 ||| 1#32 <<< 30 ||| r.setWidth 32 <<< 9 ||| l.setWidth 32

/-- NODE_INFO: of the selected slot, 0 past NNODES (R42). -/
def nodeInfoReg (s : State) : Word := ((s.nodes[s.nodeSel.toNat]?).map nodeInfo).getD 0#32

/-- NODE_WEIGHT: of the selected slot, 0 past NNODES (R43). -/
def nodeWeightReg (s : State) : Word := ((s.nodes[s.nodeSel.toNat]?).map nodeWeight).getD 0#32

/-- CODE_LENS: MIN_LEN in [7:0], MAX_LEN in [15:8] (R48). -/
def codeLensReg (s : State) : Word := BitVec.ofNat 32 (minLen s.ct ||| maxLen s.ct <<< 8)

/-- The value a host read of a register offset returns (R23); an offset of no register reads 0 (R22), and so does
the write-only ACK (R30). -/
def regValue (s : State) (offset : Nat) : Word :=
  match offset with
  | 0x00 => Config.idValue
  | 0x04 => s.cmdLast
  | 0x08 => statusWord s
  | 0x0C => s.errCode.setWidth 32 ||| s.errStage.setWidth 32 <<< 8
  | 0x10 => s.errInfo
  | 0x14 => flagBit s.doneIe 0
  | 0x1C => s.srcBase
  | 0x20 => s.srcLen
  | 0x24 => s.dstBase
  | 0x28 => s.dstCap
  | 0x2C => s.inPtr
  | 0x30 => s.outPtr
  | 0x34 => BitVec.ofNat 32 (histTotal s.hist)
  | 0x38 => BitVec.ofNat 32 (histDistinct s.hist)
  | 0x3C => s.histSel.setWidth 32
  | 0x40 => tableGet s.hist s.histSel
  | 0x44 => s.nodeSel.setWidth 32
  | 0x48 => nodeInfoReg s
  | 0x4C => nodeWeightReg s
  | 0x50 => s.root.setWidth 32
  | 0x54 => BitVec.ofNat 32 s.nodes.length
  | 0x58 => s.codeSel.setWidth 32
  | 0x5C => codeWord (tableGet s.ct s.codeSel)
  | 0x60 => codeLensReg s
  | 0x64 => s.pwByte.setWidth 32 ||| s.pwCur.setWidth 32 <<< 8
  | 0x68 => s.pwSyms
  | 0x6C => s.decSyms
  | 0x70 => s.decPbytes
  | _ => 0#32

/-! ### Writes -/

/-- A write of CMD: accepted while idle (R131), dropped with OVERRUN while BUSY (R132). The word is not checked here. -/
def writeCmd (s : State) (w : Word) : State :=
  if s.busy then { s with overrun := true } else { s with cmdLast := w, busy := true, done := false }

/-- A write of ACK: bit 0 clears DONE, bit 1 clears OVERRUN (R30). -/
def writeAck (s : State) (v : Word) : State :=
  { s with done := s.done && !v.getLsbD 0, overrun := s.overrun && !v.getLsbD 1 }

/-- A write of a window or pointer register takes effect while idle, and is dropped with OVERRUN while BUSY (R133). -/
def writeIfIdle (s t : State) : State := if s.busy then { s with overrun := true } else t

/-- A host write of value v to a register offset (R22, R23). Read-only and unmapped offsets ignore it (R22, R133). -/
def regStore (s : State) (offset : Nat) (v : Word) : State :=
  match offset with
  | 0x04 => writeCmd s v
  | 0x14 => { s with doneIe := v.getLsbD 0 }
  | 0x18 => writeAck s v
  | 0x1C => writeIfIdle s { s with srcBase := v }
  | 0x20 => writeIfIdle s { s with srcLen := v }
  | 0x24 => writeIfIdle s { s with dstBase := v }
  | 0x28 => writeIfIdle s { s with dstCap := v }
  | 0x2C => writeIfIdle s { s with inPtr := v }
  | 0x30 => writeIfIdle s { s with outPtr := v }
  | 0x3C => { s with histSel := v.extractLsb' 0 8 }
  | 0x44 => { s with nodeSel := v.extractLsb' 0 9 }
  | 0x58 => { s with codeSel := v.extractLsb' 0 8 }
  | _ => s

/-! ### The steps of the host -/

/-- A host register read (R130): its value goes to the host, nothing else changes (R22, R139). -/
def hostRegRead (s : State) (addr : Word) : Host.Outcome State Fault Refusal :=
  match regOffset s addr with
  | some o => .next { s with readData := regValue s o }
  | none => .fault (.registerWindowMissed addr)

/-- A host register write (R130). -/
def hostRegWrite (s : State) (addr v : Word) : Host.Outcome State Fault Refusal :=
  match regOffset s addr with
  | some o => .next (regStore s o v)
  | none => .fault (.registerWindowMissed addr)

/-- The host duty while BUSY for a read: not the DST window (20_memory.md R87). -/
def hostMayRead (s : State) (addr : Word) : Bool := !(s.busy && inWindow s.dstBase s.dstCap addr.toNat)

/-- The host duty while BUSY for a write: neither window (R87). -/
def hostMayWrite (s : State) (addr : Word) : Bool :=
  !(s.busy && (inWindow s.srcBase s.srcLen addr.toNat || inWindow s.dstBase s.dstCap addr.toNat))

/-- A host memory byte read (R130): the last byte written there (R83). -/
def hostMemRead (s : State) (addr : Word) : Host.Outcome State Fault Refusal :=
  if !memBacked s addr.toNat then .fault (.hostAccessUnbacked addr)
  else if !hostMayRead s addr then .fault (.hostWindowAccessWhileBusy addr)
  else .next { s with readData := (readByte s.mem addr.toNat).setWidth 32 }

/-- A host memory byte write (R130). -/
def hostMemWrite (s : State) (addr : Word) (v : Byte) : Host.Outcome State Fault Refusal :=
  if !memBacked s addr.toNat then .fault (.hostAccessUnbacked addr)
  else if !hostMayWrite s addr then .fault (.hostWindowAccessWhileBusy addr)
  else .next { s with mem := writeByte s.mem addr.toNat v }

/-! ### Hardware reset -/

/-- The reset input (R240, R241): the core's state takes its reset value, a running command is discarded and leaves no
trace, memory is not changed. The platform's parameters, the steps still to come and what the host
read are not the core's (log 13). -/
def hardwareReset (s : State) : State :=
  { State.reset with
    mem := s.mem, unbacked := s.unbacked, regBase := s.regBase, turns := s.turns, readData := s.readData }

/-! ### Placing a command -/

/-- The state in which word w has been accepted (R131) and the core has the next step: what a host's CMD write, and
then no host step before the completion, lead to (log 2). -/
def placeCommand (s : State) (w : Word) : State :=
  { s with cmdLast := w, busy := true, done := false, turns := .core :: s.turns }

end Sys2Proof.Machine
end

