-- ==== Sys2Proof/Machine/Step.lean ====
section
/-! DEFINITION. One step of one agent (40_control.md R130). -/

namespace Sys2Proof.Machine

/-- The next step: of the agent that State.turns names next, and of the core when it names none (R130, R135; log 1). -/
def step (s : State) : Host.Outcome State Fault Refusal :=
  match s.turns with
  | [] => coreStep s
  | .core :: rest => coreStep { s with turns := rest }
  | .reset :: rest => .next (hardwareReset { s with turns := rest })
  | .regRead addr :: rest => hostRegRead { s with turns := rest } addr
  | .regWrite addr v :: rest => hostRegWrite { s with turns := rest } addr v
  | .memRead addr :: rest => hostMemRead { s with turns := rest } addr
  | .memWrite addr v :: rest => hostMemWrite { s with turns := rest } addr v

/-- The state with a command word placed so that the very next step runs it (log 2). -/
def State.withFetchWord (s : State) (nbits w : Nat) : State :=
  placeCommand s (BitVec.ofNat 32 (w % 2 ^ nbits))

end Sys2Proof.Machine
end

