-- ==== Sys2Proof/Safety.lean ====
section
/-! DEFINITION. The terms claims are stated in: the invariants of the machine, what a command may change, and the spec's own
words for windows, trees, code tables, bit streams and containers, written apart from the functions that compute
them in Machine/. -/

namespace Sys2Proof.Machine

/-! ### Completions -/

/-- The completion bookkeeping of a command that succeeded with state t (40_control.md R134). -/
def doneState (t : State) : State :=
  { t with busy := false, done := true, errCode := 0#8, errStage := 0#8, errInfo := 0#32 }

/-- The state after a command raised an error (60_exceptions.md R214). -/
def failedState (s : State) (stage code : Byte) (info : Word) : State :=
  { s with busy := false, done := true, errCode := code, errStage := stage, errInfo := info }

/-- A state whose last completed command succeeded (R27, R134). -/
def succeeded (t : State) : Prop :=
  t.busy = false ∧ t.done = true ∧ t.errCode = 0#8 ∧ t.errStage = 0#8 ∧ t.errInfo = 0#32

/-- The command runs to a success from s and leaves t. -/
def runsOk (i : Instr) (s t : State) : Prop := exec i s = .next t ∧ t.errCode = 0#8

/-- The command raises an error: the completion records it and changes nothing else (R214). -/
def fails (i : Instr) (s : State) (stage code : Byte) (info : Word) : Prop :=
  exec i s = .next (failedState s stage code info)

/-- A host address of the register at an offset: REG_BASE + offset, with any low two offset bits (10_state.md R22,
30_encoding.md R110). -/
def addressesReg (s : State) (addr : Word) (offset : Nat) : Prop :=
  ∃ b < 4, addr = s.regBase + BitVec.ofNat 32 (offset + b)

/-! ### What stays the same -/

/-- What no command changes: the host's programming, OVERRUN, CMD_LAST, the platform, the steps still to come (30_encoding.md
R108, 40_control.md R138). -/
def sameProgramming (s t : State) : Prop :=
  t.cmdLast = s.cmdLast ∧ t.overrun = s.overrun ∧ t.doneIe = s.doneIe ∧
  t.srcBase = s.srcBase ∧ t.srcLen = s.srcLen ∧ t.dstBase = s.dstBase ∧ t.dstCap = s.dstCap ∧
  t.histSel = s.histSel ∧ t.nodeSel = s.nodeSel ∧ t.codeSel = s.codeSel ∧
  t.unbacked = s.unbacked ∧ t.regBase = s.regBase ∧ t.turns = s.turns ∧ t.readData = s.readData

/-- The arena and ROOT are the same. -/
def sameArena (s t : State) : Prop := t.nodes = s.nodes ∧ t.root = s.root

/-- The bit writer is the same. -/
def sameWriter (s t : State) : Prop := t.pwByte = s.pwByte ∧ t.pwCur = s.pwCur ∧ t.pwSyms = s.pwSyms

/-- What HDR_READ takes from a container, but for the table, is the same. -/
def sameDecodeSide (s t : State) : Prop :=
  t.decSyms = s.decSyms ∧ t.decPbytes = s.decPbytes ∧ t.inPtr = s.inPtr

/-- The three validity flags are the same. -/
def sameFlags (s t : State) : Prop :=
  t.treeValid = s.treeValid ∧ t.codesValid = s.codesValid ∧ t.hdrValid = s.hdrValid

/-- Every byte of memory reads the same. -/
def sameBytes (s t : State) : Prop := ∀ a, readByte t.mem a = readByte s.mem a

/-- Every byte of memory outside the n bytes from DST offset o on reads the same. -/
def sameBytesOutside (s t : State) (o n : Nat) : Prop :=
  ∀ a, ¬ (s.dstBase.toNat + o ≤ a ∧ a < s.dstBase.toNat + o + n) → readByte t.mem a = readByte s.mem a

/-- Only OUT_PTR, the bit writer, memory and the completion bookkeeping may differ: what a packing command may change
(30_encoding.md R108). -/
def onlyPackerChanged (s t : State) : Prop :=
  sameProgramming s t ∧ t.hist = s.hist ∧ sameArena s t ∧ t.ct = s.ct ∧ sameDecodeSide s t ∧ sameFlags s t

/-! ### Windows (20_memory.md R72 to R75) -/

/-- A window does not pass address 2^32 (R73). -/
def windowInSpace (base len : Word) : Prop := base.toNat + len.toNat ≤ 4294967296

/-- Every address of a window has memory behind it (R74). -/
def windowBacked (s : State) (base len : Word) : Prop :=
  ∀ a, base.toNat ≤ a → a < base.toNat + len.toNat → memBacked s a = true

/-- The windows do not overlap: one is empty, or one ends at or before the start of the other (R75). -/
def windowsApart (s : State) : Prop :=
  s.srcLen = 0#32 ∨ s.dstCap = 0#32 ∨
  s.dstBase.toNat + s.dstCap.toNat ≤ s.srcBase.toNat ∨ s.srcBase.toNat + s.srcLen.toNat ≤ s.dstBase.toNat

/-- The SRC window passes its checks. -/
def srcUsable (s : State) : Prop := windowInSpace s.srcBase s.srcLen ∧ windowBacked s s.srcBase s.srcLen

/-- The DST window passes its checks. -/
def dstUsable (s : State) : Prop := windowInSpace s.dstBase s.dstCap ∧ windowBacked s s.dstBase s.dstCap

/-- Both windows pass the checks of a command that uses both (R76). -/
def bothUsable (s : State) : Prop := srcUsable s ∧ dstUsable s ∧ windowsApart s

/-- The lowest address of a window that has no memory behind it (R74). -/
def lowestUnbackedIn (s : State) (base len : Word) (a : Nat) : Prop :=
  base.toNat ≤ a ∧ a < base.toNat + len.toNat ∧ memBacked s a = false ∧
  ∀ b, base.toNat ≤ b → b < a → memBacked s b = true

/-- The commands that use the SRC window (R76). -/
def usesSrc (i : Instr) : Bool :=
  match i with
  | .histAccum | .hdrRead | .packBlock _ | .unpack | .encode | .decode => true
  | .nop | .sreset | .histClear | .histByte _ | .treeBuild | .codeAssign => false
  | .hdrWrite | .packReset | .packSym _ _ | .packFlush => false

/-- The commands that use the DST window (R76). -/
def usesDst (i : Instr) : Bool :=
  match i with
  | .hdrWrite | .packSym _ _ | .packFlush | .packBlock _ | .unpack | .encode | .decode => true
  | .nop | .sreset | .histClear | .histAccum | .histByte _ | .treeBuild | .codeAssign => false
  | .hdrRead | .packReset => false

/-- The STATUS bits of the validity flags a command needs and does not find (60_exceptions.md R211 E_SEQUENCE). -/
def missingFlags (i : Instr) (s : State) : Word :=
  match i with
  | .codeAssign => if s.treeValid then 0x00#32 else 0x10#32
  | .hdrWrite | .packSym _ _ | .packBlock _ => if s.codesValid then 0x00#32 else 0x20#32
  | .unpack => (if s.codesValid then 0x00#32 else 0x20#32) ||| (if s.hdrValid then 0x00#32 else 0x40#32)
  | .nop | .sreset | .histClear | .histAccum | .histByte _ | .treeBuild | .hdrRead => 0x00#32
  | .packReset | .packFlush | .encode | .decode => 0x00#32

/-- The byte at a DST offset. -/
def dstByte (s : State) (o : Nat) : Byte := readByte s.mem (s.dstBase.toNat + o)

/-- The big-endian word at a DST offset (30_encoding.md R113). -/
def dstWord (s : State) (o : Nat) : Nat :=
  2 ^ 24 * (dstByte s o).toNat + 2 ^ 16 * (dstByte s (o + 1)).toNat +
    2 ^ 8 * (dstByte s (o + 2)).toNat + (dstByte s (o + 3)).toNat

/-- The big-endian word at a SRC offset (R113). -/
def srcWord (s : State) (o : Nat) : Nat :=
  2 ^ 24 * (srcByte s o).toNat + 2 ^ 16 * (srcByte s (o + 1)).toNat +
    2 ^ 8 * (srcByte s (o + 2)).toNat + (srcByte s (o + 3)).toNat

/-- The bytes of a list stand in the DST window from offset o on. -/
def dstHolds (s : State) (o : Nat) (bytes : List Byte) : Prop :=
  ∀ k, ∀ h : k < bytes.length, dstByte s (o + k) = bytes[k]

/-! ### Histograms -/

/-- The number of occurrences of a symbol in the SRC window (41_histogram.md R141). -/
def srcCount (s : State) (sym : Byte) : Nat := (srcBytes s).count sym

/-- The histogram of a byte sequence (R143): each count as 32 bits. -/
def histogramOf (input : List Byte) : Table Word :=
  Vector.ofFn fun k => BitVec.ofNat 32 (input.count (BitVec.ofNat 8 k.val))

/-- The symbols with a count, in ascending order (42_tree.md R150). -/
def countedSymbols (h : Table Word) : List Byte := allSymbols.filter fun sym => tableGet h sym ≠ 0#32

/-- The symbols with a code, in ascending order (46_container.md R190). -/
def codedSymbols (ct : Table Bits) : List Byte := allSymbols.filter fun sym => tableGet ct sym ≠ []

/-! ### Trees (42_tree.md R150 to R153) -/

/-- Node k of the arena is internal and has i as a child. -/
def childOf (nodes : List Node) (i k : Nat) : Prop :=
  ∃ w l r, nodes[k]? = some (.internal w l r) ∧ (l.toNat = i ∨ r.toNat = i)

/-- Slot i is in the active set just before slot k is filled: it exists, and no node before k has taken it. -/
def activeBefore (nodes : List Node) (k i : Nat) : Prop := i < k ∧ ∀ j < k, ¬ childOf nodes i j

/-- The weight in slot i, as a number. -/
def weightAt (nodes : List Node) (i : Nat) : Nat := ((nodes[i]?.map nodeWeight).getD 0#32).toNat

/-- Slot a comes before slot b in the order of Select: the pair (weight, index) is less (R151). -/
def selectedBefore (nodes : List Node) (a b : Nat) : Prop :=
  weightAt nodes a < weightAt nodes b ∨ (weightAt nodes a = weightAt nodes b ∧ a < b)

/-- Slot k holds the merge of the two least nodes active before it, the least as left child (R150, R151). -/
def isLeastMerge (nodes : List Node) (k : Nat) : Prop :=
  ∃ w l r, nodes[k]? = some (.internal w l r) ∧ l.toNat ≠ r.toNat ∧
    activeBefore nodes k l.toNat ∧ activeBefore nodes k r.toNat ∧
    (∀ i, activeBefore nodes k i → i ≠ l.toNat → selectedBefore nodes l.toNat i) ∧
    (∀ i, activeBefore nodes k i → i ≠ l.toNat → i ≠ r.toNat → selectedBefore nodes r.toNat i) ∧
    w.toNat = weightAt nodes l.toNat + weightAt nodes r.toNat

/-- The slot reached from slot i by taking the left child at a 0 bit and the right child at a 1 bit (43_codes.md R161). -/
def follow (nodes : List Node) : Nat → Bits → Option Nat
  | i, [] => some i
  | i, b :: rest =>
    match nodes[i]? with
    | some (.internal _ l r) => follow nodes (if b then r.toNat else l.toNat) rest
    | _ => none

/-- A bit string leads from the root to the leaf of a symbol. -/
def leadsToLeaf (nodes : List Node) (root : Nat) (path : Bits) (sym : Byte) : Prop :=
  ∃ k w, follow nodes root path = some k ∧ nodes[k]? = some (.leaf sym w)

/-! ### Code tables (10_state.md R55) -/

/-- No code of another symbol is a prefix of a code (00_scope.md R11, R16). -/
def prefixFree (ct : Table Bits) : Prop :=
  ∀ a b, a ≠ b → tableGet ct a ≠ [] → tableGet ct b ≠ [] → ¬ (tableGet ct a <+: tableGet ct b)

/-- A table CODES_VALID may stand for: some code, none longer than 23 bits, prefix-free (R55). -/
def tableUsable (ct : Table Bits) : Prop :=
  (∃ sym, tableGet ct sym ≠ []) ∧ (∀ sym, (tableGet ct sym).length ≤ 23) ∧ prefixFree ct

/-- The codes of a sequence of symbols, one after the other (30_encoding.md R121). -/
def codeStream (ct : Table Bits) (input : List Byte) : Bits := input.flatMap (tableGet ct)

/-- The table a byte sequence gets: the codes of the tree of its histogram (43_codes.md R164). -/
def tableFor (input : List Byte) : Table Bits :=
  assignCodes (buildTree (histogramOf input)).1 (buildTree (histogramOf input)).2

/-! ### Bit streams (20_memory.md R79) -/

/-- Byte k of a bit stream packed MSB-first: bit number n of the stream is bit 7 - (n mod 8) of byte n div 8, and
bits past the end are 0. -/
def streamByte (stream : Bits) (k : Nat) : Byte :=
  (List.range 8).foldl
    (fun acc j => acc ||| ((BitVec.ofBool (stream.getD (8 * k + j) false)).setWidth 8 <<< (7 - j))) 0#8

/-- A bit stream packed into whole bytes, the last one padded with 0 bits (30_encoding.md R121). -/
def packedBytes (stream : Bits) : List Byte := (List.range ((stream.length + 7) / 8)).map (streamByte stream)

/-- The bits waiting in the partial byte: its first PW_CUR bits (44_packer.md R170). -/
def pendingBits (s : State) : Bits := (List.range s.pwCur.toNat).map fun j => s.pwByte.getLsbD (7 - j)

/-- The low 8 - PW_CUR bits of PW_BYTE are 0 (10_state.md R49). -/
def writerClean (s : State) : Prop := ∀ k < 8 - s.pwCur.toNat, s.pwByte.getLsbD k = false

/-- The bytes a stream of nbits bits makes whole, and one more for a partial byte that is flushed (44_packer.md R172). -/
def streamBytes (nbits : Nat) (last : Bool) : Nat := nbits / 8 + (if last ∧ nbits % 8 ≠ 0 then 1 else 0)

/-- From s to t the bits were appended to the stream at OUT_PTR, and the partial byte was flushed when `last`: the bytes
written, OUT_PTR, the bits left waiting, and nothing else of memory (R170, R171). -/
def packedOnto (s t : State) (bits : Bits) (last : Bool) : Prop :=
  let stream := pendingBits s ++ bits
  let n := streamBytes stream.length last
  t.outPtr.toNat = s.outPtr.toNat + n ∧
  (∀ k < n, dstByte t (s.outPtr.toNat + k) = streamByte stream k) ∧
  sameBytesOutside s t s.outPtr.toNat n ∧
  pendingBits t = (if last then [] else stream.drop (8 * n)) ∧
  writerClean t

/-- The payload bits UNPACK scans, in order: 8 * DEC_PBYTES bits from SRC offset IN_PTR on (45_unpacker.md R181). -/
def payloadBits (s : State) : Bits :=
  (List.range (8 * s.decPbytes.toNat)).map fun p => (srcByte s (s.inPtr.toNat + p / 8)).getLsbD (7 - p % 8)

/-! ### Containers (30_encoding.md R112 to R121) -/

/-- A 32-bit big-endian field (R113). -/
def field32 (v : Nat) : List Byte :=
  [BitVec.ofNat 8 (v / 2 ^ 24), BitVec.ofNat 8 (v / 2 ^ 16), BitVec.ofNat 8 (v / 2 ^ 8), BitVec.ofNat 8 v]

/-- The table part of a container: one entry per coded symbol in ascending order (R116, R119). -/
def tableField (ct : Table Bits) : List Byte :=
  (codedSymbols ct).flatMap fun sym => sym :: field32 (codeWord (tableGet ct sym)).toNat

/-- The container of a byte sequence under this spec's tie-break: a function of the sequence alone (R112, R120,
R121, 47_composite.md R205). -/
def containerOf (input : List Byte) : List Byte :=
  [0x1F#8, 0xA0#8] ++ field32 (codedSymbols (tableFor input)).length ++ tableField (tableFor input) ++
    field32 input.length ++ field32 (packedBytes (codeStream (tableFor input) input)).length ++
    packedBytes (codeStream (tableFor input) input)

/-- The SRC window begins with a header whose entries pass the checks of HDR_READ: the entries, in their order, with the
symbol count and the payload length (46_container.md R191 to R193). -/
def srcFields (s : State) (entries : List (Byte × Bits)) (symbolCount payload : Nat) : Prop :=
  srcByte s 0 = 0x1F#8 ∧ srcByte s 1 = 0xA0#8 ∧
  srcWord s 2 = entries.length ∧ 1 ≤ entries.length ∧ entries.length ≤ 256 ∧
  (∀ i, ∀ h : i < entries.length,
    srcByte s (6 + 5 * i) = entries[i].1 ∧ wordLen (BitVec.ofNat 32 (srcWord s (7 + 5 * i))) = entries[i].2.length ∧
    wordCode (BitVec.ofNat 32 (srcWord s (7 + 5 * i))) = entries[i].2 ∧
    1 ≤ entries[i].2.length ∧ entries[i].2.length ≤ 23) ∧
  (entries.Pairwise fun e f => e.1 ≠ f.1 ∧ ¬ (e.2 <+: f.2) ∧ ¬ (f.2 <+: e.2)) ∧
  srcWord s (6 + 5 * entries.length) = symbolCount ∧ srcWord s (10 + 5 * entries.length) = payload

/-- A header that HDR_READ accepts: the SRC window also holds the payload it names (R191). -/
def srcHeader (s : State) (entries : List (Byte × Bits)) (symbolCount payload : Nat) : Prop :=
  srcFields s entries symbolCount payload ∧ 14 + 5 * entries.length + payload ≤ s.srcLen.toNat

/-- A code table holds exactly the entries. -/
def tableIs (ct : Table Bits) (entries : List (Byte × Bits)) : Prop :=
  (∀ e ∈ entries, tableGet ct e.1 = e.2) ∧ ∀ sym, (∀ e ∈ entries, e.1 ≠ sym) → tableGet ct sym = []

/-! ### Invariants -/

/-- What the spec promises of every state a run reaches, field by field. -/
structure Inv (s : State) : Prop where
  /-- Memory keeps its canonical form (log 6). -/
  memory    : Memory.wf s.mem
  /-- The sum of the counters fits 32 bits (10_state.md R53). -/
  total     : histTotal s.hist ≤ Config.maxCount
  /-- The arena has at most 511 slots (R54). -/
  arena     : s.nodes.length ≤ Config.nodeMax
  /-- No code is longer than MAX_CODE_LEN (R55). -/
  codes     : ∀ sym, (tableGet s.ct sym).length ≤ Config.maxCodeLen
  /-- The partial byte's unused bits are 0 (R49). -/
  writer    : writerClean s
  /-- BUSY and DONE are not both 1 (R26, 40_control.md R131, R134). -/
  protocol  : ¬ (s.busy = true ∧ s.done = true)
  /-- Codes 0x13 to 0xFF are never written (60_exceptions.md R211). -/
  errors    : s.errCode.toNat ≤ 0x12
  /-- ERR.STAGE and ERR_INFO are 0 after a success (R27, R28). -/
  success   : s.errCode = 0#8 → s.errStage = 0#8 ∧ s.errInfo = 0#32
  /-- TREE_VALID: the arena holds the tree built from the current histogram (R26). -/
  tree      : s.treeValid = true → countedSymbols s.hist ≠ [] ∧
    s.nodes = (buildTree s.hist).1 ∧ s.root.toNat = (buildTree s.hist).2

/-- Whenever CODES_VALID = 1 the table has a code and is prefix-free (R55). -/
def codesUsable (s : State) : Prop := s.codesValid = true → tableUsable s.ct

end Sys2Proof.Machine
end

