-- ==== Sys2Proof/Certificates/Slice0/Obligations.lean ====
section
/-! DEFINITION. The statements for the provers. Each docstring names the rules of spec/ it formalises. -/

open Sys2Proof Sys2Proof.Machine

/-! ### Encoding -/

/-- 30_encoding.md R106, R109 and the words of 95_test_vectors.md: words written out from the encoding decode to the
command they stand for. -/
def Obligations.SpecWordsDecode : Prop :=
  decode 0x00000000#32 = .ok .nop ∧ decode 0x00000001#32 = .ok .sreset ∧
  decode 0x00006112#32 = .ok (.histByte 0x61#8) ∧ decode 0x00000020#32 = .ok .treeBuild ∧
  decode 0x00000021#32 = .ok .codeAssign ∧ decode 0x00000031#32 = .ok .hdrRead ∧
  decode 0x00016241#32 = .ok (.packSym 0x62#8 true) ∧ decode 0x00006141#32 = .ok (.packSym 0x61#8 false) ∧
  decode 0x00010042#32 = .ok (.packBlock true) ∧ decode 0x00000050#32 = .ok .unpack ∧
  decode 0x00000060#32 = .ok .encode ∧ decode 0x00000061#32 = .ok .decode

/-- R106, R109: a word decodes to a command exactly when it is that command's encoding, for every operand; so
`decode (encode i)` is i, and no two words decode alike. -/
def Obligations.DecodeIsTheInverseOfEncode : Prop :=
  ∀ (w : Word) (i : Instr), decode w = .ok i ↔ w = encode i

/-- R105: which words are legal, and what the completion of an illegal one does (40_control.md R134, 60_exceptions.md R214). That
an empty list of turns is the core's step is the model's (log 1). -/
def Obligations.IllegalWordsRaiseIllegalCmd : Prop :=
  ∀ w : Word,
    ((∃ i, decode w = .ok i) ↔
      (w.extractLsb' 0 8).toNat ∈ [0x00, 0x01, 0x10, 0x11, 0x12, 0x20, 0x21, 0x30, 0x31, 0x40, 0x41, 0x42, 0x43,
        0x50, 0x60, 0x61] ∧
      w.extractLsb' 17 15 = 0 ∧
      (w.extractLsb' 8 8 = 0 ∨ w.extractLsb' 0 8 = 0x12#8 ∨ w.extractLsb' 0 8 = 0x41#8) ∧
      (w.getLsbD 16 = false ∨ w.extractLsb' 0 8 = 0x41#8 ∨ w.extractLsb' 0 8 = 0x42#8)) ∧
    ((∃ i, decode w = .ok i) ↔ (fieldsOf w).wellFormed = true) ∧
    ∀ s : State, s.busy = true → s.cmdLast = w → (¬ ∃ i, decode w = .ok i) →
      (s.turns = [] → step s = .next (failedState s (w.extractLsb' 0 8) 0x01#8 w)) ∧
      ∀ rest, s.turns = .core :: rest →
        step s = .next (failedState { s with turns := rest } (w.extractLsb' 0 8) 0x01#8 w)

/-! ### Steps of the two agents -/

/-- 40_control.md R134, R136, 60_exceptions.md R228: while BUSY, the core's step runs the command CMD_LAST decodes to, on the
state without that turn; while idle, it keeps all state. That an empty list of turns is the core's step is the
model's (log 1), and the last clause is the model's own way to place a command (log 2). -/
def Obligations.StepRunsTheDecodedCommand : Prop :=
  ∀ (s : State) (i : Instr),
    (s.busy = false →
      (s.turns = [] → step s = .next s) ∧ ∀ rest, s.turns = .core :: rest → step s = .next { s with turns := rest }) ∧
    (s.busy = true → decode s.cmdLast = .ok i →
      (s.turns = [] → step s = exec i s) ∧
      ∀ rest, s.turns = .core :: rest → step s = exec i { s with turns := rest }) ∧
    step (s.withFetchWord 32 (encode i).toNat) =
      exec i { s with cmdLast := encode i, busy := true, done := false }

/-- R131, R132: a CMD write while idle is accepted, whatever the word, and nothing else changes; while BUSY it is dropped and
sets OVERRUN. -/
def Obligations.CmdWriteIsAcceptedOrDropped : Prop :=
  ∀ (s : State) (addr w : Word) (rest : List Turn), s.turns = .regWrite addr w :: rest → addressesReg s addr 0x04 →
    (s.busy = false → step s = .next { s with turns := rest, cmdLast := w, busy := true, done := false }) ∧
    (s.busy = true → step s = .next { s with turns := rest, overrun := true })

/-- R133: window and pointer register writes while BUSY are dropped and set OVERRUN; IRQ_EN, ACK and the selectors are
written even then; read-only and unmapped offsets ignore a write whether or not BUSY. -/
def Obligations.RegisterWritesWhileBusy : Prop :=
  ∀ (s : State) (addr v : Word) (rest : List Turn) (o : Nat), s.turns = .regWrite addr v :: rest → addressesReg s addr o →
    (s.busy = true → o ∈ [0x1C, 0x20, 0x24, 0x28, 0x2C, 0x30] →
      step s = .next { s with turns := rest, overrun := true }) ∧
    (s.busy = true → o = 0x14 → step s = .next { s with turns := rest, doneIe := v.getLsbD 0 }) ∧
    (s.busy = true → o = 0x18 → step s = .next { s with
      turns := rest, done := s.done && !v.getLsbD 0, overrun := s.overrun && !v.getLsbD 1 }) ∧
    (s.busy = true → o = 0x3C → step s = .next { s with turns := rest, histSel := v.extractLsb' 0 8 }) ∧
    (s.busy = true → o = 0x44 → step s = .next { s with turns := rest, nodeSel := v.extractLsb' 0 9 }) ∧
    (s.busy = true → o = 0x58 → step s = .next { s with turns := rest, codeSel := v.extractLsb' 0 8 }) ∧
    (o < 256 → o % 4 = 0 → o ∉ [0x04, 0x14, 0x18, 0x1C, 0x20, 0x24, 0x28, 0x2C, 0x30, 0x3C, 0x44, 0x58] →
      step s = .next { s with turns := rest })

/-- 10_state.md R22, R29, R31 to R36, R39, R41, R46: a write of a read-write register while idle changes that register and nothing
else, and, read back, gives the bits of its fields and 0 elsewhere. -/
def Obligations.RegisterWriteIsReadBackWhileIdle : Prop :=
  ∀ (s : State) (addr v : Word) (rest : List Turn) (o : Nat),
    s.turns = .regWrite addr v :: rest → addressesReg s addr o → s.busy = false →
    (o = 0x14 → step s = .next { s with turns := rest, doneIe := v.getLsbD 0 }) ∧
    (o = 0x1C → step s = .next { s with turns := rest, srcBase := v }) ∧
    (o = 0x20 → step s = .next { s with turns := rest, srcLen := v }) ∧
    (o = 0x24 → step s = .next { s with turns := rest, dstBase := v }) ∧
    (o = 0x28 → step s = .next { s with turns := rest, dstCap := v }) ∧
    (o = 0x2C → step s = .next { s with turns := rest, inPtr := v }) ∧
    (o = 0x30 → step s = .next { s with turns := rest, outPtr := v }) ∧
    (o = 0x3C → step s = .next { s with turns := rest, histSel := v.extractLsb' 0 8 }) ∧
    (o = 0x44 → step s = .next { s with turns := rest, nodeSel := v.extractLsb' 0 9 }) ∧
    (o = 0x58 → step s = .next { s with turns := rest, codeSel := v.extractLsb' 0 8 }) ∧
    ∀ mask : Word, (o, mask) ∈ [(0x14, 0x1#32), (0x1C, 0xFFFFFFFF#32), (0x20, 0xFFFFFFFF#32), (0x24, 0xFFFFFFFF#32),
      (0x28, 0xFFFFFFFF#32), (0x2C, 0xFFFFFFFF#32), (0x30, 0xFFFFFFFF#32), (0x3C, 0xFF#32), (0x44, 0x1FF#32),
      (0x58, 0xFF#32)] →
      ∃ t, step s = .next t ∧ regValue t o = v &&& mask

/-- R30: what a write to ACK clears; it reads 0. -/
def Obligations.AckClearsDoneAndOverrun : Prop :=
  ∀ (s : State) (addr v : Word) (rest : List Turn), s.turns = .regWrite addr v :: rest → addressesReg s addr 0x18 →
    step s = .next { s with
      turns := rest,
      done := if v.getLsbD 0 then false else s.done,
      overrun := if v.getLsbD 1 then false else s.overrun } ∧
    regValue s 0x18 = 0#32

/-- R22, 40_control.md R139: a register read returns the value of the register (where it goes is the model's, log 3) and changes
nothing in the core; a read or a write at an address outside the window is no access of this core (the stop is
the model's, log 5). -/
def Obligations.RegisterReadHasNoSideEffect : Prop :=
  ∀ (s : State) (addr : Word) (rest : List Turn),
    (s.turns = .regRead addr :: rest →
      (∀ o < 256, o % 4 = 0 → addressesReg s addr o →
        step s = .next { s with turns := rest, readData := regValue s o }) ∧
      (256 ≤ (addr - s.regBase).toNat → step s = .fault (.registerWindowMissed addr))) ∧
    ∀ v, s.turns = .regWrite addr v :: rest → 256 ≤ (addr - s.regBase).toNat →
      step s = .fault (.registerWindowMissed addr)

/-- R23 to R25, R27 to R47, R49 to R52: the value every offset reads but for STATUS (StatusBitsAreTheFlags) and CODE_LENS
(CodeLensAreTheExtremeLengths), and 0 at every offset of no register. TOTAL and NNODES are stated where they fit their fields,
as R53 and R54 say they always do. -/
def Obligations.RegisterMapReadsTheState : Prop :=
  ∀ s : State,
    regValue s 0x00 = 0x1FA00001#32 ∧ regValue s 0x04 = s.cmdLast ∧
    (regValue s 0x0C).toNat = s.errCode.toNat + 256 * s.errStage.toNat ∧ regValue s 0x10 = s.errInfo ∧
    (regValue s 0x14).toNat = s.doneIe.toNat ∧ regValue s 0x18 = 0#32 ∧
    regValue s 0x1C = s.srcBase ∧ regValue s 0x20 = s.srcLen ∧ regValue s 0x24 = s.dstBase ∧
    regValue s 0x28 = s.dstCap ∧ regValue s 0x2C = s.inPtr ∧ regValue s 0x30 = s.outPtr ∧
    (histTotal s.hist ≤ 4294967295 → (regValue s 0x34).toNat = histTotal s.hist) ∧
    (regValue s 0x38).toNat = (countedSymbols s.hist).length ∧
    (regValue s 0x3C).toNat = s.histSel.toNat ∧ (regValue s 0x44).toNat = s.nodeSel.toNat ∧
    (regValue s 0x58).toNat = s.codeSel.toNat ∧
    regValue s 0x40 = tableGet s.hist s.histSel ∧
    (s.nodes.length ≤ s.nodeSel.toNat → regValue s 0x48 = 0#32 ∧ regValue s 0x4C = 0#32) ∧
    (∀ sym w, s.nodes[s.nodeSel.toNat]? = some (.leaf sym w) →
      (regValue s 0x48).toNat = 2 ^ 31 + sym.toNat ∧ regValue s 0x4C = w) ∧
    (∀ w l r, s.nodes[s.nodeSel.toNat]? = some (.internal w l r) →
      (regValue s 0x48).toNat = 2 ^ 31 + 2 ^ 30 + 512 * r.toNat + l.toNat ∧ regValue s 0x4C = w) ∧
    (regValue s 0x50).toNat = s.root.toNat ∧
    (s.nodes.length ≤ 511 → (regValue s 0x54).toNat = s.nodes.length) ∧
    regValue s 0x5C = codeWord (tableGet s.ct s.codeSel) ∧
    (regValue s 0x64).toNat = s.pwByte.toNat + 256 * s.pwCur.toNat ∧
    regValue s 0x68 = s.pwSyms ∧ regValue s 0x6C = s.decSyms ∧ regValue s 0x70 = s.decPbytes ∧
    ∀ o, 0x70 < o → regValue s o = 0#32

/-- 10_state.md R48: CODE_LENS holds the least and the greatest length of a code that is not empty, 0 when there is none. -/
def Obligations.CodeLensAreTheExtremeLengths : Prop :=
  ∀ s : State, (∀ sym, (tableGet s.ct sym).length ≤ 23) →
    ((∀ sym, tableGet s.ct sym = []) → regValue s 0x60 = 0#32) ∧
    ((∃ sym, tableGet s.ct sym ≠ []) → ∃ lo hi : Nat,
      (regValue s 0x60).toNat = lo + 256 * hi ∧
      (∃ sym, tableGet s.ct sym ≠ [] ∧ (tableGet s.ct sym).length = lo) ∧
      (∃ sym, tableGet s.ct sym ≠ [] ∧ (tableGet s.ct sym).length = hi) ∧
      ∀ sym, tableGet s.ct sym ≠ [] → lo ≤ (tableGet s.ct sym).length ∧ (tableGet s.ct sym).length ≤ hi)

/-- 10_state.md R26: the bits of STATUS, ERROR derived from ERR.CODE, the rest 0. -/
def Obligations.StatusBitsAreTheFlags : Prop :=
  ∀ s : State,
    (regValue s 0x08).getLsbD 0 = s.busy ∧ (regValue s 0x08).getLsbD 1 = s.done ∧
    ((regValue s 0x08).getLsbD 2 = true ↔ s.errCode ≠ 0#8) ∧ (regValue s 0x08).getLsbD 3 = s.overrun ∧
    (regValue s 0x08).getLsbD 4 = s.treeValid ∧ (regValue s 0x08).getLsbD 5 = s.codesValid ∧
    (regValue s 0x08).getLsbD 6 = s.hdrValid ∧ ∀ k, 7 ≤ k → (regValue s 0x08).getLsbD k = false

/-- 60_exceptions.md R217: the interrupt level; a completion raises it when enabled, and nothing else sets DONE; ACK bit 0 and
the acceptance of a command clear it, clearing DONE; DONE_IE = 0 drops it without clearing DONE; it is 0
after reset. -/
def Obligations.InterruptLevel : Prop :=
  irq State.reset = false ∧
  ∀ s : State,
    (irq s = true ↔ s.done = true ∧ s.doneIe = true) ∧
    (∀ i t, exec i s = .next t → irq t = s.doneIe) ∧
    (∀ t, step s = .next t → s.done = false → t.done = true →
      s.busy = true ∧ (s.turns = [] ∨ ∃ rest, s.turns = .core :: rest)) ∧
    ∀ (addr v : Word) (rest : List Turn), s.turns = .regWrite addr v :: rest →
      (addressesReg s addr 0x18 → v.getLsbD 0 = true → ∃ t, step s = .next t ∧ t.done = false ∧ irq t = false) ∧
      (addressesReg s addr 0x04 → s.busy = false → ∃ t, step s = .next t ∧ t.done = false ∧ irq t = false) ∧
      (addressesReg s addr 0x14 → v.getLsbD 0 = false → ∃ t, step s = .next t ∧ t.done = s.done ∧ irq t = false) ∧
      (addressesReg s addr 0x14 → v.getLsbD 0 = true → ∃ t, step s = .next t ∧ t.done = s.done ∧ irq t = s.done)

/-- 20_memory.md R87: while BUSY the host must not write the SRC or the DST window nor read the DST window, and a model treats
such an access as a fault; other accesses to memory are unrestricted, a read giving the byte last written there (R83).
That the fault holds for every accepted command is read from R87 (log 8); that the byte read goes zero-extended
to State.readData is the model's (log 3). -/
def Obligations.HostWindowAccessWhileBusyFaults : Prop :=
  ∀ (s : State) (addr : Word) (rest : List Turn), memBacked s addr.toNat = true →
    (s.turns = .memRead addr :: rest →
      (s.busy = true ∧ inWindow s.dstBase s.dstCap addr.toNat = true →
        step s = .fault (.hostWindowAccessWhileBusy addr)) ∧
      (¬ (s.busy = true ∧ inWindow s.dstBase s.dstCap addr.toNat = true) →
        step s = .next { s with turns := rest, readData := (readByte s.mem addr.toNat).setWidth 32 })) ∧
    ∀ v, s.turns = .memWrite addr v :: rest →
      (s.busy = true ∧ (inWindow s.srcBase s.srcLen addr.toNat = true ∨ inWindow s.dstBase s.dstCap addr.toNat = true) →
        step s = .fault (.hostWindowAccessWhileBusy addr)) ∧
      (¬ (s.busy = true ∧ (inWindow s.srcBase s.srcLen addr.toNat = true ∨
          inWindow s.dstBase s.dstCap addr.toNat = true)) →
        ∃ t, step s = .next t ∧ t = { s with turns := rest, mem := t.mem } ∧ readByte t.mem addr.toNat = v ∧
          ∀ a, a ≠ addr.toNat → readByte t.mem a = readByte s.mem a)

/-- A host byte access to an address with no memory behind it faults, in or out of a window, BUSY or not. That this stops the run
is the model's (log 7); 20_memory.md R74 says only what a command does there. -/
def Obligations.HostAccessWithoutMemoryFaults : Prop :=
  ∀ (s : State) (addr : Word) (rest : List Turn), memBacked s addr.toNat = false →
    (s.turns = .memRead addr :: rest → step s = .fault (.hostAccessUnbacked addr)) ∧
    ∀ v, s.turns = .memWrite addr v :: rest → step s = .fault (.hostAccessUnbacked addr)

/-- 70_reset_and_hazards.md R240: what every register and array is after reset, and that a command is accepted at once. -/
def Obligations.ResetStateOfEveryRegister : Prop :=
  regValue State.reset 0x00 = 0x1FA00001#32 ∧
  (∀ o, o ≠ 0x00 → regValue State.reset o = 0#32) ∧
  (∀ sel, regValue { State.reset with histSel := sel } 0x40 = 0#32) ∧
  (∀ sel, regValue { State.reset with codeSel := sel } 0x5C = 0#32) ∧
  (∀ sel, regValue { State.reset with nodeSel := sel } 0x48 = 0#32) ∧
  State.reset.busy = false ∧ irq State.reset = false

/-- R240, R241: a hardware reset, also while BUSY, gives every register its reset value, discards a running command without a
completion and leaves memory as it was. That the platform's parameters, the steps still to come and the
host's last read stay is the model's (log 13). -/
def Obligations.HardwareResetKeepsOnlyMemory : Prop :=
  ∀ (s : State) (rest : List Turn), s.turns = .reset :: rest →
    ∃ t, step s = .next t ∧ t.mem = s.mem ∧ t.unbacked = s.unbacked ∧ t.regBase = s.regBase ∧ t.turns = rest ∧
      t.readData = s.readData ∧
      t.busy = false ∧ t.done = false ∧ irq t = false ∧
      regValue t 0x00 = 0x1FA00001#32 ∧ (∀ o, o ≠ 0x00 → regValue t o = 0#32) ∧
      (∀ sym, tableGet t.hist sym = 0#32) ∧ t.nodes = [] ∧ ∀ sym, tableGet t.ct sym = []

/-! ### Completions in general -/

/-- 40_control.md R134, R136: every command rule is total, and its completion clears BUSY and sets DONE; a success writes 0 to
ERR and ERR_INFO. -/
def Obligations.EveryCommandCompletes : Prop :=
  ∀ (i : Instr) (s : State), ∃ t, exec i s = .next t ∧ t.busy = false ∧ t.done = true ∧
    (t.errCode = 0#8 → t.errStage = 0#8 ∧ t.errInfo = 0#32)

/-- 60_exceptions.md R214, 00_scope.md R14: a failed command changes only the completion bookkeeping. R211, R212: its code is one
of the eighteen, and its stage is the command's own opcode, or for a composite its own or that of one of its steps. -/
def Obligations.FailedCommandChangesOnlyBookkeeping : Prop :=
  ∀ (i : Instr) (s t : State), exec i s = .next t → t.errCode ≠ 0#8 →
    t = { s with busy := false, done := true, errCode := t.errCode, errStage := t.errStage, errInfo := t.errInfo } ∧
    statusError t = true ∧
    t.errCode.toNat ≤ 0x12 ∧
    (i ≠ .encode → i ≠ .decode → t.errStage = (encode i).extractLsb' 0 8) ∧
    (i = .encode → t.errStage.toNat ∈ [0x60, 0x11, 0x20, 0x21, 0x30, 0x40, 0x42]) ∧
    (i = .decode → t.errStage.toNat ∈ [0x61, 0x31, 0x50])

/-- 60_exceptions.md R211 E_SEQUENCE, R213 (2): a command that misses a validity flag raises E_SEQUENCE before any window check. -/
def Obligations.MissingFlagsRaiseSequence : Prop :=
  ∀ (i : Instr) (s : State), missingFlags i s ≠ 0#32 →
    fails i s ((encode i).extractLsb' 0 8) 0x02#8 (missingFlags i s)

/-- 20_memory.md R73 to R76: the window checks of every command that uses a window, in their order, with the lowest unbacked
address; ENCODE of an empty input makes none. Each of the three errors is reported only where its check fails. -/
def Obligations.WindowErrorsInOrder : Prop :=
  ∀ (i : Instr) (s : State), missingFlags i s = 0#32 → (i = .encode → s.srcLen ≠ 0#32) →
    (usesSrc i = true → ¬ windowInSpace s.srcBase s.srcLen →
      fails i s ((encode i).extractLsb' 0 8) 0x03#8 0#32) ∧
    (usesDst i = true → (usesSrc i = true → windowInSpace s.srcBase s.srcLen) → ¬ windowInSpace s.dstBase s.dstCap →
      fails i s ((encode i).extractLsb' 0 8) 0x03#8 1#32) ∧
    (∀ a, usesSrc i = true → windowInSpace s.srcBase s.srcLen → (usesDst i = true → windowInSpace s.dstBase s.dstCap) →
      lowestUnbackedIn s s.srcBase s.srcLen a →
      fails i s ((encode i).extractLsb' 0 8) 0x04#8 (BitVec.ofNat 32 a)) ∧
    (∀ a, usesDst i = true → windowInSpace s.dstBase s.dstCap → (usesSrc i = true → srcUsable s) →
      lowestUnbackedIn s s.dstBase s.dstCap a →
      fails i s ((encode i).extractLsb' 0 8) 0x04#8 (BitVec.ofNat 32 a)) ∧
    (usesSrc i = true → usesDst i = true → srcUsable s → dstUsable s → ¬ windowsApart s →
      fails i s ((encode i).extractLsb' 0 8) 0x05#8 0#32) ∧
    ∀ t, exec i s = .next t →
      (t.errCode = 0x03#8 → (usesSrc i = true ∧ ¬ windowInSpace s.srcBase s.srcLen) ∨
        (usesDst i = true ∧ ¬ windowInSpace s.dstBase s.dstCap)) ∧
      (t.errCode = 0x04#8 → (usesSrc i = true ∧ ¬ windowBacked s s.srcBase s.srcLen) ∨
        (usesDst i = true ∧ ¬ windowBacked s s.dstBase s.dstCap)) ∧
      (t.errCode = 0x05#8 → usesSrc i = true ∧ usesDst i = true ∧ ¬ windowsApart s)

/-- 20_memory.md R72: no command writes a byte outside the DST window, and a command that does not use it writes no byte. -/
def Obligations.CommandsWriteOnlyTheDstWindow : Prop :=
  ∀ (i : Instr) (s t : State), exec i s = .next t →
    (usesDst i = false → t.mem = s.mem) ∧
    ∀ a, ¬ (s.dstBase.toNat ≤ a ∧ a < s.dstBase.toNat + s.dstCap.toNat) → readByte t.mem a = readByte s.mem a

/-- 30_encoding.md R108: what each command leaves unchanged besides memory: the registers and arrays its row does not list
under "writes". -/
def Obligations.CommandsChangeOnlyWhatTheyWrite : Prop :=
  ∀ (i : Instr) (s t : State), exec i s = .next t →
    sameProgramming s t ∧
    (i ∉ [.sreset, .histClear, .histAccum, .encode] → (∀ sym, i ≠ .histByte sym) → t.hist = s.hist) ∧
    (i ∉ [.sreset, .treeBuild, .encode] → sameArena s t) ∧
    (i ∉ [.sreset, .codeAssign, .hdrRead, .encode, .decode] → t.ct = s.ct) ∧
    (i ∉ [.sreset, .packReset, .packBlock true, .packBlock false, .packFlush, .encode] →
      (∀ sym last, i ≠ .packSym sym last) → sameWriter s t) ∧
    (i = .packFlush → t.pwSyms = s.pwSyms) ∧
    (i ∉ [.sreset, .hdrRead, .decode] → sameDecodeSide s t) ∧
    (i ∉ [.sreset, .hdrWrite, .packBlock true, .packBlock false, .packFlush, .unpack, .encode, .decode] →
      (∀ sym last, i ≠ .packSym sym last) → t.outPtr = s.outPtr) ∧
    (i ∉ [.sreset, .histClear, .histAccum, .treeBuild, .codeAssign, .hdrRead, .encode, .decode] →
      (∀ sym, i ≠ .histByte sym) → sameFlags s t) ∧
    (i ∉ [.sreset, .hdrRead, .decode] → t.hdrValid = s.hdrValid)

/-- 40_control.md R135: an accepted command completes after finitely many host steps. In the model the host's steps are those
of State.turns (log 1): if that many steps and one more run without a stop, and no reset input (R241) is among
them, the command is accepted until some step that completes it, with BUSY 0, DONE 1 and its word still in CMD_LAST. -/
def Obligations.AcceptedCommandCompletes : Prop :=
  ∀ (s u : State), s.busy = true → .reset ∉ s.turns → Sys2Proof.core.run (s.turns.length + 1) s = .next u →
    ∃ k, k ≤ s.turns.length + 1 ∧
      (∀ j < k, ∃ w : State, Sys2Proof.core.run j s = .next w ∧ w.busy = true ∧ w.cmdLast = s.cmdLast) ∧
      ∃ v : State, Sys2Proof.core.run k s = .next v ∧ v.busy = false ∧ v.done = true ∧ v.cmdLast = s.cmdLast

/-! ### Control and histogram -/

/-- 40_control.md R137: NOP completes and changes nothing else. -/
def Obligations.NopOnlyCompletes : Prop :=
  encode .nop = 0x00000000#32 ∧ ∀ s : State, exec .nop s = .next (doneState s)

/-- R138: SRESET restores the internal state and keeps the host's programming; every derived register then reads 0. -/
def Obligations.SresetRestoresInternalState : Prop :=
  encode .sreset = 0x00000001#32 ∧
  ∀ s : State, ∃ t, exec .sreset s = .next t ∧
    t = doneState { s with
      hist := State.reset.hist, ct := State.reset.ct, nodes := [], root := 0#9,
      pwByte := 0#8, pwCur := 0#3, pwSyms := 0#32, decSyms := 0#32, decPbytes := 0#32,
      inPtr := 0#32, outPtr := 0#32, treeValid := false, codesValid := false, hdrValid := false } ∧
    (∀ o ∈ [0x34, 0x38, 0x40, 0x48, 0x4C, 0x54, 0x5C, 0x60], regValue t o = 0#32) ∧
    regValue t 0x08 = (if s.overrun then 0x0000000A#32 else 0x00000002#32)

/-- 41_histogram.md R140: HIST_CLEAR zeroes every count and clears TREE_VALID and CODES_VALID, and only that. -/
def Obligations.HistClearZeroesCounts : Prop :=
  encode .histClear = 0x00000010#32 ∧
  ∀ s : State, ∃ t, exec .histClear s = .next t ∧
    t = doneState { s with hist := t.hist, treeValid := false, codesValid := false } ∧
    (∀ sym, tableGet t.hist sym = 0#32) ∧ regValue t 0x34 = 0#32 ∧ regValue t 0x38 = 0#32

/-- R142: HIST_BYTE counts one occurrence of its symbol and clears the two flags; at TOTAL = 2^32 - 1 it raises
E_COUNT_OVERFLOW. -/
def Obligations.HistByteCountsOne : Prop :=
  ∀ (sym : Byte) (s : State),
    (histTotal s.hist < 4294967295 → ∃ t, exec (.histByte sym) s = .next t ∧
      t = doneState { s with hist := t.hist, treeValid := false, codesValid := false } ∧
      (∀ b, (tableGet t.hist b).toNat = (tableGet s.hist b).toNat + if b = sym then 1 else 0) ∧
      histTotal t.hist = histTotal s.hist + 1) ∧
    (histTotal s.hist = 4294967295 → fails (.histByte sym) s 0x12#8 0x06#8 0#32)

/-- R141: HIST_ACCUM adds the number of occurrences of each symbol in the SRC window, clears the two flags, and changes nothing
else; a count that would pass 2^32 - 1 raises E_COUNT_OVERFLOW after the window checks. -/
def Obligations.HistAccumCountsTheWindow : Prop :=
  ∀ s : State, srcUsable s →
    (histTotal s.hist + s.srcLen.toNat ≤ 4294967295 → ∃ t, exec .histAccum s = .next t ∧
      t = doneState { s with hist := t.hist, treeValid := false, codesValid := false } ∧
      (∀ sym, (tableGet t.hist sym).toNat = (tableGet s.hist sym).toNat + srcCount s sym) ∧
      histTotal t.hist = histTotal s.hist + s.srcLen.toNat) ∧
    (4294967295 < histTotal s.hist + s.srcLen.toNat → fails .histAccum s 0x11#8 0x06#8 0#32)

/-! ### Tree and codes -/

/-- 42_tree.md R150 to R153: TREE_BUILD over n symbols with a count leaves an arena of 2n - 1 slots, the leaves in ascending
symbol order first, then one merge of the two least (weight, index) per slot, the root last with weight TOTAL; an
empty histogram raises E_EMPTY. -/
def Obligations.TreeBuildMergesTheLeastPairs : Prop :=
  ∀ s : State, histTotal s.hist ≤ 4294967295 →
    (countedSymbols s.hist = [] → fails .treeBuild s 0x20#8 0x07#8 0#32) ∧
    (countedSymbols s.hist ≠ [] → ∃ t, exec .treeBuild s = .next t ∧
      t = doneState { s with nodes := t.nodes, root := t.root, treeValid := true, codesValid := false } ∧
      t.nodes.length = 2 * (countedSymbols s.hist).length - 1 ∧
      (∀ i, ∀ h : i < (countedSymbols s.hist).length,
        t.nodes[i]? = some (.leaf (countedSymbols s.hist)[i] (tableGet s.hist (countedSymbols s.hist)[i]))) ∧
      (∀ k, (countedSymbols s.hist).length ≤ k → k < t.nodes.length → isLeastMerge t.nodes k) ∧
      t.root.toNat = t.nodes.length - 1 ∧
      weightAt t.nodes t.root.toNat = histTotal s.hist)

/-- R153: in the arena TREE_BUILD leaves, every child index is smaller than its parent's, and every slot but the root is a child
of exactly one internal node. -/
def Obligations.TreeNodesHaveOneParent : Prop :=
  ∀ s t : State, runsOk .treeBuild s t →
    (∀ i k, childOf t.nodes i k → i < k) ∧
    (∀ i, i < t.nodes.length → i ≠ t.root.toNat → ∃ k, childOf t.nodes i k ∧ ∀ j, childOf t.nodes i j → j = k) ∧
    (∀ (k : Nat) (w : Word) (l r : BitVec 9), t.nodes[k]? = some (.internal w l r) → l ≠ r) ∧
    ∀ k, ¬ childOf t.nodes t.root.toNat k

/-- 43_codes.md R160, R161: CODE_ASSIGN gives each symbol of a tree with two leaves or more its root-to-leaf path, and every
other symbol no code. -/
def Obligations.CodeAssignGivesTheLeafPaths : Prop :=
  ∀ s : State, Inv s → s.treeValid = true → 2 ≤ (countedSymbols s.hist).length →
    (∀ sym path, leadsToLeaf s.nodes s.root.toNat path sym → path.length ≤ 23) →
    ∃ t, exec .codeAssign s = .next t ∧
      t = doneState { s with ct := t.ct, codesValid := true } ∧
      (∀ sym, tableGet s.hist sym ≠ 0#32 → leadsToLeaf s.nodes s.root.toNat (tableGet t.ct sym) sym) ∧
      (∀ sym path, leadsToLeaf s.nodes s.root.toNat path sym → path = tableGet t.ct sym) ∧
      ∀ sym, tableGet s.hist sym = 0#32 → tableGet t.ct sym = []

/-- R162: when the root is a leaf its symbol gets the code "0", and no other symbol has a code. -/
def Obligations.SingleSymbolGetsCodeZero : Prop :=
  ∀ (s : State) (sym : Byte) (w : Word), s.treeValid = true → s.nodes[s.root.toNat]? = some (.leaf sym w) →
    ∃ t, exec .codeAssign s = .next t ∧ t = doneState { s with ct := t.ct, codesValid := true } ∧
      tableGet t.ct sym = [false] ∧ ∀ b, b ≠ sym → tableGet t.ct b = []

/-- R163: a path longer than 23 bits raises E_CODE_TOO_LONG with its length and the smallest such symbol. -/
def Obligations.LongCodesRaiseCodeTooLong : Prop :=
  ∀ (s : State) (sym : Byte) (path : Bits), Inv s → s.treeValid = true →
    leadsToLeaf s.nodes s.root.toNat path sym → 23 < path.length →
    (∀ b p, leadsToLeaf s.nodes s.root.toNat p b → 23 < p.length → sym.toNat ≤ b.toNat) →
    fails .codeAssign s 0x21#8 0x08#8 (BitVec.ofNat 32 (path.length * 256 + sym.toNat))

/-- R164: the table CODE_ASSIGN leaves has codes of length 1 to 23, for exactly the symbols with a count, and is
prefix-free. -/
def Obligations.AssignedCodesArePrefixFree : Prop :=
  ∀ s t : State, Inv s → runsOk .codeAssign s t →
    prefixFree t.ct ∧ ∀ sym, (tableGet t.ct sym ≠ [] ↔ tableGet s.hist sym ≠ 0#32) ∧
      (tableGet t.ct sym).length ≤ 23

/-- R164: with two symbols or more the code is complete: the code lengths meet Kraft's equality, in units of 2^(-23). -/
def Obligations.AssignedCodesAreComplete : Prop :=
  ∀ s t : State, Inv s → runsOk .codeAssign s t → 2 ≤ (countedSymbols s.hist).length →
    ((codedSymbols t.ct).map fun sym => 2 ^ (23 - (tableGet t.ct sym).length)).sum = 2 ^ 23

/-! ### Code words, header -/

/-- 30_encoding.md R117, 46_container.md R192: the layout of the packed code word of a code of up to 23 bits; reading it back, also
with its unused bits set, gives the code. -/
def Obligations.CodeWordLayoutAndReadBack : Prop :=
  ∀ code : Bits, code.length ≤ 23 →
    (codeWord code).extractLsb' 24 8 = BitVec.ofNat 8 code.length ∧
    (∀ j, ∀ h : j < code.length, (codeWord code).getLsbD (code.length - j) = code[j]) ∧
    (codeWord code).getLsbD 0 = false ∧
    (∀ k, code.length < k → k < 24 → (codeWord code).getLsbD k = false) ∧
    ∀ w : Word, w.extractLsb' 24 8 = BitVec.ofNat 8 code.length →
      (∀ j, 1 ≤ j → j ≤ code.length → w.getLsbD j = (codeWord code).getLsbD j) →
      wordLen w = code.length ∧ wordCode w = code

/-- 46_container.md R190, 30_encoding.md R112 to R119: HDR_WRITE writes the header of the table at DST offset 0, field by field,
leaves OUT_PTR at 14 + 5N, and changes nothing else. -/
def Obligations.HdrWriteWritesTheHeader : Prop :=
  ∀ s : State, s.codesValid = true → dstUsable s →
    (∀ sym, tableGet s.hist sym ≠ 0#32 → tableGet s.ct sym ≠ []) →
    (histCodeBits s + 7) / 8 ≤ 4294967295 → histTotal s.hist ≤ 4294967295 →
    14 + 5 * (codedSymbols s.ct).length ≤ s.dstCap.toNat →
    ∃ t, exec .hdrWrite s = .next t ∧ t = doneState { s with mem := t.mem, outPtr := t.outPtr } ∧
      t.outPtr.toNat = 14 + 5 * (codedSymbols s.ct).length ∧
      dstByte t 0 = 0x1F#8 ∧ dstByte t 1 = 0xA0#8 ∧ dstWord t 2 = (codedSymbols s.ct).length ∧
      (∀ i, ∀ h : i < (codedSymbols s.ct).length,
        dstByte t (6 + 5 * i) = (codedSymbols s.ct)[i] ∧
        dstWord t (7 + 5 * i) = (codeWord (tableGet s.ct (codedSymbols s.ct)[i])).toNat) ∧
      dstWord t (6 + 5 * (codedSymbols s.ct).length) = histTotal s.hist ∧
      dstWord t (10 + 5 * (codedSymbols s.ct).length) = (histCodeBits s + 7) / 8 ∧
      sameBytesOutside s t 0 (14 + 5 * (codedSymbols s.ct).length)

/-- R190, R213: the errors of HDR_WRITE after its window check, in their order. -/
def Obligations.HdrWriteErrors : Prop :=
  ∀ s : State, s.codesValid = true → dstUsable s →
    (∀ sym, tableGet s.hist sym ≠ 0#32 → tableGet s.ct sym = [] →
      (∀ b, b.toNat < sym.toNat → tableGet s.hist b ≠ 0#32 → tableGet s.ct b ≠ []) →
      fails .hdrWrite s 0x30#8 0x09#8 (BitVec.ofNat 32 sym.toNat)) ∧
    ((∀ sym, tableGet s.hist sym ≠ 0#32 → tableGet s.ct sym ≠ []) →
      (4294967295 < (histCodeBits s + 7) / 8 → fails .hdrWrite s 0x30#8 0x06#8 0#32) ∧
      ((histCodeBits s + 7) / 8 ≤ 4294967295 → s.dstCap.toNat < 14 + 5 * (codedSymbols s.ct).length →
        fails .hdrWrite s 0x30#8 0x0A#8 (BitVec.ofNat 32 (14 + 5 * (codedSymbols s.ct).length))))

/-- 46_container.md R191 to R193: HDR_READ of a header that passes its checks takes the table, the counts and the payload offset
from it, sets the flags, and changes nothing else. -/
def Obligations.HdrReadAcceptsAGoodHeader : Prop :=
  ∀ (s : State) (entries : List (Byte × Bits)) (symbolCount payload : Nat),
    srcUsable s → srcHeader s entries symbolCount payload →
    ∃ t, exec .hdrRead s = .next t ∧
      t = doneState { s with
        ct := t.ct, decSyms := BitVec.ofNat 32 symbolCount, decPbytes := BitVec.ofNat 32 payload,
        inPtr := BitVec.ofNat 32 (14 + 5 * entries.length),
        treeValid := false, codesValid := true, hdrValid := true } ∧
      tableIs t.ct entries

/-- R191, R213: the errors of HDR_READ but for those of its entries, in their order, with the bytes needed or found; the last,
a payload past the SRC window, after entries that are all good. -/
def Obligations.HdrReadRejectsABadHeader : Prop :=
  ∀ s : State, srcUsable s →
    let n := srcWord s 2
    let good := srcByte s 0 = 0x1F#8 ∧ srcByte s 1 = 0xA0#8
    (s.srcLen.toNat < 2 → fails .hdrRead s 0x31#8 0x0C#8 2#32) ∧
    (2 ≤ s.srcLen.toNat → ¬ good →
      fails .hdrRead s 0x31#8 0x0B#8 (BitVec.ofNat 32 ((srcByte s 0).toNat * 256 + (srcByte s 1).toNat))) ∧
    (2 ≤ s.srcLen.toNat → good → s.srcLen.toNat < 6 → fails .hdrRead s 0x31#8 0x0C#8 6#32) ∧
    (6 ≤ s.srcLen.toNat → good → n = 0 ∨ 256 < n → fails .hdrRead s 0x31#8 0x0D#8 (BitVec.ofNat 32 n)) ∧
    (6 ≤ s.srcLen.toNat → good → 1 ≤ n → n ≤ 256 → s.srcLen.toNat < 14 + 5 * n →
      fails .hdrRead s 0x31#8 0x0C#8 (BitVec.ofNat 32 (14 + 5 * n))) ∧
    ∀ (entries : List (Byte × Bits)) (symbolCount payload need : Nat), srcFields s entries symbolCount payload →
      14 + 5 * entries.length ≤ s.srcLen.toNat → need = 14 + 5 * entries.length + payload → s.srcLen.toNat < need →
      fails .hdrRead s 0x31#8 0x0C#8 (BitVec.ofNat 32 (min need 4294967295))

/-- R193: the error of the first entry that fails a check, with its index: a bad length, then a repeated symbol, then a code
that clashes with an earlier one. The entries before it are good. -/
def Obligations.HdrReadRejectsTheFirstBadEntry : Prop :=
  ∀ (s : State) (before : List (Byte × Bits)) (sym : Byte) (w : Word), srcUsable s →
    srcByte s 0 = 0x1F#8 → srcByte s 1 = 0xA0#8 → 1 ≤ srcWord s 2 → srcWord s 2 ≤ 256 →
    14 + 5 * srcWord s 2 ≤ s.srcLen.toNat → before.length < srcWord s 2 →
    (∀ i, ∀ h : i < before.length,
      srcByte s (6 + 5 * i) = before[i].1 ∧ wordCode (BitVec.ofNat 32 (srcWord s (7 + 5 * i))) = before[i].2 ∧
      wordLen (BitVec.ofNat 32 (srcWord s (7 + 5 * i))) = before[i].2.length ∧
      1 ≤ before[i].2.length ∧ before[i].2.length ≤ 23) →
    (before.Pairwise fun e f => e.1 ≠ f.1 ∧ ¬ (e.2 <+: f.2) ∧ ¬ (f.2 <+: e.2)) →
    srcByte s (6 + 5 * before.length) = sym → srcWord s (7 + 5 * before.length) = w.toNat →
    (wordLen w = 0 ∨ 23 < wordLen w → fails .hdrRead s 0x31#8 0x0E#8 (BitVec.ofNat 32 before.length)) ∧
    (1 ≤ wordLen w → wordLen w ≤ 23 → (∃ e ∈ before, e.1 = sym) →
      fails .hdrRead s 0x31#8 0x0F#8 (BitVec.ofNat 32 before.length)) ∧
    (1 ≤ wordLen w → wordLen w ≤ 23 → (∀ e ∈ before, e.1 ≠ sym) →
      (∃ e ∈ before, e.2 <+: wordCode w ∨ wordCode w <+: e.2) →
      fails .hdrRead s 0x31#8 0x10#8 (BitVec.ofNat 32 before.length))

/-- 46_container.md R195: HDR_READ of the bytes HDR_WRITE wrote, with the payload bytes after them, sets CT to the table
written. -/
def Obligations.TableRoundTrip : Prop :=
  ∀ (s t : State) (len : Word), tableUsable s.ct → histTotal s.hist ≤ 4294967295 → runsOk .hdrWrite s t →
    t.outPtr.toNat + (histCodeBits s + 7) / 8 ≤ len.toNat →
    srcUsable { t with srcBase := t.dstBase, srcLen := len } →
    ∃ u, exec .hdrRead { t with srcBase := t.dstBase, srcLen := len } = .next u ∧ succeeded u ∧ u.ct = s.ct ∧
      u.decSyms.toNat = histTotal s.hist ∧ u.decPbytes.toNat = (histCodeBits s + 7) / 8 ∧ u.inPtr = t.outPtr

/-! ### Packer and unpacker -/

/-- 44_packer.md R173: PACK_RESET clears the bit writer, discards the pending bits, and leaves OUT_PTR. -/
def Obligations.PackResetClearsTheWriter : Prop :=
  encode .packReset = 0x00000040#32 ∧
  ∀ s : State, exec .packReset s = .next (doneState { s with pwByte := 0#8, pwCur := 0#3, pwSyms := 0#32 })

/-- 44_packer.md R170 to R172, R174: PACK_SYM appends the code of its symbol to the stream at OUT_PTR, flushed when LAST is
set, and counts one symbol. -/
def Obligations.PackSymAppendsTheCode : Prop :=
  ∀ (s : State) (sym : Byte) (last : Bool), s.codesValid = true → dstUsable s → tableGet s.ct sym ≠ [] →
    s.pwSyms.toNat < 4294967295 → writerClean s →
    s.outPtr.toNat + streamBytes (s.pwCur.toNat + (tableGet s.ct sym).length) last ≤ s.dstCap.toNat →
    ∃ t, exec (.packSym sym last) s = .next t ∧ succeeded t ∧ packedOnto s t (tableGet s.ct sym) last ∧
      t.pwSyms.toNat = s.pwSyms.toNat + 1 ∧ onlyPackerChanged s t

/-- R170 to R172, R175, 20_memory.md R79: PACK_BLOCK appends the codes of the SRC bytes in their order, flushed when LAST is
set, and counts them. -/
def Obligations.PackBlockAppendsTheCodes : Prop :=
  ∀ (s : State) (last : Bool), s.codesValid = true → bothUsable s →
    (∀ b ∈ srcBytes s, tableGet s.ct b ≠ []) → s.pwSyms.toNat + s.srcLen.toNat ≤ 4294967295 → writerClean s →
    s.outPtr.toNat + streamBytes (s.pwCur.toNat + (codeStream s.ct (srcBytes s)).length) last ≤ s.dstCap.toNat →
    ∃ t, exec (.packBlock last) s = .next t ∧ succeeded t ∧ packedOnto s t (codeStream s.ct (srcBytes s)) last ∧
      t.pwSyms.toNat = s.pwSyms.toNat + s.srcLen.toNat ∧ onlyPackerChanged s t

/-- R171, R176: PACK_FLUSH writes the partial byte if it holds a bit, and nothing otherwise; PW_SYMS stays. -/
def Obligations.PackFlushWritesThePartialByte : Prop :=
  ∀ s : State, dstUsable s → writerClean s → s.outPtr.toNat + streamBytes s.pwCur.toNat true ≤ s.dstCap.toNat →
    ∃ t, exec .packFlush s = .next t ∧ succeeded t ∧ packedOnto s t [] true ∧ t.pwSyms = s.pwSyms ∧
      onlyPackerChanged s t ∧ (s.pwCur = 0#3 → t = doneState s)

/-- R172, R174 to R176, R213: the errors of the packing commands after their window checks, in their order. -/
def Obligations.PackErrors : Prop :=
  ∀ s : State,
    (∀ sym last, s.codesValid = true → dstUsable s →
      (tableGet s.ct sym = [] → fails (.packSym sym last) s 0x41#8 0x09#8 (BitVec.ofNat 32 sym.toNat)) ∧
      (tableGet s.ct sym ≠ [] → s.pwSyms = 0xFFFFFFFF#32 → fails (.packSym sym last) s 0x41#8 0x06#8 0#32) ∧
      (∀ need, tableGet s.ct sym ≠ [] → s.pwSyms ≠ 0xFFFFFFFF#32 →
        need = s.outPtr.toNat + streamBytes (s.pwCur.toNat + (tableGet s.ct sym).length) last →
        s.dstCap.toNat < need →
        fails (.packSym sym last) s 0x41#8 0x0A#8 (BitVec.ofNat 32 (min need 4294967295)))) ∧
    (∀ last, s.codesValid = true → bothUsable s →
      (∀ o, ∀ h : o < (srcBytes s).length, tableGet s.ct (srcBytes s)[o] = [] →
        (∀ k, ∀ hk : k < o, tableGet s.ct ((srcBytes s)[k]'(Nat.lt_trans hk h)) ≠ []) →
        fails (.packBlock last) s 0x42#8 0x09#8 (BitVec.ofNat 32 o)) ∧
      ((∀ b ∈ srcBytes s, tableGet s.ct b ≠ []) → 4294967295 < s.pwSyms.toNat + s.srcLen.toNat →
        fails (.packBlock last) s 0x42#8 0x06#8 0#32) ∧
      (∀ need, (∀ b ∈ srcBytes s, tableGet s.ct b ≠ []) → s.pwSyms.toNat + s.srcLen.toNat ≤ 4294967295 →
        need = s.outPtr.toNat + streamBytes (s.pwCur.toNat + (codeStream s.ct (srcBytes s)).length) last →
        s.dstCap.toNat < need →
        fails (.packBlock last) s 0x42#8 0x0A#8 (BitVec.ofNat 32 (min need 4294967295)))) ∧
    ∀ need, dstUsable s → need = s.outPtr.toNat + streamBytes s.pwCur.toNat true → s.dstCap.toNat < need →
      fails .packFlush s 0x43#8 0x0A#8 (BitVec.ofNat 32 (min need 4294967295))

/-- 45_unpacker.md R180 to R183, R186: UNPACK decodes the one sequence of DEC_SYMS symbols whose codes the payload begins with,
whatever bits follow them, writes it from DST offset 0 on, sets OUT_PTR, and changes nothing else. -/
def Obligations.UnpackDecodesThePayload : Prop :=
  ∀ (s : State) (out : List Byte), s.codesValid = true → s.hdrValid = true → bothUsable s → tableUsable s.ct →
    s.inPtr.toNat + s.decPbytes.toNat ≤ s.srcLen.toNat → s.decSyms.toNat ≤ s.dstCap.toNat →
    out.length = s.decSyms.toNat → (∀ b ∈ out, tableGet s.ct b ≠ []) → codeStream s.ct out <+: payloadBits s →
    ∃ t, exec .unpack s = .next t ∧ t = doneState { s with mem := t.mem, outPtr := s.decSyms } ∧
      dstHolds t 0 out ∧ sameBytesOutside s t 0 out.length

/-- R180, R184, R185, 60_exceptions.md R211: the errors of UNPACK after its window checks, in their order: a payload past the SRC
window, too many symbols for the DST window; then, with the symbols of `out` decoded and the payload going on with
`rest`: the payload runs out inside a code, or MAX_LEN bits match no code. For a bit
position of 2^32 or more ERR_INFO is a free value (log 12). -/
def Obligations.UnpackErrors : Prop :=
  ∀ s : State, s.codesValid = true → s.hdrValid = true → bothUsable s → tableUsable s.ct →
    let need := s.inPtr.toNat + s.decPbytes.toNat
    (s.srcLen.toNat < need → fails .unpack s 0x50#8 0x0C#8 (BitVec.ofNat 32 (min need 4294967295))) ∧
    (need ≤ s.srcLen.toNat → s.dstCap.toNat < s.decSyms.toNat → fails .unpack s 0x50#8 0x0A#8 s.decSyms) ∧
    (need ≤ s.srcLen.toNat → s.decSyms.toNat ≤ s.dstCap.toNat →
      ∀ (out : List Byte) (rest : Bits), out.length < s.decSyms.toNat → (∀ b ∈ out, tableGet s.ct b ≠ []) →
        payloadBits s = codeStream s.ct out ++ rest →
        (∀ sym, tableGet s.ct sym ≠ [] → ¬ (tableGet s.ct sym <+: rest)) →
        (rest.length < maxLen s.ct → fails .unpack s 0x50#8 0x11#8 (BitVec.ofNat 32 out.length)) ∧
        (maxLen s.ct ≤ rest.length → ∃ info, fails .unpack s 0x50#8 0x12#8 info ∧
          ((codeStream s.ct out).length < 4294967296 → info = BitVec.ofNat 32 (codeStream s.ct out).length)))

/-! ### Composites -/

/-- 47_composite.md R200, R205, 30_encoding.md R112 to R121: ENCODE of an empty input only sets OUT_PTR to 0, whatever the windows
are; ENCODE of an input whose tree has no code longer than 23 bits writes the input's
container, sets the counts, the flags and OUT_PTR, and keeps what it does not write. -/
def Obligations.EncodeWritesTheContainer : Prop :=
  (∀ s : State, s.srcLen = 0#32 → exec .encode s = .next (doneState { s with outPtr := 0#32 })) ∧
  ∀ s : State, s.srcLen ≠ 0#32 → bothUsable s → (∀ sym, (tableGet (tableFor (srcBytes s)) sym).length ≤ 23) →
    (containerOf (srcBytes s)).length ≤ s.dstCap.toNat →
    ∃ t, exec .encode s = .next t ∧ succeeded t ∧
      dstHolds t 0 (containerOf (srcBytes s)) ∧ sameBytesOutside s t 0 (containerOf (srcBytes s)).length ∧
      t.outPtr.toNat = (containerOf (srcBytes s)).length ∧
      t.hist = histogramOf (srcBytes s) ∧ t.nodes = (buildTree t.hist).1 ∧ t.root.toNat = (buildTree t.hist).2 ∧
      t.ct = tableFor (srcBytes s) ∧
      t.pwByte = 0#8 ∧ t.pwCur = 0#3 ∧ t.pwSyms = s.srcLen ∧
      t.treeValid = true ∧ t.codesValid = true ∧ t.hdrValid = s.hdrValid ∧
      sameProgramming s t ∧ sameDecodeSide s t

/-- R200, R202: the errors of ENCODE after its window checks: a code too long at stage 0x21, no room for the header at stage
0x30, no room for the payload at stage 0x42. -/
def Obligations.EncodeErrors : Prop :=
  ∀ s : State, s.srcLen ≠ 0#32 → bothUsable s →
    let ct := tableFor (srcBytes s)
    let payload := (packedBytes (codeStream ct (srcBytes s))).length
    (∀ sym, 23 < (tableGet ct sym).length → (∀ b, b.toNat < sym.toNat → (tableGet ct b).length ≤ 23) →
      fails .encode s 0x21#8 0x08#8 (BitVec.ofNat 32 ((tableGet ct sym).length * 256 + sym.toNat))) ∧
    ((∀ sym, (tableGet ct sym).length ≤ 23) → payload ≤ 4294967295 →
      (s.dstCap.toNat < 14 + 5 * (codedSymbols ct).length →
        fails .encode s 0x30#8 0x0A#8 (BitVec.ofNat 32 (14 + 5 * (codedSymbols ct).length))) ∧
      (14 + 5 * (codedSymbols ct).length ≤ s.dstCap.toNat → s.dstCap.toNat < (containerOf (srcBytes s)).length →
        fails .encode s 0x42#8 0x0A#8 (BitVec.ofNat 32 (min (containerOf (srcBytes s)).length 4294967295))))

/-- R202, R203: with usable windows, a successful ENCODE leaves the same state and memory as its seven unit commands run one
after the other, a successful DECODE the same as HDR_READ and then UNPACK; a DECODE that fails reports the
code, stage and info of the step that fails. -/
def Obligations.CompositesEqualTheirUnitCommands : Prop :=
  ∀ s t : State, bothUsable s →
    (s.srcLen ≠ 0#32 →
      (runsOk .encode s t ↔ ∃ s1 s2 s3 s4 s5 s6, runsOk .histClear s s1 ∧ runsOk .histAccum s1 s2 ∧
        runsOk .treeBuild s2 s3 ∧ runsOk .codeAssign s3 s4 ∧ runsOk .hdrWrite s4 s5 ∧ runsOk .packReset s5 s6 ∧
        runsOk (.packBlock true) s6 t)) ∧
    (runsOk .decode s t ↔ ∃ s1, runsOk .hdrRead s s1 ∧ runsOk .unpack s1 t) ∧
    (∀ code info, code ≠ 0#8 → fails .hdrRead s 0x31#8 code info → fails .decode s 0x31#8 code info) ∧
    ∀ s1 code info, code ≠ 0#8 → runsOk .hdrRead s s1 → fails .unpack s1 0x50#8 code info →
      fails .decode s 0x50#8 code info

/-- R201: DECODE of a good container writes the sequence whose codes its payload begins with, and sets the table, the counts,
the pointers and the flags. -/
def Obligations.DecodeReadsTheContainer : Prop :=
  ∀ (s : State) (entries : List (Byte × Bits)) (out : List Byte) (payload : Nat), bothUsable s →
    srcHeader s entries out.length payload → out.length ≤ s.dstCap.toNat →
    (∀ ct, tableIs ct entries → (∀ b ∈ out, tableGet ct b ≠ []) ∧
      codeStream ct out <+: payloadBits { s with
        inPtr := BitVec.ofNat 32 (14 + 5 * entries.length), decPbytes := BitVec.ofNat 32 payload }) →
    ∃ t, exec .decode s = .next t ∧
      t = doneState { s with
        mem := t.mem, ct := t.ct, decSyms := BitVec.ofNat 32 out.length, decPbytes := BitVec.ofNat 32 payload,
        inPtr := BitVec.ofNat 32 (14 + 5 * entries.length), outPtr := BitVec.ofNat 32 out.length,
        treeValid := false, codesValid := true, hdrValid := true } ∧
      tableIs t.ct entries ∧ dstHolds t 0 out ∧ sameBytesOutside s t 0 out.length

/-- R204: for every input ENCODE succeeds on, DECODE of the container it wrote, into a DST window that does not overlap it and
holds the input, succeeds and gives the input back. -/
def Obligations.RoundTrip : Prop :=
  ∀ (s t : State) (base cap : Word), s.srcLen ≠ 0#32 → runsOk .encode s t → s.srcLen.toNat ≤ cap.toNat →
    let u := { t with srcBase := t.dstBase, srcLen := t.outPtr, dstBase := base, dstCap := cap }
    dstUsable u → windowsApart u →
    ∃ v, exec .decode u = .next v ∧ succeeded v ∧ v.outPtr = s.srcLen ∧ dstHolds v 0 (srcBytes s)

/-- R205: the container is a function of the input bytes alone: two ENCODEs of the same bytes, from any two states and at any
addresses, write the same bytes. -/
def Obligations.EncodeIsBitExact : Prop :=
  ∀ s t s' t' : State, srcBytes s = srcBytes s' → s.srcLen ≠ 0#32 → runsOk .encode s t → runsOk .encode s' t' →
    t.outPtr = t'.outPtr ∧ ∀ o, o < t.outPtr.toNat → dstByte t o = dstByte t' o

/-! ### Invariants -/

/-- 10_state.md R26, R27, R28, R49, R53, R54, R55 and the model's canonical form of memory (log 6): every step of every agent
keeps the invariant. -/
def Obligations.StepKeepsTheInvariant : Prop :=
  ∀ s t : State, Inv s → step s = .next t → Inv t

/-- The state after reset meets the invariant, and the clause on code tables. -/
def Obligations.ResetMeetsTheInvariant : Prop := Inv State.reset ∧ codesUsable State.reset

/-- 10_state.md R55: whenever CODES_VALID = 1, some code is not empty and the codes are prefix-free: every step keeps it. -/
def Obligations.StepKeepsCodesUsable : Prop :=
  ∀ s t : State, Inv s → codesUsable s → step s = .next t → codesUsable t

/-- 10_state.md R26: which commands set and clear the validity flags when they succeed, and that only the completion of a command
or a reset changes one. -/
def Obligations.ValidityFlagsFollowTheTable : Prop :=
  (∀ (i : Instr) (s t : State), runsOk i s t →
    (i = .treeBuild ∨ (i = .encode ∧ s.srcLen ≠ 0#32) → t.treeValid = true) ∧
    (i ∈ [.sreset, .histClear, .histAccum, .hdrRead, .decode] → t.treeValid = false) ∧
    (i ∈ [.codeAssign, .hdrRead, .decode] ∨ (i = .encode ∧ s.srcLen ≠ 0#32) → t.codesValid = true) ∧
    (i ∈ [.sreset, .histClear, .histAccum, .treeBuild] → t.codesValid = false) ∧
    (∀ sym, i = .histByte sym → t.treeValid = false ∧ t.codesValid = false) ∧
    (i ∈ [.hdrRead, .decode] → t.hdrValid = true) ∧
    (i = .sreset → t.hdrValid = false)) ∧
  ∀ s t : State, step s = .next t → ¬ sameFlags s t →
    (s.busy = true ∧ (s.turns = [] ∨ ∃ rest, s.turns = .core :: rest) ∧ t.errCode = 0#8) ∨
    ∃ rest, s.turns = .reset :: rest
end

