-- ==== Sys2Proof/Laws/State.lean ====
section
/-! SUPPORT. One lemma per field per named update of the state, true by rfl, so that no proof unfolds a record update. -/

namespace Sys2Proof.Machine

/-! ### completeOk -/

@[simp] theorem completeOk_cmdLast (t : State) : (completeOk t).cmdLast = t.cmdLast := rfl
@[simp] theorem completeOk_busy (t : State) : (completeOk t).busy = false := rfl
@[simp] theorem completeOk_done (t : State) : (completeOk t).done = true := rfl
@[simp] theorem completeOk_overrun (t : State) : (completeOk t).overrun = t.overrun := rfl
@[simp] theorem completeOk_treeValid (t : State) : (completeOk t).treeValid = t.treeValid := rfl
@[simp] theorem completeOk_codesValid (t : State) : (completeOk t).codesValid = t.codesValid := rfl
@[simp] theorem completeOk_hdrValid (t : State) : (completeOk t).hdrValid = t.hdrValid := rfl
@[simp] theorem completeOk_errCode (t : State) : (completeOk t).errCode = 0#8 := rfl
@[simp] theorem completeOk_errStage (t : State) : (completeOk t).errStage = 0#8 := rfl
@[simp] theorem completeOk_errInfo (t : State) : (completeOk t).errInfo = 0#32 := rfl
@[simp] theorem completeOk_doneIe (t : State) : (completeOk t).doneIe = t.doneIe := rfl
@[simp] theorem completeOk_srcBase (t : State) : (completeOk t).srcBase = t.srcBase := rfl
@[simp] theorem completeOk_srcLen (t : State) : (completeOk t).srcLen = t.srcLen := rfl
@[simp] theorem completeOk_dstBase (t : State) : (completeOk t).dstBase = t.dstBase := rfl
@[simp] theorem completeOk_dstCap (t : State) : (completeOk t).dstCap = t.dstCap := rfl
@[simp] theorem completeOk_inPtr (t : State) : (completeOk t).inPtr = t.inPtr := rfl
@[simp] theorem completeOk_outPtr (t : State) : (completeOk t).outPtr = t.outPtr := rfl
@[simp] theorem completeOk_histSel (t : State) : (completeOk t).histSel = t.histSel := rfl
@[simp] theorem completeOk_nodeSel (t : State) : (completeOk t).nodeSel = t.nodeSel := rfl
@[simp] theorem completeOk_codeSel (t : State) : (completeOk t).codeSel = t.codeSel := rfl
@[simp] theorem completeOk_root (t : State) : (completeOk t).root = t.root := rfl
@[simp] theorem completeOk_pwByte (t : State) : (completeOk t).pwByte = t.pwByte := rfl
@[simp] theorem completeOk_pwCur (t : State) : (completeOk t).pwCur = t.pwCur := rfl
@[simp] theorem completeOk_pwSyms (t : State) : (completeOk t).pwSyms = t.pwSyms := rfl
@[simp] theorem completeOk_decSyms (t : State) : (completeOk t).decSyms = t.decSyms := rfl
@[simp] theorem completeOk_decPbytes (t : State) : (completeOk t).decPbytes = t.decPbytes := rfl
@[simp] theorem completeOk_hist (t : State) : (completeOk t).hist = t.hist := rfl
@[simp] theorem completeOk_nodes (t : State) : (completeOk t).nodes = t.nodes := rfl
@[simp] theorem completeOk_ct (t : State) : (completeOk t).ct = t.ct := rfl
@[simp] theorem completeOk_mem (t : State) : (completeOk t).mem = t.mem := rfl
@[simp] theorem completeOk_unbacked (t : State) : (completeOk t).unbacked = t.unbacked := rfl
@[simp] theorem completeOk_regBase (t : State) : (completeOk t).regBase = t.regBase := rfl
@[simp] theorem completeOk_turns (t : State) : (completeOk t).turns = t.turns := rfl
@[simp] theorem completeOk_readData (t : State) : (completeOk t).readData = t.readData := rfl

/-! ### takeError -/

@[simp] theorem takeError_cmdLast (t : State) (r : Raised) : (takeError t r).cmdLast = t.cmdLast := rfl
@[simp] theorem takeError_busy (t : State) (r : Raised) : (takeError t r).busy = false := rfl
@[simp] theorem takeError_done (t : State) (r : Raised) : (takeError t r).done = true := rfl
@[simp] theorem takeError_overrun (t : State) (r : Raised) : (takeError t r).overrun = t.overrun := rfl
@[simp] theorem takeError_treeValid (t : State) (r : Raised) : (takeError t r).treeValid = t.treeValid := rfl
@[simp] theorem takeError_codesValid (t : State) (r : Raised) : (takeError t r).codesValid = t.codesValid := rfl
@[simp] theorem takeError_hdrValid (t : State) (r : Raised) : (takeError t r).hdrValid = t.hdrValid := rfl
@[simp] theorem takeError_errCode (t : State) (r : Raised) : (takeError t r).errCode = errByte r.err.code := rfl
@[simp] theorem takeError_errStage (t : State) (r : Raised) : (takeError t r).errStage = r.stage := rfl
@[simp] theorem takeError_errInfo (t : State) (r : Raised) : (takeError t r).errInfo = r.err.info := rfl
@[simp] theorem takeError_doneIe (t : State) (r : Raised) : (takeError t r).doneIe = t.doneIe := rfl
@[simp] theorem takeError_srcBase (t : State) (r : Raised) : (takeError t r).srcBase = t.srcBase := rfl
@[simp] theorem takeError_srcLen (t : State) (r : Raised) : (takeError t r).srcLen = t.srcLen := rfl
@[simp] theorem takeError_dstBase (t : State) (r : Raised) : (takeError t r).dstBase = t.dstBase := rfl
@[simp] theorem takeError_dstCap (t : State) (r : Raised) : (takeError t r).dstCap = t.dstCap := rfl
@[simp] theorem takeError_inPtr (t : State) (r : Raised) : (takeError t r).inPtr = t.inPtr := rfl
@[simp] theorem takeError_outPtr (t : State) (r : Raised) : (takeError t r).outPtr = t.outPtr := rfl
@[simp] theorem takeError_histSel (t : State) (r : Raised) : (takeError t r).histSel = t.histSel := rfl
@[simp] theorem takeError_nodeSel (t : State) (r : Raised) : (takeError t r).nodeSel = t.nodeSel := rfl
@[simp] theorem takeError_codeSel (t : State) (r : Raised) : (takeError t r).codeSel = t.codeSel := rfl
@[simp] theorem takeError_root (t : State) (r : Raised) : (takeError t r).root = t.root := rfl
@[simp] theorem takeError_pwByte (t : State) (r : Raised) : (takeError t r).pwByte = t.pwByte := rfl
@[simp] theorem takeError_pwCur (t : State) (r : Raised) : (takeError t r).pwCur = t.pwCur := rfl
@[simp] theorem takeError_pwSyms (t : State) (r : Raised) : (takeError t r).pwSyms = t.pwSyms := rfl
@[simp] theorem takeError_decSyms (t : State) (r : Raised) : (takeError t r).decSyms = t.decSyms := rfl
@[simp] theorem takeError_decPbytes (t : State) (r : Raised) : (takeError t r).decPbytes = t.decPbytes := rfl
@[simp] theorem takeError_hist (t : State) (r : Raised) : (takeError t r).hist = t.hist := rfl
@[simp] theorem takeError_nodes (t : State) (r : Raised) : (takeError t r).nodes = t.nodes := rfl
@[simp] theorem takeError_ct (t : State) (r : Raised) : (takeError t r).ct = t.ct := rfl
@[simp] theorem takeError_mem (t : State) (r : Raised) : (takeError t r).mem = t.mem := rfl
@[simp] theorem takeError_unbacked (t : State) (r : Raised) : (takeError t r).unbacked = t.unbacked := rfl
@[simp] theorem takeError_regBase (t : State) (r : Raised) : (takeError t r).regBase = t.regBase := rfl
@[simp] theorem takeError_turns (t : State) (r : Raised) : (takeError t r).turns = t.turns := rfl
@[simp] theorem takeError_readData (t : State) (r : Raised) : (takeError t r).readData = t.readData := rfl

/-! ### withHist -/

@[simp] theorem withHist_cmdLast (t : State) (h : Table Word) : (withHist t h).cmdLast = t.cmdLast := rfl
@[simp] theorem withHist_busy (t : State) (h : Table Word) : (withHist t h).busy = t.busy := rfl
@[simp] theorem withHist_done (t : State) (h : Table Word) : (withHist t h).done = t.done := rfl
@[simp] theorem withHist_overrun (t : State) (h : Table Word) : (withHist t h).overrun = t.overrun := rfl
@[simp] theorem withHist_treeValid (t : State) (h : Table Word) : (withHist t h).treeValid = false := rfl
@[simp] theorem withHist_codesValid (t : State) (h : Table Word) : (withHist t h).codesValid = false := rfl
@[simp] theorem withHist_hdrValid (t : State) (h : Table Word) : (withHist t h).hdrValid = t.hdrValid := rfl
@[simp] theorem withHist_errCode (t : State) (h : Table Word) : (withHist t h).errCode = t.errCode := rfl
@[simp] theorem withHist_errStage (t : State) (h : Table Word) : (withHist t h).errStage = t.errStage := rfl
@[simp] theorem withHist_errInfo (t : State) (h : Table Word) : (withHist t h).errInfo = t.errInfo := rfl
@[simp] theorem withHist_doneIe (t : State) (h : Table Word) : (withHist t h).doneIe = t.doneIe := rfl
@[simp] theorem withHist_srcBase (t : State) (h : Table Word) : (withHist t h).srcBase = t.srcBase := rfl
@[simp] theorem withHist_srcLen (t : State) (h : Table Word) : (withHist t h).srcLen = t.srcLen := rfl
@[simp] theorem withHist_dstBase (t : State) (h : Table Word) : (withHist t h).dstBase = t.dstBase := rfl
@[simp] theorem withHist_dstCap (t : State) (h : Table Word) : (withHist t h).dstCap = t.dstCap := rfl
@[simp] theorem withHist_inPtr (t : State) (h : Table Word) : (withHist t h).inPtr = t.inPtr := rfl
@[simp] theorem withHist_outPtr (t : State) (h : Table Word) : (withHist t h).outPtr = t.outPtr := rfl
@[simp] theorem withHist_histSel (t : State) (h : Table Word) : (withHist t h).histSel = t.histSel := rfl
@[simp] theorem withHist_nodeSel (t : State) (h : Table Word) : (withHist t h).nodeSel = t.nodeSel := rfl
@[simp] theorem withHist_codeSel (t : State) (h : Table Word) : (withHist t h).codeSel = t.codeSel := rfl
@[simp] theorem withHist_root (t : State) (h : Table Word) : (withHist t h).root = t.root := rfl
@[simp] theorem withHist_pwByte (t : State) (h : Table Word) : (withHist t h).pwByte = t.pwByte := rfl
@[simp] theorem withHist_pwCur (t : State) (h : Table Word) : (withHist t h).pwCur = t.pwCur := rfl
@[simp] theorem withHist_pwSyms (t : State) (h : Table Word) : (withHist t h).pwSyms = t.pwSyms := rfl
@[simp] theorem withHist_decSyms (t : State) (h : Table Word) : (withHist t h).decSyms = t.decSyms := rfl
@[simp] theorem withHist_decPbytes (t : State) (h : Table Word) : (withHist t h).decPbytes = t.decPbytes := rfl
@[simp] theorem withHist_hist (t : State) (h : Table Word) : (withHist t h).hist = h := rfl
@[simp] theorem withHist_nodes (t : State) (h : Table Word) : (withHist t h).nodes = t.nodes := rfl
@[simp] theorem withHist_ct (t : State) (h : Table Word) : (withHist t h).ct = t.ct := rfl
@[simp] theorem withHist_mem (t : State) (h : Table Word) : (withHist t h).mem = t.mem := rfl
@[simp] theorem withHist_unbacked (t : State) (h : Table Word) : (withHist t h).unbacked = t.unbacked := rfl
@[simp] theorem withHist_regBase (t : State) (h : Table Word) : (withHist t h).regBase = t.regBase := rfl
@[simp] theorem withHist_turns (t : State) (h : Table Word) : (withHist t h).turns = t.turns := rfl
@[simp] theorem withHist_readData (t : State) (h : Table Word) : (withHist t h).readData = t.readData := rfl

/-! ### dstWrite -/

@[simp] theorem dstWrite_cmdLast (t : State) (o : Nat) (v : Byte) : (dstWrite t o v).cmdLast = t.cmdLast := rfl
@[simp] theorem dstWrite_busy (t : State) (o : Nat) (v : Byte) : (dstWrite t o v).busy = t.busy := rfl
@[simp] theorem dstWrite_done (t : State) (o : Nat) (v : Byte) : (dstWrite t o v).done = t.done := rfl
@[simp] theorem dstWrite_overrun (t : State) (o : Nat) (v : Byte) : (dstWrite t o v).overrun = t.overrun := rfl
@[simp] theorem dstWrite_treeValid (t : State) (o : Nat) (v : Byte) : (dstWrite t o v).treeValid = t.treeValid := rfl
@[simp] theorem dstWrite_codesValid (t : State) (o : Nat) (v : Byte) : (dstWrite t o v).codesValid = t.codesValid := rfl
@[simp] theorem dstWrite_hdrValid (t : State) (o : Nat) (v : Byte) : (dstWrite t o v).hdrValid = t.hdrValid := rfl
@[simp] theorem dstWrite_errCode (t : State) (o : Nat) (v : Byte) : (dstWrite t o v).errCode = t.errCode := rfl
@[simp] theorem dstWrite_errStage (t : State) (o : Nat) (v : Byte) : (dstWrite t o v).errStage = t.errStage := rfl
@[simp] theorem dstWrite_errInfo (t : State) (o : Nat) (v : Byte) : (dstWrite t o v).errInfo = t.errInfo := rfl
@[simp] theorem dstWrite_doneIe (t : State) (o : Nat) (v : Byte) : (dstWrite t o v).doneIe = t.doneIe := rfl
@[simp] theorem dstWrite_srcBase (t : State) (o : Nat) (v : Byte) : (dstWrite t o v).srcBase = t.srcBase := rfl
@[simp] theorem dstWrite_srcLen (t : State) (o : Nat) (v : Byte) : (dstWrite t o v).srcLen = t.srcLen := rfl
@[simp] theorem dstWrite_dstBase (t : State) (o : Nat) (v : Byte) : (dstWrite t o v).dstBase = t.dstBase := rfl
@[simp] theorem dstWrite_dstCap (t : State) (o : Nat) (v : Byte) : (dstWrite t o v).dstCap = t.dstCap := rfl
@[simp] theorem dstWrite_inPtr (t : State) (o : Nat) (v : Byte) : (dstWrite t o v).inPtr = t.inPtr := rfl
@[simp] theorem dstWrite_outPtr (t : State) (o : Nat) (v : Byte) : (dstWrite t o v).outPtr = t.outPtr := rfl
@[simp] theorem dstWrite_histSel (t : State) (o : Nat) (v : Byte) : (dstWrite t o v).histSel = t.histSel := rfl
@[simp] theorem dstWrite_nodeSel (t : State) (o : Nat) (v : Byte) : (dstWrite t o v).nodeSel = t.nodeSel := rfl
@[simp] theorem dstWrite_codeSel (t : State) (o : Nat) (v : Byte) : (dstWrite t o v).codeSel = t.codeSel := rfl
@[simp] theorem dstWrite_root (t : State) (o : Nat) (v : Byte) : (dstWrite t o v).root = t.root := rfl
@[simp] theorem dstWrite_pwByte (t : State) (o : Nat) (v : Byte) : (dstWrite t o v).pwByte = t.pwByte := rfl
@[simp] theorem dstWrite_pwCur (t : State) (o : Nat) (v : Byte) : (dstWrite t o v).pwCur = t.pwCur := rfl
@[simp] theorem dstWrite_pwSyms (t : State) (o : Nat) (v : Byte) : (dstWrite t o v).pwSyms = t.pwSyms := rfl
@[simp] theorem dstWrite_decSyms (t : State) (o : Nat) (v : Byte) : (dstWrite t o v).decSyms = t.decSyms := rfl
@[simp] theorem dstWrite_decPbytes (t : State) (o : Nat) (v : Byte) : (dstWrite t o v).decPbytes = t.decPbytes := rfl
@[simp] theorem dstWrite_hist (t : State) (o : Nat) (v : Byte) : (dstWrite t o v).hist = t.hist := rfl
@[simp] theorem dstWrite_nodes (t : State) (o : Nat) (v : Byte) : (dstWrite t o v).nodes = t.nodes := rfl
@[simp] theorem dstWrite_ct (t : State) (o : Nat) (v : Byte) : (dstWrite t o v).ct = t.ct := rfl
@[simp] theorem dstWrite_mem (t : State) (o : Nat) (v : Byte) : (dstWrite t o v).mem = writeByte t.mem (t.dstBase.toNat + o) v := rfl
@[simp] theorem dstWrite_unbacked (t : State) (o : Nat) (v : Byte) : (dstWrite t o v).unbacked = t.unbacked := rfl
@[simp] theorem dstWrite_regBase (t : State) (o : Nat) (v : Byte) : (dstWrite t o v).regBase = t.regBase := rfl
@[simp] theorem dstWrite_turns (t : State) (o : Nat) (v : Byte) : (dstWrite t o v).turns = t.turns := rfl
@[simp] theorem dstWrite_readData (t : State) (o : Nat) (v : Byte) : (dstWrite t o v).readData = t.readData := rfl

/-! ### emitByte -/

@[simp] theorem emitByte_cmdLast (t : State) : (emitByte t).cmdLast = t.cmdLast := rfl
@[simp] theorem emitByte_busy (t : State) : (emitByte t).busy = t.busy := rfl
@[simp] theorem emitByte_done (t : State) : (emitByte t).done = t.done := rfl
@[simp] theorem emitByte_overrun (t : State) : (emitByte t).overrun = t.overrun := rfl
@[simp] theorem emitByte_treeValid (t : State) : (emitByte t).treeValid = t.treeValid := rfl
@[simp] theorem emitByte_codesValid (t : State) : (emitByte t).codesValid = t.codesValid := rfl
@[simp] theorem emitByte_hdrValid (t : State) : (emitByte t).hdrValid = t.hdrValid := rfl
@[simp] theorem emitByte_errCode (t : State) : (emitByte t).errCode = t.errCode := rfl
@[simp] theorem emitByte_errStage (t : State) : (emitByte t).errStage = t.errStage := rfl
@[simp] theorem emitByte_errInfo (t : State) : (emitByte t).errInfo = t.errInfo := rfl
@[simp] theorem emitByte_doneIe (t : State) : (emitByte t).doneIe = t.doneIe := rfl
@[simp] theorem emitByte_srcBase (t : State) : (emitByte t).srcBase = t.srcBase := rfl
@[simp] theorem emitByte_srcLen (t : State) : (emitByte t).srcLen = t.srcLen := rfl
@[simp] theorem emitByte_dstBase (t : State) : (emitByte t).dstBase = t.dstBase := rfl
@[simp] theorem emitByte_dstCap (t : State) : (emitByte t).dstCap = t.dstCap := rfl
@[simp] theorem emitByte_inPtr (t : State) : (emitByte t).inPtr = t.inPtr := rfl
@[simp] theorem emitByte_outPtr (t : State) : (emitByte t).outPtr = t.outPtr + 1#32 := rfl
@[simp] theorem emitByte_histSel (t : State) : (emitByte t).histSel = t.histSel := rfl
@[simp] theorem emitByte_nodeSel (t : State) : (emitByte t).nodeSel = t.nodeSel := rfl
@[simp] theorem emitByte_codeSel (t : State) : (emitByte t).codeSel = t.codeSel := rfl
@[simp] theorem emitByte_root (t : State) : (emitByte t).root = t.root := rfl
@[simp] theorem emitByte_pwByte (t : State) : (emitByte t).pwByte = 0#8 := rfl
@[simp] theorem emitByte_pwCur (t : State) : (emitByte t).pwCur = 0#3 := rfl
@[simp] theorem emitByte_pwSyms (t : State) : (emitByte t).pwSyms = t.pwSyms := rfl
@[simp] theorem emitByte_decSyms (t : State) : (emitByte t).decSyms = t.decSyms := rfl
@[simp] theorem emitByte_decPbytes (t : State) : (emitByte t).decPbytes = t.decPbytes := rfl
@[simp] theorem emitByte_hist (t : State) : (emitByte t).hist = t.hist := rfl
@[simp] theorem emitByte_nodes (t : State) : (emitByte t).nodes = t.nodes := rfl
@[simp] theorem emitByte_ct (t : State) : (emitByte t).ct = t.ct := rfl
@[simp] theorem emitByte_mem (t : State) : (emitByte t).mem = writeByte t.mem (t.dstBase.toNat + t.outPtr.toNat) t.pwByte := rfl
@[simp] theorem emitByte_unbacked (t : State) : (emitByte t).unbacked = t.unbacked := rfl
@[simp] theorem emitByte_regBase (t : State) : (emitByte t).regBase = t.regBase := rfl
@[simp] theorem emitByte_turns (t : State) : (emitByte t).turns = t.turns := rfl
@[simp] theorem emitByte_readData (t : State) : (emitByte t).readData = t.readData := rfl

end Sys2Proof.Machine
end

