-- ==== Sys2Proof/Laws/Memory.lean ====
section
/-! SUPPORT. What reading and writing a byte of memory do: read over write, the canonical form kept, and consecutive
writes (20_memory.md R70, R77, R83). -/

namespace Sys2Proof.Machine

theorem readByte_erase_same (m : Memory) (a : Nat) : readByte (m.filter fun c => c.1 ≠ a) a = unlistedByte := by
  induction m with
  | nil => rfl
  | cons c rest ih =>
    by_cases h : c.1 = a
    · simpa [h] using ih
    · have : a ≠ c.1 := fun e => h e.symm
      simp only [List.filter_cons, ne_eq, h, not_false_eq_true, decide_true, if_true, readByte, this, if_false]
      exact ih

theorem readByte_erase_ne (m : Memory) {a b : Nat} (h : a ≠ b) :
    readByte (m.filter fun c => c.1 ≠ b) a = readByte m a := by
  induction m with
  | nil => rfl
  | cons c rest ih =>
    by_cases hc : c.1 = b
    · have : a ≠ c.1 := fun e => h (e.trans hc)
      simp only [List.filter_cons, ne_eq, hc, not_true_eq_false, decide_false, Bool.false_eq_true, if_false]
      rw [readByte, if_neg this]
      exact ih
    · simp only [List.filter_cons, ne_eq, hc, not_false_eq_true, decide_true, if_true, readByte]
      split
      · rfl
      · exact ih

theorem readByte_insertCell_ne (m : Memory) {c : Host.Cell} {a : Nat} (h : a ≠ c.1) :
    readByte (insertCell c m) a = readByte m a := by
  induction m with
  | nil => simp [insertCell, readByte, h]
  | cons d rest ih =>
    unfold insertCell
    split
    · simp [readByte, h]
    · simp [readByte, ih]

theorem readByte_insertCell_same (m : Memory) (c : Host.Cell) (h : ∀ d ∈ m, d.1 ≠ c.1) :
    readByte (insertCell c m) c.1 = c.2 := by
  induction m with
  | nil => simp [insertCell, readByte]
  | cons d rest ih =>
    unfold insertCell
    split
    · simp [readByte]
    · rw [readByte, if_neg fun e => h d (by simp) e.symm]
      exact ih fun e he => h e (by simp [he])

/-- A write of another address leaves a byte alone. -/
theorem readByte_writeByte_ne (m : Memory) {a b : Nat} (v : Byte) (h : a ≠ b) :
    readByte (writeByte m b v) a = readByte m a := by
  unfold writeByte
  split
  · exact readByte_erase_ne m h
  · rw [readByte_insertCell_ne _ h, readByte_erase_ne m h]

/-- A byte written reads back. -/
@[simp] theorem readByte_writeByte_same (m : Memory) (a : Nat) (v : Byte) : readByte (writeByte m a v) a = v := by
  unfold writeByte
  split
  · rename_i h; rw [readByte_erase_same, h]
  · exact readByte_insertCell_same _ (a, v) (by simp)

theorem mem_insertCell {m : Memory} {c d : Host.Cell} : d ∈ insertCell c m ↔ d = c ∨ d ∈ m := by
  induction m with
  | nil => simp [insertCell]
  | cons e rest ih =>
    unfold insertCell
    split
    · simp
    · simp only [List.mem_cons, ih]; tauto

theorem pairwise_insertCell {m : Memory} {c : Host.Cell} (h : m.Pairwise fun c d => c.1 < d.1)
    (hc : ∀ d ∈ m, d.1 ≠ c.1) : (insertCell c m).Pairwise fun c d => c.1 < d.1 := by
  induction m with
  | nil => simp [insertCell]
  | cons e rest ih =>
    have hr := List.pairwise_cons.1 h
    unfold insertCell
    split
    · refine List.pairwise_cons.2 ⟨fun d hd => ?_, h⟩
      rcases List.mem_cons.1 hd with rfl | hd
      · assumption
      · have := hr.1 d hd; omega
    · refine List.pairwise_cons.2 ⟨fun d hd => ?_, ih hr.2 fun d hd => hc d (by simp [hd])⟩
      rcases mem_insertCell.1 hd with rfl | hd
      · have := hc e (by simp); omega
      · exact hr.1 d hd

theorem pairwise_writeByte {m : Memory} (a : Nat) (v : Byte) (h : m.Pairwise fun c d => c.1 < d.1) :
    (writeByte m a v).Pairwise fun c d => c.1 < d.1 := by
  unfold writeByte
  split
  · exact h.filter _
  · exact pairwise_insertCell (h.filter _) (by simp)

/-- A write inside the address space keeps the canonical form. -/
theorem wf_writeByte {m : Memory} {a : Nat} (v : Byte) (h : Memory.wf m) (ha : a < Config.addrSpace) :
    Memory.wf (writeByte m a v) := by
  refine ⟨pairwise_writeByte a v h.1, fun c hc => ?_⟩
  unfold writeByte at hc
  split at hc
  · exact h.2 c (List.mem_of_mem_filter hc)
  · rcases mem_insertCell.1 hc with rfl | hc
    · exact ⟨ha, by assumption⟩
    · exact h.2 c (List.mem_of_mem_filter hc)

/-- In the canonical form a listed cell is what its address reads as. -/
theorem readByte_of_mem {m : Memory} {c : Host.Cell} (h : m.Pairwise fun c d => c.1 < d.1) (hc : c ∈ m) :
    readByte m c.1 = c.2 := by
  induction m with
  | nil => cases hc
  | cons d rest ih =>
    have hr := List.pairwise_cons.1 h
    rcases List.mem_cons.1 hc with rfl | hc
    · simp [readByte]
    · have := hr.1 c hc
      rw [readByte, if_neg (by omega)]
      exact ih hr.2 hc

/-- An address that does not read as unlisted is listed. -/
theorem mem_of_readByte {m : Memory} {a : Nat} (h : readByte m a ≠ unlistedByte) : (a, readByte m a) ∈ m := by
  induction m with
  | nil => exact absurd rfl h
  | cons d rest ih =>
    by_cases ha : a = d.1
    · subst ha; simp [readByte]
    · rw [readByte, if_neg ha] at h ⊢
      exact List.mem_cons_of_mem _ (ih h)

/-- Equal memories are equal data: two canonical memories that read alike are the same list. -/
theorem memory_ext {m n : Memory} (hm : Memory.wf m) (hn : Memory.wf n) (h : ∀ a, readByte m a = readByte n a) :
    m = n := by
  have sub : ∀ {m n : Memory}, Memory.wf m → (∀ a, readByte m a = readByte n a) → ∀ c ∈ m, c ∈ n := by
    intro m n hm h c hc
    have hv := readByte_of_mem hm.1 hc
    have : (c.1, readByte n c.1) ∈ n := mem_of_readByte (by rw [← h, hv]; exact (hm.2 c hc).2)
    rwa [← h, hv] at this
  have nodup : ∀ {m : Memory}, Memory.wf m → m.Nodup := fun hm =>
    hm.1.imp fun {c d} hlt => by rintro rfl; exact absurd hlt (by omega)
  have hp : m.Perm n := (List.perm_ext_iff_of_nodup (nodup hm) (nodup hn)).2 fun c =>
    ⟨sub hm h c, sub hn (fun a => (h a).symm) c⟩
  exact hp.eq_of_pairwise (le := fun c d => c.1 < d.1) (fun c d _ _ h1 h2 => absurd h1 (by omega)) hm.1 hn.1

/-! ### Consecutive writes -/

/-- MemWrite of consecutive bytes from address a on. -/
def writeBytes (m : Memory) (a : Nat) : List Byte → Memory
  | [] => m
  | v :: rest => writeBytes (writeByte m a v) (a + 1) rest

/-- All that dstWriteAll does: memory. -/
theorem dstWriteAll_eq (s : State) (o : Nat) (bytes : List Byte) :
    dstWriteAll s o bytes = { s with mem := writeBytes s.mem (s.dstBase.toNat + o) bytes } := by
  induction bytes generalizing s o with
  | nil => rfl
  | cons v rest ih => rw [dstWriteAll, ih]; rfl

theorem wf_writeBytes {m : Memory} {a : Nat} {bytes : List Byte} (h : Memory.wf m)
    (ha : a + bytes.length ≤ Config.addrSpace) : Memory.wf (writeBytes m a bytes) := by
  induction bytes generalizing m a with
  | nil => exact h
  | cons v rest ih =>
    simp only [List.length_cons] at ha
    exact ih (wf_writeByte v h (by omega)) (by omega)

theorem readByte_writeBytes_outside (m : Memory) (a : Nat) (bytes : List Byte) (b : Nat)
    (h : ¬ (a ≤ b ∧ b < a + bytes.length)) : readByte (writeBytes m a bytes) b = readByte m b := by
  induction bytes generalizing m a with
  | nil => rfl
  | cons v rest ih =>
    simp only [List.length_cons] at h
    rw [writeBytes, ih _ _ (by omega), readByte_writeByte_ne _ _ (by omega)]

theorem readByte_writeBytes_inside (m : Memory) (a : Nat) (bytes : List Byte) (k : Nat) (h : k < bytes.length) :
    readByte (writeBytes m a bytes) (a + k) = bytes[k] := by
  induction bytes generalizing m a k with
  | nil => exact absurd h (by simp)
  | cons v rest ih =>
    rw [writeBytes]
    cases k with
    | zero =>
      rw [readByte_writeBytes_outside _ _ _ _ (by omega)]
      exact readByte_writeByte_same m a v
    | succ k =>
      have := ih (writeByte m a v) (a + 1) k (by simpa using h)
      simpa [Nat.add_assoc, Nat.add_comm 1 k] using this

theorem writeBytes_append (m : Memory) (a : Nat) (xs ys : List Byte) :
    writeBytes m a (xs ++ ys) = writeBytes (writeBytes m a xs) (a + xs.length) ys := by
  induction xs generalizing m a with
  | nil => rfl
  | cons x rest ih => simp [writeBytes, ih, Nat.add_assoc, Nat.add_comm 1]

end Sys2Proof.Machine
end

