-- ==== Sys2Proof/Laws/Table.lean ====
section
/-! SUPPORT. Reading and replacing the entry of a symbol, the rows of a table in ascending order, and the sum of the
counters (10_state.md R37, R53, R55). -/

namespace Sys2Proof.Machine

@[simp] theorem tableGet_fill {α : Type} (x : α) (sym : Byte) : tableGet (tableFill x) sym = x := by
  simp [tableGet, tableFill]

@[simp] theorem tableGet_set_same {α : Type} (t : Table α) (sym : Byte) (x : α) :
    tableGet (tableSet t sym x) sym = x := by
  simp [tableGet, tableSet]

theorem tableGet_set_ne {α : Type} (t : Table α) {sym b : Byte} (x : α) (h : b ≠ sym) :
    tableGet (tableSet t sym x) b = tableGet t b := by
  have : sym.toNat ≠ b.toNat := fun e => h (BitVec.eq_of_toNat_eq e.symm)
  simp [tableGet, tableSet, this]

theorem tableGet_set {α : Type} (t : Table α) (sym b : Byte) (x : α) :
    tableGet (tableSet t sym x) b = if b = sym then x else tableGet t b := by
  split
  · subst_vars; simp
  · exact tableGet_set_ne t x (by assumption)

/-- Two tables with the same entries are the same table. -/
theorem table_ext {α : Type} {t u : Table α} (h : ∀ sym, tableGet t sym = tableGet u sym) : t = u := by
  apply Vector.ext
  intro i hi
  have := h (BitVec.ofNat 8 i)
  simpa [tableGet, Nat.mod_eq_of_lt hi] using this

theorem length_allSymbols : allSymbols.length = 256 := by simp [allSymbols]

@[simp] theorem getElem_allSymbols (i : Nat) (h : i < allSymbols.length) : allSymbols[i] = BitVec.ofNat 8 i := by
  simp [allSymbols]

@[simp] theorem mem_allSymbols (sym : Byte) : sym ∈ allSymbols := by
  simp only [allSymbols, List.mem_map, List.mem_range]
  exact ⟨sym.toNat, sym.isLt, by simp⟩

/-- The symbols come in ascending order. -/
theorem pairwise_allSymbols : allSymbols.Pairwise fun a b => a.toNat < b.toNat := by
  rw [List.pairwise_iff_getElem]
  intro i j hi hj hij
  simp only [length_allSymbols] at hi hj
  simp [Nat.mod_eq_of_lt hi, Nat.mod_eq_of_lt hj, hij]

theorem nodup_allSymbols : allSymbols.Nodup :=
  pairwise_allSymbols.imp fun {a b} h => by rintro rfl; omega

/-- The rows of a table are its symbols with their entries. -/
theorem tableRows_eq {α : Type} (t : Table α) : tableRows t = allSymbols.map fun sym => (sym, tableGet t sym) := by
  apply List.ext_getElem
  · simp [tableRows, length_allSymbols]
  · intro i h1 h2
    have hi : i < 256 := by simpa [tableRows, length_allSymbols] using h1
    simp [tableRows, tableGet, Nat.mod_eq_of_lt hi]

theorem mem_tableRows {α : Type} (t : Table α) (sym : Byte) (x : α) : (sym, x) ∈ tableRows t ↔ tableGet t sym = x := by
  simp [tableRows_eq]

theorem toList_eq_map {α : Type} (t : Table α) : t.toList = allSymbols.map (tableGet t) := by
  apply List.ext_getElem
  · simp [length_allSymbols]
  · intro i h1 h2
    have hi : i < 256 := by simpa using h1
    simp [tableGet, Nat.mod_eq_of_lt hi]

/-- TOTAL is the sum over the symbols in order. -/
theorem histTotal_eq (h : Table Word) : histTotal h = (allSymbols.map fun sym => (tableGet h sym).toNat).sum := by
  simp [histTotal, toList_eq_map, Function.comp_def]

theorem sum_map_update {α : Type} (l : List α) (f g : α → Nat) (a : α) (hn : l.Nodup) (ha : a ∈ l)
    (h : ∀ b ∈ l, b ≠ a → g b = f b) : (l.map g).sum + f a = (l.map f).sum + g a := by
  induction l with
  | nil => cases ha
  | cons b rest ih =>
    have hn' := List.nodup_cons.1 hn
    by_cases hb : b = a
    · subst hb
      have : rest.map g = rest.map f :=
        List.map_congr_left fun c hc => h c (by simp [hc]) (by rintro rfl; exact hn'.1 hc)
      simp [this]; omega
    · have ha' : a ∈ rest := (List.mem_cons.1 ha).resolve_left fun e => hb e.symm
      have := ih hn'.2 ha' fun c hc => h c (by simp [hc])
      simp [h b (by simp) hb]; omega

/-- Replacing one counter changes TOTAL by the difference. -/
theorem histTotal_set (h : Table Word) (sym : Byte) (x : Word) :
    histTotal (tableSet h sym x) + (tableGet h sym).toNat = histTotal h + x.toNat := by
  simp only [histTotal_eq]
  have := sum_map_update allSymbols (fun b => (tableGet h b).toNat) (fun b => (tableGet (tableSet h sym x) b).toNat)
    sym nodup_allSymbols (by simp) fun b _ hb => by rw [tableGet_set_ne _ _ hb]
  simpa using this

/-- Every counter is at most TOTAL. -/
theorem tableGet_le_total (h : Table Word) (sym : Byte) : (tableGet h sym).toNat ≤ histTotal h := by
  rw [histTotal_eq]
  exact List.single_le_sum (by simp) _ (List.mem_map.2 ⟨sym, by simp, rfl⟩)

@[simp] theorem histTotal_fill_zero : histTotal (tableFill 0#32) = 0 := by
  simp [histTotal_eq]

/-- Counting one occurrence of a symbol, while TOTAL leaves room for it (41_histogram.md R142). -/
theorem countSymbol_get (h : Table Word) (sym b : Byte) (ht : histTotal h < Config.maxCount) :
    (tableGet (countSymbol h sym) b).toNat = (tableGet h b).toNat + if b = sym then 1 else 0 := by
  have hle := tableGet_le_total h sym
  have : Config.maxCount = 4294967295 := rfl
  by_cases hb : b = sym
  · subst hb
    simp only [countSymbol, tableGet_set_same, BitVec.toNat_add, BitVec.toNat_ofNat, if_true]
    omega
  · simp [countSymbol, tableGet_set_ne _ _ hb, hb]

theorem countSymbol_total (h : Table Word) (sym : Byte) (ht : histTotal h < Config.maxCount) :
    histTotal (countSymbol h sym) = histTotal h + 1 := by
  have h1 := histTotal_set h sym (tableGet h sym + 1#32)
  have h2 := countSymbol_get h sym sym ht
  simp only [countSymbol, tableGet_set_same, if_true] at h2 ⊢
  omega

/-- Counting every byte of a sequence, while TOTAL leaves room for it (R141). -/
theorem foldl_countSymbol (bytes : List Byte) (h : Table Word) (ht : histTotal h + bytes.length ≤ Config.maxCount) :
    (∀ b, (tableGet (bytes.foldl countSymbol h) b).toNat = (tableGet h b).toNat + bytes.count b) ∧
    histTotal (bytes.foldl countSymbol h) = histTotal h + bytes.length := by
  induction bytes generalizing h with
  | nil => simp
  | cons x rest ih =>
    simp only [List.length_cons] at ht
    have hlt : histTotal h < Config.maxCount := by omega
    have htot := countSymbol_total h x hlt
    obtain ⟨h1, h2⟩ := ih (countSymbol h x) (by omega)
    refine ⟨fun b => ?_, ?_⟩
    · rw [List.foldl_cons, h1, countSymbol_get h x b hlt, List.count_cons]
      by_cases hb : b = x
      · subst hb; simp; omega
      · have : ¬ x = b := fun e => hb e.symm
        simp [hb, this]
    · rw [List.foldl_cons, h2, htot, List.length_cons]; omega

end Sys2Proof.Machine
end

