-- ==== Sys2Proof/Laws/Windows.lean ====
section
/-! SUPPORT. When the checks on windows and flags pass, in the spec's own words (20_memory.md R73 to R76). -/

namespace Sys2Proof.Machine

@[simp] theorem raiseIf_eq_none (c : Prop) [Decidable c] (code : ErrCode) (info : Word) :
    raiseIf c code info = none ↔ ¬ c := by
  unfold raiseIf; split <;> simp_all

theorem raiseIf_pos {c : Prop} [Decidable c] (code : ErrCode) (info : Word) (h : c) :
    raiseIf c code info = some ⟨code, info⟩ := by
  simp [raiseIf, h]

theorem raiseIf_neg {c : Prop} [Decidable c] (code : ErrCode) (info : Word) (h : ¬ c) :
    raiseIf c code info = none := by
  simp [raiseIf, h]

theorem raiseIf_eq_some {c : Prop} [Decidable c] {code : ErrCode} {info : Word} {e : CmdError}
    (h : raiseIf c code info = some e) : c ∧ e = ⟨code, info⟩ := by
  unfold raiseIf at h; split at h <;> simp_all

/-! ### Backing -/

theorem memBacked_eq_false (s : State) (a : Nat) :
    memBacked s a = false ↔ ∃ r ∈ s.unbacked, r.base ≤ a ∧ a < r.base + r.size := by
  simp [memBacked]

theorem memBacked_eq_true (s : State) (a : Nat) :
    memBacked s a = true ↔ ∀ r ∈ s.unbacked, ¬ (r.base ≤ a ∧ a < r.base + r.size) := by
  simp [memBacked]

/-- The lowest address of the window in some region, if there is one. -/
theorem lowestUnbacked_spec (rs : List Region) (base len : Nat) :
    match lowestUnbacked rs base len with
    | none => ∀ a, base ≤ a → a < base + len → ∀ r ∈ rs, ¬ (r.base ≤ a ∧ a < r.base + r.size)
    | some a => (base ≤ a ∧ a < base + len ∧ ∃ r ∈ rs, r.base ≤ a ∧ a < r.base + r.size) ∧
        ∀ b, base ≤ b → b < a → ∀ r ∈ rs, ¬ (r.base ≤ b ∧ b < r.base + r.size) := by
  induction rs with
  | nil => simp [lowestUnbacked]
  | cons r rest ih =>
    by_cases hlt : max r.base base < min (r.base + r.size) (base + len)
    · rw [lowestUnbacked, if_pos hlt]
      cases hrec : lowestUnbacked rest base len with
      | none =>
        rw [hrec] at ih
        simp only at ih ⊢
        refine ⟨⟨by omega, by omega, r, by simp, by omega, by omega⟩, fun b h1 h2 q hq => ?_⟩
        rcases List.mem_cons.1 hq with rfl | hq
        · omega
        · exact ih b h1 (by omega) q hq
      | some a =>
        rw [hrec] at ih
        simp only at ih ⊢
        obtain ⟨⟨h1, h2, q, hq, h3, h4⟩, hlow⟩ := ih
        refine ⟨⟨by omega, by omega, ?_⟩, fun b h5 h6 p hp => ?_⟩
        · by_cases hle : max r.base base ≤ a
          · rw [Nat.min_eq_left hle]; exact ⟨r, by simp, by omega, by omega⟩
          · rw [Nat.min_eq_right (by omega)]; exact ⟨q, by simp [hq], h3, h4⟩
        · rcases List.mem_cons.1 hp with rfl | hp
          · omega
          · exact hlow b h5 (by omega) p hp
    · rw [lowestUnbacked, if_neg hlt]
      cases hrec : lowestUnbacked rest base len with
      | none =>
        rw [hrec] at ih
        simp only at ih ⊢
        intro a h1 h2 q hq
        rcases List.mem_cons.1 hq with rfl | hq
        · omega
        · exact ih a h1 h2 q hq
      | some a =>
        rw [hrec] at ih
        simp only at ih ⊢
        obtain ⟨⟨h1, h2, q, hq, h3, h4⟩, hlow⟩ := ih
        refine ⟨⟨h1, h2, q, by simp [hq], h3, h4⟩, fun b h5 h6 p hp => ?_⟩
        rcases List.mem_cons.1 hp with rfl | hp
        · omega
        · exact hlow b h5 h6 p hp

theorem lowestUnbackedIn_unique {s : State} {base len : Word} {a b : Nat} (ha : lowestUnbackedIn s base len a)
    (hb : lowestUnbackedIn s base len b) : a = b := by
  obtain ⟨a1, -, a3, a4⟩ := ha
  obtain ⟨b1, -, b3, b4⟩ := hb
  by_contra hne
  rcases Nat.lt_or_gt_of_ne hne with h | h
  · simp [b4 a a1 h] at a3
  · simp [a4 b b1 h] at b3

/-- The backing check passes exactly when the window is backed (R74). -/
theorem busCheck_eq_none (s : State) (base len : Word) : busCheck s base len = none ↔ windowBacked s base len := by
  have h := lowestUnbacked_spec s.unbacked base.toNat len.toNat
  unfold busCheck windowBacked
  cases hl : lowestUnbacked s.unbacked base.toNat len.toNat with
  | none =>
    rw [hl] at h
    simp only [true_iff]
    exact fun a h1 h2 => (memBacked_eq_true s a).2 (h a h1 h2)
  | some a =>
    rw [hl] at h
    obtain ⟨⟨h1, h2, h3⟩, -⟩ := h
    simp only [reduceCtorEq, false_iff]
    intro hall
    have := hall a h1 h2
    rw [(memBacked_eq_false s a).2 h3] at this
    cases this

/-- Otherwise it reports the lowest unbacked address (R74). -/
theorem busCheck_of_lowest {s : State} {base len : Word} {a : Nat} (ha : lowestUnbackedIn s base len a) :
    busCheck s base len = some ⟨.bus, BitVec.ofNat 32 a⟩ := by
  have h := lowestUnbacked_spec s.unbacked base.toNat len.toNat
  unfold busCheck
  cases hl : lowestUnbacked s.unbacked base.toNat len.toNat with
  | none =>
    rw [hl] at h
    have h1 := (memBacked_eq_true s a).2 (h a ha.1 ha.2.1)
    rw [ha.2.2.1] at h1
    cases h1
  | some b =>
    rw [hl] at h
    obtain ⟨⟨h1, h2, h3⟩, h4⟩ := h
    have : a = b := lowestUnbackedIn_unique ha
      ⟨h1, h2, (memBacked_eq_false s b).2 h3, fun c hc hcb => (memBacked_eq_true s c).2 (h4 c hc hcb)⟩
    rw [this]

/-! ### The checks of a command -/

theorem rangeCheck_eq_none (base len info : Word) : rangeCheck base len info = none ↔ windowInSpace base len := by
  simp [rangeCheck, windowInSpace, Config.addrSpace]

theorem rangeCheck_of_not {base len : Word} (info : Word) (h : ¬ windowInSpace base len) :
    rangeCheck base len info = some ⟨.range, info⟩ :=
  raiseIf_pos _ _ (by simpa [windowInSpace, Config.addrSpace] using h)

theorem overlapCheck_eq_none (s : State) : overlapCheck s = none ↔ windowsApart s := by
  have e1 : s.srcLen = 0#32 ↔ s.srcLen.toNat = 0 := BitVec.toNat_inj.symm
  have e2 : s.dstCap = 0#32 ↔ s.dstCap.toNat = 0 := BitVec.toNat_inj.symm
  simp only [overlapCheck, raiseIf_eq_none, windowsApart, e1, e2]
  omega

theorem overlapCheck_of_not {s : State} (h : ¬ windowsApart s) : overlapCheck s = some ⟨.overlap, 0#32⟩ := by
  cases ho : overlapCheck s with
  | none => exact absurd ((overlapCheck_eq_none s).1 ho) h
  | some e => rw [(raiseIf_eq_some ho).2]

theorem srcCheck_eq_none (s : State) : srcCheck s = none ↔ srcUsable s := by
  simp [srcCheck, srcUsable, Option.or_eq_none_iff, rangeCheck_eq_none, busCheck_eq_none]

theorem dstCheck_eq_none (s : State) : dstCheck s = none ↔ dstUsable s := by
  simp [dstCheck, dstUsable, Option.or_eq_none_iff, rangeCheck_eq_none, busCheck_eq_none]

theorem windowsCheck_eq_none (s : State) : windowsCheck s = none ↔ bothUsable s := by
  simp only [windowsCheck, bothUsable, srcUsable, dstUsable, Option.or_eq_none_iff, rangeCheck_eq_none,
    busCheck_eq_none, overlapCheck_eq_none]
  tauto

/-- The errors of the SRC window, in their order. -/
theorem srcCheck_errors (s : State) :
    (¬ windowInSpace s.srcBase s.srcLen → srcCheck s = some ⟨.range, 0#32⟩) ∧
    (windowInSpace s.srcBase s.srcLen → ∀ a, lowestUnbackedIn s s.srcBase s.srcLen a →
      srcCheck s = some ⟨.bus, BitVec.ofNat 32 a⟩) :=
  ⟨fun h => by simp [srcCheck, rangeCheck_of_not 0#32 h],
   fun h a ha => by simp [srcCheck, (rangeCheck_eq_none _ _ 0#32).2 h, busCheck_of_lowest ha]⟩

/-- The errors of the DST window, in their order. -/
theorem dstCheck_errors (s : State) :
    (¬ windowInSpace s.dstBase s.dstCap → dstCheck s = some ⟨.range, 1#32⟩) ∧
    (windowInSpace s.dstBase s.dstCap → ∀ a, lowestUnbackedIn s s.dstBase s.dstCap a →
      dstCheck s = some ⟨.bus, BitVec.ofNat 32 a⟩) :=
  ⟨fun h => by simp [dstCheck, rangeCheck_of_not 1#32 h],
   fun h a ha => by simp [dstCheck, (rangeCheck_eq_none _ _ 1#32).2 h, busCheck_of_lowest ha]⟩

/-- The errors of a command that uses both windows, in their order (R76). -/
theorem windowsCheck_errors (s : State) :
    (¬ windowInSpace s.srcBase s.srcLen → windowsCheck s = some ⟨.range, 0#32⟩) ∧
    (windowInSpace s.srcBase s.srcLen → ¬ windowInSpace s.dstBase s.dstCap → windowsCheck s = some ⟨.range, 1#32⟩) ∧
    (windowInSpace s.srcBase s.srcLen → windowInSpace s.dstBase s.dstCap → ∀ a, lowestUnbackedIn s s.srcBase s.srcLen a →
      windowsCheck s = some ⟨.bus, BitVec.ofNat 32 a⟩) ∧
    (srcUsable s → windowInSpace s.dstBase s.dstCap → ∀ a, lowestUnbackedIn s s.dstBase s.dstCap a →
      windowsCheck s = some ⟨.bus, BitVec.ofNat 32 a⟩) ∧
    (srcUsable s → dstUsable s → ¬ windowsApart s → windowsCheck s = some ⟨.overlap, 0#32⟩) :=
  ⟨fun h => by simp [windowsCheck, rangeCheck_of_not 0#32 h],
   fun h h' => by simp [windowsCheck, (rangeCheck_eq_none _ _ 0#32).2 h, rangeCheck_of_not 1#32 h'],
   fun h h' a ha => by
    simp [windowsCheck, (rangeCheck_eq_none _ _ 0#32).2 h, (rangeCheck_eq_none _ _ 1#32).2 h', busCheck_of_lowest ha],
   fun h h' a ha => by
    simp [windowsCheck, (rangeCheck_eq_none _ _ 0#32).2 h.1, (rangeCheck_eq_none _ _ 1#32).2 h',
      (busCheck_eq_none _ _ _).2 h.2, busCheck_of_lowest ha],
   fun h h' ha => by
    simp [windowsCheck, (rangeCheck_eq_none _ _ 0#32).2 h.1, (rangeCheck_eq_none _ _ 1#32).2 h'.1,
      (busCheck_eq_none _ _ _).2 h.2, (busCheck_eq_none _ _ _).2 h'.2, overlapCheck_of_not ha]⟩

theorem dstFullCheck_eq_none (s : State) (needed : Nat) : dstFullCheck s needed = none ↔ needed ≤ s.dstCap.toNat := by
  simp [dstFullCheck]

theorem dstFullCheck_of_lt {s : State} {needed : Nat} (h : s.dstCap.toNat < needed) :
    dstFullCheck s needed = some ⟨.dstFull, sat32 needed⟩ := raiseIf_pos _ _ h

theorem truncatedCheck_eq_none (s : State) (needed : Nat) :
    truncatedCheck s needed = none ↔ needed ≤ s.srcLen.toNat := by
  simp [truncatedCheck]

theorem truncatedCheck_of_lt {s : State} {needed : Nat} (h : s.srcLen.toNat < needed) :
    truncatedCheck s needed = some ⟨.truncated, sat32 needed⟩ := raiseIf_pos _ _ h

theorem length_srcBytes (s : State) : (srcBytes s).length = s.srcLen.toNat := by simp [srcBytes]

/-- A scan for an error finds that of the first element which has one. -/
theorem findSome?_first {α : Type} {l : List α} {f : α → Option CmdError} {e : CmdError} (o : Nat) (h : o < l.length)
    (he : f l[o] = some e) (hb : ∀ k, ∀ hk : k < o, f (l[k]'(Nat.lt_trans hk h)) = none) : l.findSome? f = some e := by
  induction l generalizing o with
  | nil => simp at h
  | cons x xs ih =>
    cases o with
    | zero =>
      simp only [List.getElem_cons_zero] at he
      simp [List.findSome?, he]
    | succ o =>
      have h0 := hb 0 (by omega)
      simp only [List.getElem_cons_zero] at h0
      simp only [List.findSome?, h0]
      exact ih o (by simpa using h) (by simpa using he) fun k hk => by simpa using hb (k + 1) (by omega)

/-! ### The validity flags -/

@[simp] theorem needTree_eq_none (s : State) : needTree s = none ↔ s.treeValid = true := by
  cases h : s.treeValid <;> simp [needTree, sequenceCheck, flagBit, h]

@[simp] theorem needCodes_eq_none (s : State) : needCodes s = none ↔ s.codesValid = true := by
  cases h : s.codesValid <;> simp [needCodes, sequenceCheck, flagBit, h]

@[simp] theorem needCodesAndHdr_eq_none (s : State) :
    needCodesAndHdr s = none ↔ s.codesValid = true ∧ s.hdrValid = true := by
  cases h : s.codesValid <;> cases h' : s.hdrValid <;> simp [needCodesAndHdr, sequenceCheck, flagBit, h, h']

end Sys2Proof.Machine
end

