-- ==== Sys2Proof/Laws/Completion.lean ====
section
/-! SUPPORT. What the completion of a command can be, said once: an error that changes only the bookkeeping, or the state
its rule leaves (40_control.md R134). -/

namespace Sys2Proof.Machine

theorem completeOk_eq_doneState (t : State) : completeOk t = doneState t := rfl

theorem takeError_eq_failedState (s : State) (r : Raised) :
    takeError s r = failedState s r.stage (errByte r.err.code) r.err.info := rfl

/-- The number of an error code is from 1 to 0x12 (60_exceptions.md R211). -/
theorem errByte_bounds (e : ErrCode) : 1 ≤ (errByte e).toNat ∧ (errByte e).toNat ≤ 0x12 := by
  cases e <;> decide

theorem errByte_ne_zero (e : ErrCode) : errByte e ≠ 0#8 := by cases e <;> decide

/-- The result of each command's rule, with the stage of an error. -/
def runOf (i : Instr) (s : State) : Except Raised State :=
  match i with
  | .nop => atStage (opcodeOf .nop) (nopRule s)
  | .sreset => atStage (opcodeOf .sreset) (sresetRule s)
  | .histClear => atStage (opcodeOf .histClear) (histClearRule s)
  | .histAccum => atStage (opcodeOf .histAccum) (histAccumRule s)
  | .histByte sym => atStage (opcodeOf (.histByte sym)) (histByteRule sym s)
  | .treeBuild => atStage (opcodeOf .treeBuild) (treeBuildRule s)
  | .codeAssign => atStage (opcodeOf .codeAssign) (codeAssignRule s)
  | .hdrWrite => atStage (opcodeOf .hdrWrite) (hdrWriteRule s)
  | .hdrRead => atStage (opcodeOf .hdrRead) (hdrReadRule s)
  | .packReset => atStage (opcodeOf .packReset) (packResetRule s)
  | .packSym sym last => atStage (opcodeOf (.packSym sym last)) (packSymRule sym last s)
  | .packBlock last => atStage (opcodeOf (.packBlock last)) (packBlockRule last s)
  | .packFlush => atStage (opcodeOf .packFlush) (packFlushRule s)
  | .unpack => atStage (opcodeOf .unpack) (unpackRule s)
  | .encode => encodeRun s
  | .decode => decodeRun s

/-- Every arm of exec is the completion of its command's rule. -/
theorem exec_eq_complete (i : Instr) (s : State) : exec i s = complete s (runOf i s) := by cases i <;> rfl

/-- What exec can do: the error its rule raises, or the state its rule leaves; always a next state. -/
theorem exec_cases {i : Instr} {s t : State} (h : exec i s = .next t) :
    (∃ e, runOf i s = .error e ∧ t = takeError s e) ∨ (∃ u, runOf i s = .ok u ∧ t = completeOk u) := by
  rw [exec_eq_complete] at h
  cases hr : runOf i s with
  | error e => rw [hr] at h; injection h with h; exact .inl ⟨e, rfl, h.symm⟩
  | ok u => rw [hr] at h; injection h with h; exact .inr ⟨u, rfl, h.symm⟩

theorem exec_of_ok {i : Instr} {s u : State} (h : runOf i s = .ok u) : exec i s = .next (completeOk u) := by
  rw [exec_eq_complete, h]; rfl

theorem exec_of_error {i : Instr} {s : State} {e : Raised} (h : runOf i s = .error e) :
    exec i s = .next (takeError s e) := by
  rw [exec_eq_complete, h]; rfl

/-- A command that runs to a success leaves the state of its rule, with the bookkeeping. -/
theorem runsOk_iff {i : Instr} {s t : State} : runsOk i s t ↔ ∃ u, runOf i s = .ok u ∧ t = completeOk u := by
  constructor
  · rintro ⟨h, he⟩
    rcases exec_cases h with ⟨e, -, rfl⟩ | h
    · exact absurd he (errByte_ne_zero _)
    · exact h
  · rintro ⟨u, hu, rfl⟩
    exact ⟨exec_of_ok hu, rfl⟩

@[simp] theorem atStage_eq_ok {stage : Byte} {r : Except CmdError State} {t : State} :
    atStage stage r = .ok t ↔ r = .ok t := by
  cases r <;> simp [atStage]

@[simp] theorem atStage_eq_error {stage : Byte} {r : Except CmdError State} {e : Raised} :
    atStage stage r = .error e ↔ ∃ c, r = .error c ∧ e = ⟨stage, c⟩ := by
  cases r <;> simp [atStage, eq_comm]

/-- A guarded rule succeeds exactly when its checks pass, and then leaves its effect. -/
@[simp] theorem guarded_eq_ok {check : State → Option CmdError} {effect : State → State} {s t : State} :
    guarded check effect s = .ok t ↔ check s = none ∧ effect s = t := by
  unfold guarded; split <;> simp_all

@[simp] theorem guarded_eq_error {check : State → Option CmdError} {effect : State → State} {s : State} {e : CmdError} :
    guarded check effect s = .error e ↔ check s = some e := by
  unfold guarded; split <;> simp_all

@[simp] theorem runSteps_nil (s : State) : runSteps [] s = .ok s := rfl

/-- A list of steps succeeds exactly when its first step does and the others do from there. -/
@[simp] theorem runSteps_cons_ok {stage : Byte} {rule : Rule} {rest : List (Byte × Rule)} {s t : State} :
    runSteps ((stage, rule) :: rest) s = .ok t ↔ ∃ u, rule s = .ok u ∧ runSteps rest u = .ok t := by
  cases h : rule s <;> simp [runSteps, h]

@[simp] theorem runSteps_cons_error {stage : Byte} {rule : Rule} {rest : List (Byte × Rule)} {s : State} {e : Raised} :
    runSteps ((stage, rule) :: rest) s = .error e ↔
      (∃ c, rule s = .error c ∧ e = ⟨stage, c⟩) ∨ ∃ u, rule s = .ok u ∧ runSteps rest u = .error e := by
  cases h : rule s <;> simp [runSteps, h, eq_comm]

theorem decodeRun_eq_ok {s t : State} :
    decodeRun s = .ok t ↔ bothUsable s ∧ ∃ u, hdrReadRule s = .ok u ∧ unpackRule u = .ok t := by
  unfold decodeRun runComposite
  rw [← windowsCheck_eq_none]
  cases windowsCheck s <;> simp [decodeSteps]

theorem encodeRun_of_empty {s : State} (h : s.srcLen = 0#32) : encodeRun s = .ok { s with outPtr := 0#32 } := by
  simp [encodeRun, h]

theorem encodeRun_eq_ok {s t : State} (h : s.srcLen ≠ 0#32) :
    encodeRun s = .ok t ↔ bothUsable s ∧ ∃ s1 s2 s3 s4 s5 s6, histClearRule s = .ok s1 ∧ histAccumRule s1 = .ok s2 ∧
      treeBuildRule s2 = .ok s3 ∧ codeAssignRule s3 = .ok s4 ∧ hdrWriteRule s4 = .ok s5 ∧
      packResetRule s5 = .ok s6 ∧ packBlockRule true s6 = .ok t := by
  unfold encodeRun runComposite
  rw [if_neg h, ← windowsCheck_eq_none]
  cases windowsCheck s <;> simp [encodeSteps]

end Sys2Proof.Machine
end

