-- ==== Sys2Proof/Laws/CodeWords.lean ====
section
/-! SUPPORT. Packed code words and big-endian fields: what they hold, and that reading undoes writing (30_encoding.md R113,
R117; 46_container.md R191, R192). -/

namespace Sys2Proof.Machine

theorem codeSum_cons (b : Bool) (rest : Bits) : codeSum (b :: rest) = b.toNat * 2 ^ (rest.length + 1) + codeSum rest := by
  simp [codeSum, Nat.shiftLeft_eq]

theorem codeSum_lt (code : Bits) : codeSum code < 2 ^ (code.length + 1) := by
  induction code with
  | nil => simp [codeSum]
  | cons b rest ih =>
    rw [codeSum_cons, List.length_cons, pow_succ]
    cases b <;> simp <;> omega

theorem codeSum_even (code : Bits) : (codeSum code).testBit 0 = false := by
  induction code with
  | nil => simp [codeSum]
  | cons b rest ih =>
    have h2 : b.toNat * 2 ^ (rest.length + 1) = 2 * (b.toNat * 2 ^ rest.length) := by ring
    rw [codeSum_cons, h2]
    simp only [Nat.testBit_zero, decide_eq_false_iff_not] at ih ⊢
    omega

/-- Bit L - j of the sum is bit j of the code. -/
theorem codeSum_testBit (code : Bits) (j : Nat) (h : j < code.length) : (codeSum code).testBit (code.length - j) = code[j] := by
  induction code generalizing j with
  | nil => simp at h
  | cons b rest ih =>
    rw [codeSum_cons, Nat.mul_comm]
    have hlt := codeSum_lt rest
    cases j with
    | zero =>
      simp only [List.length_cons, Nat.sub_zero, List.getElem_cons_zero]
      rw [Nat.testBit_two_pow_mul_add _ hlt, if_neg (by omega), Nat.sub_self]
      cases b <;> simp
    | succ j =>
      simp only [List.length_cons, List.getElem_cons_succ] at h ⊢
      rw [Nat.testBit_two_pow_mul_add _ hlt, if_pos (by omega), show rest.length + 1 - (j + 1) = rest.length - j by omega]
      exact ih j (by omega)

/-- The bits of the code word of a code of at most 23 bits. -/
theorem codeWord_getLsbD (code : Bits) (h : code.length ≤ 23) (k : Nat) :
    (codeWord code).getLsbD k = if k < 24 then (codeSum code).testBit k else decide (k < 32) && code.length.testBit (k - 24) := by
  have hlt : codeSum code < 2 ^ 24 := lt_of_lt_of_le (codeSum_lt code) (Nat.pow_le_pow_right (by omega) (by omega))
  simp only [codeWord, BitVec.getLsbD_ofNat, Nat.testBit_or, Nat.testBit_shiftLeft]
  by_cases hk : k < 24
  · have h1 : k < 32 := by omega
    have h2 : ¬ 24 ≤ k := by omega
    simp [hk, h1, h2]
  · have h2 : 24 ≤ k := by omega
    have : (codeSum code).testBit k = false := Nat.testBit_lt_two_pow (lt_of_lt_of_le hlt (Nat.pow_le_pow_right (by omega) (by omega)))
    simp [hk, h2, this]

theorem wordLen_codeWord (code : Bits) (h : code.length ≤ 23) : wordLen (codeWord code) = code.length := by
  have : (codeWord code).extractLsb' 24 8 = BitVec.ofNat 8 code.length := by
    refine BitVec.eq_of_getLsbD_eq fun i hi => ?_
    rw [BitVec.getLsbD_extractLsb', codeWord_getLsbD code h, if_neg (by omega), BitVec.getLsbD_ofNat]
    simp [hi]; omega
  rw [wordLen, this, BitVec.toNat_ofNat]
  omega

/-- Reading a word that agrees with a code word in its length byte and its code bits gives the code (R117, R192). -/
theorem wordCode_of_agree (code : Bits) (h : code.length ≤ 23) (w : Word) (hl : w.extractLsb' 24 8 = BitVec.ofNat 8 code.length)
    (hb : ∀ j, 1 ≤ j → j ≤ code.length → w.getLsbD j = (codeWord code).getLsbD j) : wordLen w = code.length ∧ wordCode w = code := by
  have hlen : wordLen w = code.length := by rw [wordLen, hl, BitVec.toNat_ofNat]; omega
  refine ⟨hlen, List.ext_getElem (by simp [wordCode, hlen]) fun j h1 h2 => ?_⟩
  simp only [wordCode, List.getElem_map, List.getElem_range, hlen]
  rw [hb _ (by omega) (by omega), codeWord_getLsbD code h, if_pos (by omega)]
  exact codeSum_testBit code j h2

@[simp] theorem wordCode_codeWord (code : Bits) (h : code.length ≤ 23) : wordCode (codeWord code) = code := by
  refine (wordCode_of_agree code h _ ?_ fun _ _ _ => rfl).2
  have := wordLen_codeWord code h
  refine BitVec.eq_of_toNat_eq ?_
  rw [BitVec.toNat_ofNat, Nat.mod_eq_of_lt (by omega)]
  exact this

/-! ### Big-endian fields -/

theorem be32_toNat (a b c d : Byte) :
    (be32 a b c d).toNat = 2 ^ 24 * a.toNat + 2 ^ 16 * b.toNat + 2 ^ 8 * c.toNat + d.toNat := by
  have := a.isLt
  have := b.isLt
  have := c.isLt
  have := d.isLt
  rw [be32, BitVec.toNat_ofNat]
  omega

@[simp] theorem length_bytesOf32 (v : Word) : (bytesOf32 v).length = 4 := rfl

/-- The four bytes of a word put together again (R12, R113). -/
theorem be32_bytesOf32 (v : Word) :
    be32 (v.extractLsb' 24 8) (v.extractLsb' 16 8) (v.extractLsb' 8 8) (v.extractLsb' 0 8) = v := by
  refine BitVec.eq_of_toNat_eq ?_
  have := v.isLt
  simp only [be32_toNat, BitVec.extractLsb'_toNat, Nat.shiftRight_eq_div_pow]
  omega

theorem get32_toNat (s : State) (o : Nat) : (get32 s o).toNat = srcWord s o := be32_toNat _ _ _ _

end Sys2Proof.Machine
end

