-- ==== Sys2Proof/Laws/Container.lean ====
section
/-! SUPPORT. The entries of a code table and the header's length (46_container.md R190), the entries HDR_READ reads and the
table they make (R191 to R193). -/

namespace Sys2Proof.Machine

/-! ### The entries of a table -/

/-- The entries are the coded symbols in ascending order, each with its code (30_encoding.md R119). -/
theorem tableEntries_eq (ct : Table Bits) : tableEntries ct = (codedSymbols ct).map fun sym => (sym, tableGet ct sym) := by
  simp only [tableEntries, codedSymbols, tableRows_eq, List.filter_map]
  rfl

theorem length_tableEntries (ct : Table Bits) : (tableEntries ct).length = (codedSymbols ct).length := by
  simp [tableEntries_eq]

theorem codedSymbols_length_le (ct : Table Bits) : (codedSymbols ct).length ≤ 256 :=
  (List.length_filter_le _ _).trans (by rw [length_allSymbols])

theorem mem_codedSymbols (ct : Table Bits) (sym : Byte) : sym ∈ codedSymbols ct ↔ tableGet ct sym ≠ [] := by
  simp [codedSymbols]

theorem pairwise_codedSymbols (ct : Table Bits) : (codedSymbols ct).Pairwise fun a b => a.toNat < b.toNat :=
  pairwise_allSymbols.filter _

/-- The header takes 14 + 5N bytes (30_encoding.md R112). -/
theorem length_headerBytes (ct : Table Bits) (symbolCount payload : Nat) :
    (headerBytes ct symbolCount payload).length = hdrLen (codedSymbols ct).length := by
  have h : ∀ es : List (Byte × Bits), (es.flatMap entryBytes).length = 5 * es.length := by
    intro es
    induction es with
    | nil => rfl
    | cons e rest ih => simp [ih, entryBytes]; omega
  simp [headerBytes, hdrLen, h, length_tableEntries]
  omega

/-- Byte k of entry i, after the entries before it (R116). -/
theorem entryBytes_at (es : List (Byte × Bits)) (i k : Nat) (h : i < es.length) (hk : k < 5) :
    (es.flatMap entryBytes)[5 * i + k]? = (entryBytes es[i])[k]? := by
  induction es generalizing i with
  | nil => simp at h
  | cons e rest ih =>
    rw [List.flatMap_cons]
    cases i with
    | zero => rw [List.getElem?_append_left (by simp [entryBytes]; omega)]; simp
    | succ i =>
      rw [List.getElem?_append_right (by simp [entryBytes]; omega)]
      have : 5 * (i + 1) + k - (entryBytes e).length = 5 * i + k := by simp [entryBytes]; omega
      rw [this, ih i (by simpa using h)]
      simp

/-! ### Reading the entries -/

theorem entryCheck_eq_none (i : Nat) (sym : Byte) (w : Word) (before : List (Byte × Bits)) :
    entryCheck i sym w before = none ↔ (1 ≤ wordLen w ∧ wordLen w ≤ 23) ∧ (∀ e ∈ before, e.1 ≠ sym) ∧
      ∀ e ∈ before, ¬ (wordCode w <+: e.2) ∧ ¬ (e.2 <+: wordCode w) := by
  simp only [entryCheck, Option.or_eq_none_iff, raiseIf_eq_none, List.any_eq_true, prefixClash,
    Bool.or_eq_true, List.isPrefixOf_iff_prefix, beq_iff_eq, not_exists, not_and, not_or]
  refine and_congr ?_ Iff.rfl
  simp only [Config.maxCodeLen]
  omega

theorem readEntry_ok {s : State} {i : Nat} {before : List (Byte × Bits)} {e : Byte × Bits} :
    readEntry s i before = .ok e ↔
      entryCheck i (srcByte s (6 + 5 * i)) (get32 s (7 + 5 * i)) before = none ∧
      e = (srcByte s (6 + 5 * i), wordCode (get32 s (7 + 5 * i))) := by
  cases h : entryCheck i (srcByte s (6 + 5 * i)) (get32 s (7 + 5 * i)) before <;> simp [readEntry, h, eq_comm]

theorem readEntry_error {s : State} {i : Nat} {before : List (Byte × Bits)} {e : CmdError} :
    readEntry s i before = .error e ↔
      entryCheck i (srcByte s (6 + 5 * i)) (get32 s (7 + 5 * i)) before = some e := by
  cases h : entryCheck i (srcByte s (6 + 5 * i)) (get32 s (7 + 5 * i)) before <;> simp [readEntry, h]

theorem readEntries_succ (s : State) (n i : Nat) (before : List (Byte × Bits)) :
    readEntries s (n + 1) i before =
      (readEntry s i before).bind fun e => readEntries s n (i + 1) (before ++ [e]) := rfl

/-- Entries that stand in the SRC window, each good and agreeing with none before it, are read in order. -/
theorem readEntries_ok {s : State} (more before : List (Byte × Bits)) (n i : Nat)
    (hr : ∀ k, ∀ h : k < more.length, srcByte s (6 + 5 * (i + k)) = more[k].1 ∧
      wordCode (get32 s (7 + 5 * (i + k))) = more[k].2 ∧ 1 ≤ wordLen (get32 s (7 + 5 * (i + k))) ∧
      wordLen (get32 s (7 + 5 * (i + k))) ≤ 23)
    (hp : (before ++ more).Pairwise fun e f => e.1 ≠ f.1 ∧ ¬ (e.2 <+: f.2) ∧ ¬ (f.2 <+: e.2)) :
    readEntries s (more.length + n) i before = readEntries s n (i + more.length) (before ++ more) := by
  induction more generalizing before i with
  | nil => simp
  | cons e rest ih =>
    have h0 := hr 0 (by simp)
    simp only [Nat.add_zero, List.getElem_cons_zero] at h0
    obtain ⟨h1, h2, h3, h4⟩ := h0
    have hck : entryCheck i (srcByte s (6 + 5 * i)) (get32 s (7 + 5 * i)) before = none := by
      rw [entryCheck_eq_none]
      have hcross := (List.pairwise_append.1 hp).2.2
      refine ⟨⟨h3, h4⟩, fun f hf => ?_, fun f hf => ?_⟩
      · rw [h1]; exact (hcross f hf e (by simp)).1
      · rw [h2]; exact ⟨(hcross f hf e (by simp)).2.2, (hcross f hf e (by simp)).2.1⟩
    have hre : readEntry s i before = .ok e := readEntry_ok.2 ⟨hck, by rw [h1, h2]⟩
    rw [show (e :: rest).length + n = (rest.length + n) + 1 by simp; omega, readEntries_succ, hre, Except.bind,
      ih (before ++ [e]) (i + 1) ?_ (by simpa using hp)]
    · simp only [List.append_assoc, List.cons_append, List.nil_append, List.length_cons]
      congr 1
      omega
    · intro k hk
      have := hr (k + 1) (by simp; omega)
      simp only [List.getElem_cons_succ] at this
      rw [show i + 1 + k = i + (k + 1) by omega]
      exact this

/-- Entries read without an error are good, and agree with none before them. -/
theorem readEntries_good {s : State} (n i : Nat) (before es : List (Byte × Bits))
    (hb : (∀ e ∈ before, 1 ≤ e.2.length ∧ e.2.length ≤ 23) ∧
      before.Pairwise fun e f => e.1 ≠ f.1 ∧ ¬ (e.2 <+: f.2) ∧ ¬ (f.2 <+: e.2))
    (h : readEntries s n i before = .ok es) :
    es.length = before.length + n ∧ (∀ e ∈ es, 1 ≤ e.2.length ∧ e.2.length ≤ 23) ∧
      es.Pairwise fun e f => e.1 ≠ f.1 ∧ ¬ (e.2 <+: f.2) ∧ ¬ (f.2 <+: e.2) := by
  induction n generalizing i before with
  | zero => injection h with h; subst h; exact ⟨rfl, hb⟩
  | succ n ih =>
    rw [readEntries_succ] at h
    cases hre : readEntry s i before with
    | error e => rw [hre] at h; cases h
    | ok e =>
      rw [hre] at h
      obtain ⟨hck, rfl⟩ := readEntry_ok.1 hre
      obtain ⟨h1, h2, h3⟩ := (entryCheck_eq_none _ _ _ _).1 hck
      have := ih (i + 1) _ ?_ h
      · refine ⟨by rw [this.1]; simp; omega, this.2⟩
      · refine ⟨fun e he => ?_, List.pairwise_append.2 ⟨hb.2, by simp, fun e he f hf => ?_⟩⟩
        · rcases List.mem_append.1 he with he | he
          · exact hb.1 e he
          · obtain rfl := List.mem_singleton.1 he
            simp only [wordCode, List.length_map, List.length_range]
            exact h1
        · obtain rfl := List.mem_singleton.1 hf
          exact ⟨h2 e he, (h3 e he).2, (h3 e he).1⟩

/-- The first entry that fails a check decides the error. -/
theorem readEntries_error {s : State} (more before : List (Byte × Bits)) (n i : Nat) (e : CmdError)
    (hr : ∀ k, ∀ h : k < more.length, srcByte s (6 + 5 * (i + k)) = more[k].1 ∧
      wordCode (get32 s (7 + 5 * (i + k))) = more[k].2 ∧ 1 ≤ wordLen (get32 s (7 + 5 * (i + k))) ∧
      wordLen (get32 s (7 + 5 * (i + k))) ≤ 23)
    (hp : (before ++ more).Pairwise fun e f => e.1 ≠ f.1 ∧ ¬ (e.2 <+: f.2) ∧ ¬ (f.2 <+: e.2))
    (he : entryCheck (i + more.length) (srcByte s (6 + 5 * (i + more.length))) (get32 s (7 + 5 * (i + more.length)))
      (before ++ more) = some e) : readEntries s (more.length + (n + 1)) i before = .error e := by
  rw [readEntries_ok more before (n + 1) i hr hp, readEntries_succ, readEntry_error.2 he]
  rfl

/-- The table of entries with distinct symbols holds exactly them. -/
theorem tableIs_tableOfEntries {es : List (Byte × Bits)} (h : es.Pairwise fun e f => e.1 ≠ f.1) :
    tableIs (tableOfEntries es) es := by
  have aux : ∀ (es : List (Byte × Bits)) (t : Table Bits), (es.Pairwise fun e f => e.1 ≠ f.1) →
      (∀ e ∈ es, tableGet (es.foldl (fun ct e => tableSet ct e.1 e.2) t) e.1 = e.2) ∧
      ∀ sym, (∀ e ∈ es, e.1 ≠ sym) → tableGet (es.foldl (fun ct e => tableSet ct e.1 e.2) t) sym = tableGet t sym := by
    intro es
    induction es with
    | nil => intro t _; simp
    | cons d rest ih =>
      intro t hp
      obtain ⟨h1, h2⟩ := List.pairwise_cons.1 hp
      obtain ⟨i1, i2⟩ := ih (tableSet t d.1 d.2) h2
      refine ⟨fun e he => ?_, fun sym hs => ?_⟩
      · rcases List.mem_cons.1 he with rfl | he
        · rw [List.foldl_cons, i2 e.1 fun f hf => (h1 f hf).symm, tableGet_set_same]
        · exact i1 e he
      · rw [List.foldl_cons, i2 sym fun e he => hs e (by simp [he])]
        exact tableGet_set_ne _ _ (hs d (by simp)).symm
  have := aux es (tableFill []) h
  exact ⟨this.1, fun sym hs => by rw [tableOfEntries, this.2 sym hs, tableGet_fill]⟩

theorem tableIs_unique {ct ct' : Table Bits} {es : List (Byte × Bits)} (h : tableIs ct es) (h' : tableIs ct' es) :
    ct = ct' := by
  refine table_ext fun sym => ?_
  by_cases hs : ∃ e ∈ es, e.1 = sym
  · obtain ⟨e, he, rfl⟩ := hs
    rw [h.1 e he, h'.1 e he]
  · have : ∀ e ∈ es, e.1 ≠ sym := fun e he hes => hs ⟨e, he, hes⟩
    rw [h.2 sym this, h'.2 sym this]

/-- A table of good entries is usable (10_state.md R55). -/
theorem tableUsable_of_entries {ct : Table Bits} {es : List (Byte × Bits)} (h : tableIs ct es) (hn : es ≠ [])
    (hl : ∀ e ∈ es, 1 ≤ e.2.length ∧ e.2.length ≤ 23)
    (hp : es.Pairwise fun e f => e.1 ≠ f.1 ∧ ¬ (e.2 <+: f.2) ∧ ¬ (f.2 <+: e.2)) : tableUsable ct := by
  have hcoded : ∀ sym, tableGet ct sym ≠ [] → ∃ e ∈ es, e.1 = sym := by
    intro sym hs
    by_contra hne
    exact hs (h.2 sym fun e he hes => hne ⟨e, he, hes⟩)
  refine ⟨?_, fun sym => ?_, fun a b hab ha hb hpre => ?_⟩
  · obtain ⟨e, he⟩ := List.exists_mem_of_ne_nil es hn
    refine ⟨e.1, fun h0 => ?_⟩
    rw [h.1 e he] at h0
    have := (hl e he).1
    rw [h0] at this
    simp at this
  · by_cases hs : tableGet ct sym = []
    · simp [hs]
    · obtain ⟨e, he, rfl⟩ := hcoded sym hs
      rw [h.1 e he]
      exact (hl e he).2
  · obtain ⟨e, he, rfl⟩ := hcoded a ha
    obtain ⟨f, hf, rfl⟩ := hcoded b hb
    rw [h.1 e he, h.1 f hf] at hpre
    have hef : e ≠ f := fun h => hab (by rw [h])
    obtain ⟨x, hx, rfl⟩ := List.getElem_of_mem he
    obtain ⟨y, hy, rfl⟩ := List.getElem_of_mem hf
    rw [List.pairwise_iff_getElem] at hp
    rcases Nat.lt_trichotomy x y with hxy | hxy | hxy
    · exact (hp x y hx hy hxy).2.1 hpre
    · subst hxy; exact hef rfl
    · exact (hp y x hy hx hxy).2.2 hpre

end Sys2Proof.Machine
end

