-- ==== Sys2Proof/Laws/Host.lean ====
section
/-! SUPPORT. What the steps of the two agents do, said once (40_control.md R130 to R134): the register a host address
reaches, the host's four accesses, the core's turn. -/

namespace Sys2Proof.Machine

/-- A host address of a register reaches its offset (10_state.md R22). -/
theorem regOffset_of_addressesReg {s : State} {addr : Word} {o : Nat} (h : addressesReg s addr o) (ho : o < 256)
    (h4 : o % 4 = 0) : regOffset s addr = some o := by
  obtain ⟨b, hb, rfl⟩ := h
  have hd : (s.regBase + BitVec.ofNat 32 (o + b) - s.regBase).toNat = o + b := by
    rw [BitVec.add_comm, BitVec.add_sub_cancel, BitVec.toNat_ofNat]
    omega
  unfold regOffset
  rw [hd, if_pos (by omega)]
  congr 1
  omega

theorem regOffset_eq_none {s : State} {addr : Word} (h : 256 ≤ (addr - s.regBase).toNat) : regOffset s addr = none := by
  unfold regOffset
  rw [if_neg (by omega)]

@[simp] theorem regOffset_turns (s : State) (rest : List Turn) (addr : Word) :
    regOffset { s with turns := rest } addr = regOffset s addr := rfl

/-! ### The host's steps -/

/-- A host register write stores at the offset its address reaches. -/
theorem step_regWrite {s : State} {addr v : Word} {rest : List Turn} {o : Nat}
    (ht : s.turns = .regWrite addr v :: rest) (ho : regOffset s addr = some o) :
    step s = .next (regStore { s with turns := rest } o v) := by
  unfold step
  rw [ht]
  simp only [hostRegWrite, regOffset_turns, ho]

/-- A host register access outside the window stops (log 5). -/
theorem step_regWrite_missed {s : State} {addr v : Word} {rest : List Turn} (ht : s.turns = .regWrite addr v :: rest)
    (h : 256 ≤ (addr - s.regBase).toNat) : step s = .fault (.registerWindowMissed addr) := by
  unfold step
  rw [ht]
  simp only [hostRegWrite, regOffset_turns, regOffset_eq_none h]

@[inherit_doc step_regWrite_missed]
theorem step_regRead_missed {s : State} {addr : Word} {rest : List Turn} (ht : s.turns = .regRead addr :: rest)
    (h : 256 ≤ (addr - s.regBase).toNat) : step s = .fault (.registerWindowMissed addr) := by
  unfold step
  rw [ht]
  simp only [hostRegRead, regOffset_turns, regOffset_eq_none h]

/-- A host register read takes the value at the offset its address reaches, and changes nothing else. -/
theorem step_regRead {s : State} {addr : Word} {rest : List Turn} {o : Nat}
    (ht : s.turns = .regRead addr :: rest) (ho : regOffset s addr = some o) :
    step s = .next { s with turns := rest, readData := regValue s o } := by
  unfold step
  rw [ht]
  simp only [hostRegRead, regOffset_turns, ho]
  rfl

/-- A host memory read that backing and the host duty of R87 allow. -/
theorem step_memRead {s : State} {addr : Word} {rest : List Turn} (ht : s.turns = .memRead addr :: rest)
    (hb : memBacked s addr.toNat = true) (hm : hostMayRead s addr = true) :
    step s = .next { s with turns := rest, readData := (readByte s.mem addr.toNat).setWidth 32 } := by
  have hb' : memBacked { s with turns := rest } addr.toNat = true := hb
  have hm' : hostMayRead { s with turns := rest } addr = true := hm
  unfold step
  rw [ht]
  simp only [hostMemRead, hb', hm']
  rfl

/-- A host memory write that backing and the host duty of R87 allow. -/
theorem step_memWrite {s : State} {addr : Word} {v : Byte} {rest : List Turn} (ht : s.turns = .memWrite addr v :: rest)
    (hb : memBacked s addr.toNat = true) (hm : hostMayWrite s addr = true) :
    step s = .next { s with turns := rest, mem := writeByte s.mem addr.toNat v } := by
  have hb' : memBacked { s with turns := rest } addr.toNat = true := hb
  have hm' : hostMayWrite { s with turns := rest } addr = true := hm
  unfold step
  rw [ht]
  simp only [hostMemWrite, hb', hm']
  rfl

/-! ### The core's turn and the reset input -/

theorem step_core {s : State} {rest : List Turn} (ht : s.turns = .core :: rest) :
    step s = coreStep { s with turns := rest } := by
  unfold step
  rw [ht]

theorem step_noTurns {s : State} (ht : s.turns = []) : step s = coreStep s := by
  unfold step
  rw [ht]

theorem step_reset {s : State} {rest : List Turn} (ht : s.turns = .reset :: rest) :
    step s = .next (hardwareReset { s with turns := rest }) := by
  unfold step
  rw [ht]

/-- While BUSY the core completes the command word accepted. -/
theorem coreStep_busy {s : State} (h : s.busy = true) : coreStep s = completion s := by simp [coreStep, h]

/-- While idle the core's turn does nothing. -/
theorem coreStep_idle {s : State} (h : s.busy = false) : coreStep s = .next s := by simp [coreStep, h]

theorem completion_legal {s : State} {i : Instr} (h : decode s.cmdLast = .ok i) : completion s = exec i s := by
  simp [completion, h]

theorem completion_illegal {s : State} {e : Reject} (h : decode s.cmdLast = .error e) :
    completion s = .next (takeError s (illegalCommand s.cmdLast)) := by
  simp [completion, h, complete]

/-- What the core's turn can do when it answers a next state: nothing while idle; else an error taken, or the state the
rule of the decoded command leaves. -/
theorem coreStep_cases {s t : State} (h : coreStep s = .next t) :
    (s.busy = false ∧ t = s) ∨ (s.busy = true ∧ ∃ e, t = takeError s e) ∨
    (s.busy = true ∧ ∃ i u, decode s.cmdLast = .ok i ∧ runOf i s = .ok u ∧ t = completeOk u) := by
  cases hb : s.busy with
  | false =>
    rw [coreStep_idle hb] at h
    injection h with h
    exact .inl ⟨rfl, h.symm⟩
  | true =>
    rw [coreStep_busy hb] at h
    cases hd : decode s.cmdLast with
    | error e =>
      rw [completion_illegal hd] at h
      injection h with h
      exact .inr (.inl ⟨rfl, _, h.symm⟩)
    | ok i =>
      rw [completion_legal hd] at h
      rcases exec_cases h with ⟨e, -, rfl⟩ | ⟨u, hu, rfl⟩
      · exact .inr (.inl ⟨rfl, e, rfl⟩)
      · exact .inr (.inr ⟨rfl, i, u, rfl, hu, rfl⟩)

/-- The core's turn while BUSY clears BUSY and sets DONE (R134). -/
theorem coreStep_completes {s t : State} (hb : s.busy = true) (h : coreStep s = .next t) :
    t.busy = false ∧ t.done = true := by
  rcases coreStep_cases h with ⟨hb', -⟩ | ⟨-, e, rfl⟩ | ⟨-, i, u, -, -, rfl⟩
  · rw [hb] at hb'; cases hb'
  · exact ⟨rfl, rfl⟩
  · exact ⟨rfl, rfl⟩

/-- While BUSY a host register write leaves the command accepted (R132, R133). -/
theorem regStore_busy {s : State} (hb : s.busy = true) (o : Nat) (v : Word) :
    (regStore s o v).busy = true ∧ (regStore s o v).cmdLast = s.cmdLast ∧ (regStore s o v).turns = s.turns := by
  unfold regStore
  split <;> simp [writeCmd, writeAck, writeIfIdle, hb]

/-- All that a step which answers a next state can do, over the state without its turn. -/
theorem step_cases {s t : State} (h : step s = .next t) :
    ∃ rest, (s.turns = [] ∧ rest = [] ∨ ∃ turn, s.turns = turn :: rest) ∧
      let q : State := { s with turns := rest }
      (coreStep q = .next t ∧ (s.turns = [] ∨ s.turns = .core :: rest)) ∨
      (t = hardwareReset q ∧ s.turns = .reset :: rest) ∨
      (∃ v, t = { q with readData := v }) ∨
      (∃ addr o v, t = regStore q o v ∧ s.turns = .regWrite addr v :: rest) ∨
      (∃ addr v, t = { q with mem := writeByte q.mem addr.toNat v } ∧ s.turns = .memWrite addr v :: rest) := by
  unfold step at h
  split at h
  · rename_i ht
    refine ⟨[], .inl ⟨ht, rfl⟩, .inl ⟨?_, .inl ht⟩⟩
    rwa [← ht]
  · rename_i rest ht
    exact ⟨rest, .inr ⟨_, ht⟩, .inl ⟨h, .inr ht⟩⟩
  · rename_i rest ht
    injection h with h
    exact ⟨rest, .inr ⟨_, ht⟩, .inr (.inl ⟨h.symm, ht⟩)⟩
  · rename_i addr rest ht
    refine ⟨rest, .inr ⟨_, ht⟩, .inr (.inr (.inl ?_))⟩
    unfold hostRegRead at h
    split at h
    · injection h with h; exact ⟨_, h.symm⟩
    · cases h
  · rename_i addr v rest ht
    refine ⟨rest, .inr ⟨_, ht⟩, .inr (.inr (.inr (.inl ?_)))⟩
    unfold hostRegWrite at h
    split at h
    · injection h with h; exact ⟨addr, _, v, h.symm, ht⟩
    · cases h
  · rename_i addr rest ht
    refine ⟨rest, .inr ⟨_, ht⟩, .inr (.inr (.inl ?_))⟩
    unfold hostMemRead at h
    split at h
    · cases h
    · split at h
      · cases h
      · injection h with h; exact ⟨_, h.symm⟩
  · rename_i addr v rest ht
    refine ⟨rest, .inr ⟨_, ht⟩, .inr (.inr (.inr (.inr ?_)))⟩
    unfold hostMemWrite at h
    split at h
    · cases h
    · split at h
      · cases h
      · injection h with h; exact ⟨addr, v, h.symm, ht⟩

/-- While BUSY a step of the host leaves the command accepted and takes one turn off (R130, R132, R133). -/
theorem step_host_busy {s t : State} {turn : Turn} {rest : List Turn} (hb : s.busy = true) (ht : s.turns = turn :: rest)
    (hc : turn ≠ .core) (hr : turn ≠ .reset) (h : step s = .next t) :
    t.busy = true ∧ t.cmdLast = s.cmdLast ∧ t.turns = rest := by
  obtain ⟨rest', ht', hs⟩ := step_cases h
  obtain rfl : rest' = rest := by
    rcases ht' with ⟨h0, -⟩ | ⟨turn', h1⟩
    · rw [ht] at h0; cases h0
    · rw [ht] at h1; injection h1 with _ h1; exact h1.symm
  rcases hs with ⟨-, h0 | h0⟩ | ⟨-, h0⟩ | ⟨v, rfl⟩ | ⟨addr, o, v, rfl, -⟩ | ⟨addr, v, rfl, -⟩
  · rw [ht] at h0; cases h0
  · rw [ht] at h0; injection h0 with h0; exact absurd h0 hc
  · rw [ht] at h0; injection h0 with h0; exact absurd h0 hr
  · exact ⟨hb, rfl, rfl⟩
  · exact regStore_busy (s := { s with turns := rest' }) hb o v
  · exact ⟨hb, rfl, rfl⟩

/-! ### Runs -/

/-- A run of one step more is a step and then the run. -/
theorem run_succ_next (M : Host.Core) (k : Nat) (s u : M.State) :
    M.run (k + 1) s = .next u ↔ ∃ t, M.step s = .next t ∧ M.run k t = .next u := by
  rw [Host.Core.run]
  cases M.step s <;> simp

@[inherit_doc run_succ_next]
theorem core_run_succ (k : Nat) (s u : State) :
    Sys2Proof.core.run (k + 1) s = .next u ↔ ∃ t, step s = .next t ∧ Sys2Proof.core.run k t = .next u :=
  run_succ_next Sys2Proof.core k s u

end Sys2Proof.Machine
end

