-- ==== Sys2Proof/Laws/Packer.lean ====
section
/-! SUPPORT. All that the bit writer's primitives do, said once: from a clean writer, PutCode, Flush and packing append bits to
the stream at OUT_PTR and change nothing else (44_packer.md R170 to R172). -/

namespace Sys2Proof.Machine

/-! ### What they leave alone -/

/-- Only memory, OUT_PTR and the partial byte may differ. -/
def sameButStream (s t : State) : Prop :=
  t = { s with mem := t.mem, outPtr := t.outPtr, pwByte := t.pwByte, pwCur := t.pwCur }

theorem sameButStream.refl (s : State) : sameButStream s s := rfl

theorem sameButStream.trans {s t u : State} (h1 : sameButStream s t) (h2 : sameButStream t u) : sameButStream s u := by
  unfold sameButStream at h1 h2 ⊢
  rw [h2, h1]

theorem putBit_same (s : State) (b : Bool) : sameButStream s (putBit s b) := by
  unfold putBit sameButStream
  dsimp only
  split <;> rfl

theorem putCode_same (s : State) (c : Bits) : sameButStream s (putCode s c) := by
  induction c generalizing s with
  | nil => rfl
  | cons b rest ih => exact (putBit_same s b).trans (ih (putBit s b))

theorem flush_same (s : State) : sameButStream s (flush s) := by
  unfold flush sameButStream
  split <;> rfl

theorem flushIf_same (last : Bool) (s : State) : sameButStream s (flushIf last s) := by
  cases last
  · rfl
  · exact flush_same s

/-! ### Bits of the stream -/

theorem length_pendingBits (s : State) : (pendingBits s).length = s.pwCur.toNat := by simp [pendingBits]

/-- Bit 7 - j of byte k of a stream is bit 8k + j of the stream (20_memory.md R79). -/
theorem streamByte_getLsbD (stream : Bits) (k j : Nat) (hj : j < 8) :
    (streamByte stream k).getLsbD (7 - j) = stream.getD (8 * k + j) false := by
  simp only [streamByte, List.range_succ, List.range_zero, List.nil_append, List.foldl_append, List.foldl_cons,
    List.foldl_nil, BitVec.getLsbD_or, BitVec.getLsbD_shiftLeft, BitVec.getLsbD_setWidth]
  interval_cases j <;> simp

/-- Two bytes that agree in every bit of the stream are equal. -/
theorem byte_ext_msb {a b : Byte} (h : ∀ j < 8, a.getLsbD (7 - j) = b.getLsbD (7 - j)) : a = b := by
  refine BitVec.eq_of_getLsbD_eq fun i hi => ?_
  have := h (7 - i) (by omega)
  rwa [show 7 - (7 - i) = i by omega] at this

theorem streamByte_append_left (p q : Bits) (k : Nat) (h : 8 * k + 8 ≤ p.length) :
    streamByte (p ++ q) k = streamByte p k := by
  refine byte_ext_msb fun j hj => ?_
  rw [streamByte_getLsbD _ _ _ hj, streamByte_getLsbD _ _ _ hj]
  simp only [List.getD_eq_getElem?_getD, List.getElem?_append_left (show 8 * k + j < p.length by omega)]

theorem streamByte_drop (stream : Bits) (n k : Nat) : streamByte (stream.drop (8 * n)) k = streamByte stream (n + k) := by
  refine byte_ext_msb fun j hj => ?_
  rw [streamByte_getLsbD _ _ _ hj, streamByte_getLsbD _ _ _ hj]
  simp only [List.getD_eq_getElem?_getD, List.getElem?_drop]
  congr 2
  omega

/-- A clean writer's partial byte is the byte of its pending bits. -/
theorem pwByte_eq_streamByte {s : State} (h : writerClean s) : s.pwByte = streamByte (pendingBits s) 0 := by
  refine byte_ext_msb fun j hj => ?_
  rw [streamByte_getLsbD _ _ _ hj]
  simp only [Nat.mul_zero, Nat.zero_add, List.getD_eq_getElem?_getD]
  by_cases hjc : j < s.pwCur.toNat
  · rw [List.getElem?_eq_getElem (by rw [length_pendingBits]; exact hjc)]
    simp [pendingBits]
  · rw [List.getElem?_eq_none (by rw [length_pendingBits]; omega)]
    exact h _ (by omega)

/-- A writer whose partial byte is the byte of some bits holds those bits, and is clean. -/
theorem pendingBits_eq {s : State} {l : Bits} (h : s.pwByte = streamByte l 0) (hl : l.length = s.pwCur.toNat) :
    pendingBits s = l ∧ writerClean s := by
  have hc := s.pwCur.isLt
  constructor
  · refine List.ext_getElem (by simp [length_pendingBits, hl]) fun j h1 h2 => ?_
    simp only [pendingBits, List.getElem_map, List.getElem_range, h]
    rw [streamByte_getLsbD _ _ _ (by omega)]
    simp [List.getD_eq_getElem?_getD, List.getElem?_eq_getElem h2]
  · intro k hk
    have := streamByte_getLsbD l 0 (7 - k) (by omega)
    rw [show 7 - (7 - k) = k by omega] at this
    rw [h, this, List.getD_eq_getElem?_getD, List.getElem?_eq_none (by omega)]
    rfl

/-! ### Appending to the stream -/

theorem packedOnto_nil {s : State} (h : writerClean s) : packedOnto s s [] false := by
  have hl := length_pendingBits s
  have hc := s.pwCur.isLt
  have hn : streamBytes (pendingBits s ++ []).length false = 0 := by simp [streamBytes, hl]; omega
  unfold packedOnto
  simp only [hn]
  exact ⟨rfl, fun k hk => absurd hk (Nat.not_lt_zero k), fun a _ => rfl, by simp, h⟩

/-- Appending after appending. -/
theorem packedOnto_trans {s t u : State} {a b : Bits} {last : Bool} (hd : t.dstBase = s.dstBase)
    (hd' : u.dstBase = t.dstBase)
    (h1 : packedOnto s t a false) (h2 : packedOnto t u b last) : packedOnto s u (a ++ b) last := by
  unfold packedOnto at h1 h2 ⊢
  simp only [Bool.false_eq_true, if_false] at h1
  obtain ⟨o1, w1, m1, p1, -⟩ := h1
  obtain ⟨o2, w2, m2, p2, c2⟩ := h2
  have e1 : streamBytes (pendingBits s ++ a).length false = (pendingBits s ++ a).length / 8 := by simp [streamBytes]
  rw [e1] at o1 w1 m1 p1
  have hsplit : 8 * ((pendingBits s ++ a).length / 8) ≤ (pendingBits s ++ a).length := Nat.mul_div_le _ _
  generalize hn1 : (pendingBits s ++ a).length / 8 = n1 at *
  have hpt : pendingBits t ++ b = (pendingBits s ++ (a ++ b)).drop (8 * n1) := by
    rw [p1, ← List.append_assoc, List.drop_append_of_le_length hsplit]
  have hlen : (pendingBits t ++ b).length = (pendingBits s ++ (a ++ b)).length - 8 * n1 := by
    rw [hpt, List.length_drop]
  have hle : 8 * n1 ≤ (pendingBits s ++ (a ++ b)).length := by
    rw [← List.append_assoc, List.length_append]
    omega
  have en : streamBytes (pendingBits s ++ (a ++ b)).length last = n1 + streamBytes (pendingBits t ++ b).length last := by
    unfold streamBytes
    rw [hlen]
    have hm : ((pendingBits s ++ (a ++ b)).length - 8 * n1) % 8 = (pendingBits s ++ (a ++ b)).length % 8 := by omega
    rw [hm]
    omega
  refine ⟨by rw [en]; omega, fun k hk => ?_, fun x hx => ?_, ?_, c2⟩
  · rw [en] at hk
    by_cases hk1 : k < n1
    · rw [← List.append_assoc, streamByte_append_left _ _ _ (by omega), ← w1 k hk1]
      unfold dstByte
      rw [hd']
      exact m2 _ (by omega)
    · have := w2 (k - n1) (by omega)
      rw [hpt, streamByte_drop, show n1 + (k - n1) = k by omega,
        show t.outPtr.toNat + (k - n1) = s.outPtr.toNat + k by omega] at this
      exact this
  · rw [m2 x (by rw [hd, o1, en] at *; omega), m1 x (by omega)]
  · rw [p2, en, hpt, List.drop_drop]
    split
    · rfl
    · congr 1; omega


/-- What PutBit does to a clean writer. -/
theorem putBit_packedOnto {s : State} (b : Bool) (h : writerClean s)
    (ho : s.outPtr.toNat + streamBytes (s.pwCur.toNat + 1) false < 2 ^ 32) : packedOnto s (putBit s b) [b] false := by
  have hc := s.pwCur.isLt
  have hl := length_pendingBits s
  have hlen : (pendingBits s ++ [b]).length = s.pwCur.toNat + 1 := by simp [hl]
  have hbyte : s.pwByte ||| ((BitVec.ofBool b).setWidth 8 <<< (7 - s.pwCur.toNat)) = streamByte (pendingBits s ++ [b]) 0 := by
    refine byte_ext_msb fun j hj => ?_
    rw [streamByte_getLsbD _ _ _ hj, BitVec.getLsbD_or, pwByte_eq_streamByte h, streamByte_getLsbD _ _ _ hj]
    simp only [Nat.mul_zero, Nat.zero_add, List.getD_eq_getElem?_getD, BitVec.getLsbD_shiftLeft,
      BitVec.getLsbD_setWidth, BitVec.getLsbD_ofBool]
    rcases Nat.lt_trichotomy j s.pwCur.toNat with hj1 | hj1 | hj1
    · rw [List.getElem?_append_left (by omega)]
      simp; omega
    · rw [List.getElem?_append_right (by omega), List.getElem?_eq_none (by omega)]
      simp [hj1, hl]; omega
    · rw [List.getElem?_eq_none (by omega), List.getElem?_eq_none (by omega)]
      simp; omega
  unfold putBit
  simp only [hbyte]
  split
  · rename_i h8
    unfold packedOnto
    have hn : streamBytes (pendingBits s ++ [b]).length false = 1 := by simp [streamBytes, hlen, h8]
    simp only [hn]
    refine ⟨?_, fun k hk => ?_, fun a ha => ?_, ?_, ?_⟩
    · simp only [emitByte, BitVec.toNat_add]
      rw [h8] at ho
      rw [Nat.mod_eq_of_lt (by simpa [streamBytes] using ho)]
      rfl
    · obtain rfl : k = 0 := by omega
      simp [dstByte, emitByte, dstWrite]
    · simp only [emitByte, dstWrite]
      exact readByte_writeByte_ne _ _ (by omega)
    · simp [pendingBits, emitByte]
      omega
    · intro k _; simp [emitByte]
  · rename_i h8
    have hcur : (s.pwCur + 1#3).toNat = s.pwCur.toNat + 1 := by
      rw [BitVec.toNat_add, Nat.mod_eq_of_lt (by simp; omega)]
      rfl
    obtain ⟨hp, hw⟩ := pendingBits_eq (s := { s with pwByte := streamByte (pendingBits s ++ [b]) 0, pwCur := s.pwCur + 1#3 })
      rfl (by simp only [hcur, hlen])
    unfold packedOnto
    have hn : streamBytes (pendingBits s ++ [b]).length false = 0 := by simp [streamBytes, hlen]; omega
    simp only [hn]
    exact ⟨rfl, fun k hk => absurd hk (Nat.not_lt_zero k), fun a _ => rfl, by simpa using hp, hw⟩

/-- All that PutCode does to a clean writer. -/
theorem putCode_packedOnto {s : State} (c : Bits) (h : writerClean s)
    (ho : s.outPtr.toNat + streamBytes (s.pwCur.toNat + c.length) false < 2 ^ 32) :
    packedOnto s (putCode s c) c false := by
  induction c generalizing s with
  | nil => exact packedOnto_nil h
  | cons b rest ih =>
    have hc := s.pwCur.isLt
    have hl := length_pendingBits s
    have hlen : (pendingBits s ++ [b]).length = s.pwCur.toNat + 1 := by simp [hl]
    have h1 : packedOnto s (putBit s b) [b] false := by
      refine putBit_packedOnto b h ?_
      simp only [streamBytes, List.length_cons, Bool.false_eq_true, false_and, if_false] at ho ⊢
      omega
    have hs := putBit_same s b
    have hd : (putBit s b).dstBase = s.dstBase := by rw [hs]
    have hs2 := putCode_same (putBit s b) rest
    have hd2 : (putCode (putBit s b) rest).dstBase = (putBit s b).dstBase := by rw [hs2]
    refine packedOnto_trans (a := [b]) hd hd2 h1 (ih h1.2.2.2.2 ?_)
    have hp := length_pendingBits (putBit s b)
    have ho1 := h1.1
    rw [h1.2.2.2.1] at hp
    simp only [streamBytes, hlen, List.length_cons, List.length_drop, Bool.false_eq_true, false_and, if_false] at ho hp ho1 ⊢
    omega

/-- All that Flush does to a clean writer: it writes the partial byte if it holds a bit. -/
theorem flush_packedOnto {s : State} (h : writerClean s)
    (ho : s.outPtr.toNat + streamBytes s.pwCur.toNat true < 2 ^ 32) : packedOnto s (flush s) [] true := by
  have hc := s.pwCur.isLt
  have hl := length_pendingBits s
  by_cases h0 : s.pwCur = 0#3
  · have hf : flush s = s := by simp [flush, h0]
    have hn : streamBytes (pendingBits s ++ []).length true = 0 := by simp [streamBytes, hl, h0]
    rw [hf]
    unfold packedOnto
    simp only [hn]
    exact ⟨rfl, fun k hk => absurd hk (Nat.not_lt_zero k), fun a _ => rfl, by simp [pendingBits, h0], h⟩
  · have hcur : s.pwCur.toNat ≠ 0 := fun he => h0 (BitVec.eq_of_toNat_eq he)
    have hf : flush s = emitByte s := by simp [flush, h0]
    have hn' : streamBytes s.pwCur.toNat true = 1 := by
      have : s.pwCur.toNat % 8 ≠ 0 := by omega
      simp only [streamBytes, true_and, if_pos this]
      omega
    have hn : streamBytes (pendingBits s ++ []).length true = 1 := by simp [hl, hn']
    rw [hf]
    unfold packedOnto
    simp only [hn]
    rw [hn'] at ho
    refine ⟨?_, fun k hk => ?_, fun a ha => ?_, by simp [pendingBits, emitByte], fun k _ => by simp [emitByte]⟩
    · simp only [emitByte, BitVec.toNat_add]
      rw [Nat.mod_eq_of_lt (by simpa using ho)]
      rfl
    · obtain rfl : k = 0 := by omega
      simp [dstByte, emitByte, dstWrite, pwByte_eq_streamByte h]
    · simp only [emitByte, dstWrite]
      exact readByte_writeByte_ne _ _ (by omega)

/-! ### Packing symbols -/

/-- Only memory, OUT_PTR and the bit writer, its symbol count too, may differ. -/
def sameButWriter (s t : State) : Prop :=
  t = { s with mem := t.mem, outPtr := t.outPtr, pwByte := t.pwByte, pwCur := t.pwCur, pwSyms := t.pwSyms }

theorem sameButWriter.trans {s t u : State} (h1 : sameButWriter s t) (h2 : sameButWriter t u) : sameButWriter s u := by
  unfold sameButWriter at h1 h2 ⊢
  rw [h2, h1]

theorem sameButStream.writer {s t : State} (h : sameButStream s t) : sameButWriter s t := by
  unfold sameButStream at h
  unfold sameButWriter
  rw [h]

theorem packOne_same (s : State) (sym : Byte) : sameButWriter s (packOne s sym) := by
  have h := putCode_same s (tableGet s.ct sym)
  unfold sameButStream at h
  unfold sameButWriter packOne
  rw [h]

theorem foldl_packOne_same (s : State) (syms : List Byte) : sameButWriter s (syms.foldl packOne s) := by
  induction syms generalizing s with
  | nil => rfl
  | cons b rest ih => exact (packOne_same s b).trans (ih _)

theorem foldl_packOne_pwSyms (s : State) (syms : List Byte) :
    (syms.foldl packOne s).pwSyms = s.pwSyms + BitVec.ofNat 32 syms.length := by
  induction syms generalizing s with
  | nil => simp
  | cons b rest ih =>
    rw [List.foldl_cons, ih]
    simp only [packOne, List.length_cons, Nat.add_comm rest.length 1, BitVec.ofNat_add, BitVec.add_assoc]

/-- All that packing a sequence of symbols does to a clean writer: their codes are appended in order. -/
theorem foldl_packOne_packedOnto {s : State} (syms : List Byte) (h : writerClean s)
    (ho : s.outPtr.toNat + streamBytes (s.pwCur.toNat + (codeStream s.ct syms).length) false < 2 ^ 32) :
    packedOnto s (syms.foldl packOne s) (codeStream s.ct syms) false := by
  induction syms generalizing s with
  | nil => exact packedOnto_nil h
  | cons b rest ih =>
    have hl := length_pendingBits s
    have hcs : codeStream s.ct (b :: rest) = tableGet s.ct b ++ codeStream s.ct rest := by simp [codeStream]
    rw [hcs] at ho ⊢
    have h1 : packedOnto s (packOne s b) (tableGet s.ct b) false := by
      refine putCode_packedOnto (tableGet s.ct b) h ?_
      simp only [streamBytes, List.length_append, Bool.false_eq_true, false_and, if_false] at ho ⊢
      omega
    have hs := packOne_same s b
    have hd : (packOne s b).dstBase = s.dstBase := by rw [hs]
    have hct : (packOne s b).ct = s.ct := by rw [hs]
    have hs2 := foldl_packOne_same (packOne s b) rest
    have hd2 : (rest.foldl packOne (packOne s b)).dstBase = (packOne s b).dstBase := by rw [hs2]
    have hp := length_pendingBits (packOne s b)
    have ho1 := h1.1
    rw [h1.2.2.2.1] at hp
    rw [List.foldl_cons]
    refine packedOnto_trans hd hd2 h1 ?_
    rw [← hct]
    refine ih h1.2.2.2.2 ?_
    rw [hct]
    simp only [streamBytes, List.length_append, hl, List.length_drop, Bool.false_eq_true, false_and, if_false] at ho hp ho1 ⊢
    omega

/-- Flushing after appending. -/
theorem flushIf_packedOnto {s t : State} {c : Bits} (last : Bool) (hd : t.dstBase = s.dstBase)
    (h1 : packedOnto s t c false)
    (ho : s.outPtr.toNat + streamBytes (s.pwCur.toNat + c.length) last < 2 ^ 32) :
    packedOnto s (flushIf last t) c last := by
  cases last with
  | false => exact h1
  | true =>
    have hl := length_pendingBits s
    have hp := length_pendingBits t
    have ho1 := h1.1
    rw [h1.2.2.2.1] at hp
    have hs := flush_same t
    have hd2 : (flush t).dstBase = t.dstBase := by rw [hs]
    have := packedOnto_trans hd hd2 h1 (flush_packedOnto h1.2.2.2.2 ?_)
    · rw [List.append_nil] at this
      exact this
    · simp only [streamBytes, List.length_append, hl, List.length_drop, Bool.false_eq_true, false_and, if_false,
        true_and] at ho hp ho1 ⊢
      split at ho <;> split <;> omega


/-! ### The checks of PACK_BLOCK -/

theorem srcCodeBits_eq (s : State) : srcCodeBits s = (codeStream s.ct (srcBytes s)).length := by
  simp [srcCodeBits, codeStream, List.length_flatMap]

theorem noCodeInSrc_eq_none (s : State) : noCodeInSrc s = none ↔ ∀ b ∈ srcBytes s, tableGet s.ct b ≠ [] := by
  unfold noCodeInSrc
  rw [List.findSome?_eq_none_iff]
  constructor
  · intro h b hb
    obtain ⟨i, hi, rfl⟩ := List.mem_iff_getElem.1 hb
    have := h ((srcBytes s)[i], i) (by rw [List.mem_zipIdx_iff_getElem?]; simp [hi])
    simpa using this
  · intro h p hp
    rw [raiseIf_eq_none]
    exact h p.1 (List.mem_of_getElem? (List.mem_zipIdx_iff_getElem?.1 hp))

theorem noCodeInSrc_first {s : State} (o : Nat) (h : o < (srcBytes s).length) (ho : tableGet s.ct (srcBytes s)[o] = [])
    (hb : ∀ k, ∀ hk : k < o, tableGet s.ct ((srcBytes s)[k]'(Nat.lt_trans hk h)) ≠ []) :
    noCodeInSrc s = some ⟨.noCode, BitVec.ofNat 32 o⟩ := by
  refine findSome?_first o (by simpa using h) (by simp [raiseIf, ho]) fun k hk => ?_
  simp [raiseIf, hb k hk]

end Sys2Proof.Machine
end

