-- ==== Sys2Proof/Laws/PerInstr.lean ====
section
/-! SUPPORT. What holds of every command as syntax, one lemma per constructor. -/

namespace Sys2Proof

/-- The fields of a command's word (30_encoding.md R100, R109): none of the three operands overlaps another. -/
theorem fieldsOf_encode (i : Instr) : fieldsOf (Sys2Proof.encode i) = ⟨opcodeOf i, symOf i, lastOf i, 0#15⟩ := by
  have hb : ∀ (op sym : Byte) (last : Bool),
      fieldsOf (op.setWidth 32 ||| (sym.setWidth 32 <<< 8) ||| ((BitVec.ofBool last).setWidth 32 <<< 16)) =
        ⟨op, sym, last, 0#15⟩ := by
    intro op sym last
    unfold fieldsOf
    congr 1
    · ext k hk
      simp only [BitVec.getElem_extractLsb', BitVec.getLsbD_or, BitVec.getLsbD_shiftLeft, BitVec.getLsbD_setWidth]
      interval_cases k <;> simp
    · ext k hk
      simp only [BitVec.getElem_extractLsb', BitVec.getLsbD_or, BitVec.getLsbD_shiftLeft, BitVec.getLsbD_setWidth]
      interval_cases k <;> simp
    · cases last <;> simp
    · ext k hk
      simp only [BitVec.getElem_extractLsb', BitVec.getLsbD_or, BitVec.getLsbD_shiftLeft, BitVec.getLsbD_setWidth]
      interval_cases k <;> simp
  exact hb (opcodeOf i) (symOf i) (lastOf i)

/-- A command's word passes the four checks of 30_encoding.md R105, whatever its operands. -/
def Laws.LegalEncoding.Statement (i : Instr) : Prop := (fieldsOf (Sys2Proof.encode i)).wellFormed = true

theorem Laws.LegalEncoding.nop : Laws.LegalEncoding.Statement .nop := by
  unfold Laws.LegalEncoding.Statement
  decide

theorem Laws.LegalEncoding.sreset : Laws.LegalEncoding.Statement .sreset := by
  unfold Laws.LegalEncoding.Statement
  decide

theorem Laws.LegalEncoding.histClear : Laws.LegalEncoding.Statement .histClear := by
  unfold Laws.LegalEncoding.Statement
  decide

theorem Laws.LegalEncoding.histAccum : Laws.LegalEncoding.Statement .histAccum := by
  unfold Laws.LegalEncoding.Statement
  decide

theorem Laws.LegalEncoding.histByte (sym : Byte) : Laws.LegalEncoding.Statement (.histByte sym) := by
  unfold Laws.LegalEncoding.Statement
  rw [fieldsOf_encode]
  simp [CmdFields.wellFormed, CmdFields.opcodeDefined, CmdFields.rsvdZero, CmdFields.operandAllowed, CmdFields.lastAllowed,
    opcodeMap, opcodeOf, symOf, lastOf]

theorem Laws.LegalEncoding.treeBuild : Laws.LegalEncoding.Statement .treeBuild := by
  unfold Laws.LegalEncoding.Statement
  decide

theorem Laws.LegalEncoding.codeAssign : Laws.LegalEncoding.Statement .codeAssign := by
  unfold Laws.LegalEncoding.Statement
  decide

theorem Laws.LegalEncoding.hdrWrite : Laws.LegalEncoding.Statement .hdrWrite := by
  unfold Laws.LegalEncoding.Statement
  decide

theorem Laws.LegalEncoding.hdrRead : Laws.LegalEncoding.Statement .hdrRead := by
  unfold Laws.LegalEncoding.Statement
  decide

theorem Laws.LegalEncoding.packReset : Laws.LegalEncoding.Statement .packReset := by
  unfold Laws.LegalEncoding.Statement
  decide

theorem Laws.LegalEncoding.packSym (sym : Byte) (last : Bool) : Laws.LegalEncoding.Statement (.packSym sym last) := by
  unfold Laws.LegalEncoding.Statement
  rw [fieldsOf_encode]
  simp [CmdFields.wellFormed, CmdFields.opcodeDefined, CmdFields.rsvdZero, CmdFields.operandAllowed, CmdFields.lastAllowed,
    opcodeMap, opcodeOf, symOf, lastOf]

theorem Laws.LegalEncoding.packBlock (last : Bool) : Laws.LegalEncoding.Statement (.packBlock last) := by
  unfold Laws.LegalEncoding.Statement
  rw [fieldsOf_encode]
  simp [CmdFields.wellFormed, CmdFields.opcodeDefined, CmdFields.rsvdZero, CmdFields.operandAllowed, CmdFields.lastAllowed,
    opcodeMap, opcodeOf, symOf, lastOf]

theorem Laws.LegalEncoding.packFlush : Laws.LegalEncoding.Statement .packFlush := by
  unfold Laws.LegalEncoding.Statement
  decide

theorem Laws.LegalEncoding.unpack : Laws.LegalEncoding.Statement .unpack := by
  unfold Laws.LegalEncoding.Statement
  decide

theorem Laws.LegalEncoding.encode : Laws.LegalEncoding.Statement .encode := by
  unfold Laws.LegalEncoding.Statement
  decide

theorem Laws.LegalEncoding.decode : Laws.LegalEncoding.Statement .decode := by
  unfold Laws.LegalEncoding.Statement
  decide

end Sys2Proof
end

