-- ==== Sys2Proof/Laws/Tree.lean ====
section
/-! SUPPORT. The tree builder: what Select takes, and the shape of the arena a merge loop leaves (42_tree.md R150, R151). -/

namespace Sys2Proof.Machine

/-! ### Select -/

theorem Active.before_iff (a b : Active) :
    a.before b = true ↔ a.weight < b.weight ∨ (a.weight = b.weight ∧ a.index ≤ b.index) := by
  simp [Active.before]

theorem Active.before_total {a b : Active} (h : a.before b = false) : b.before a = true := by
  rw [Active.before_iff]
  by_contra hc
  have : ¬ (a.weight < b.weight ∨ (a.weight = b.weight ∧ a.index ≤ b.index)) := by rw [← Active.before_iff, h]; simp
  omega

theorem Active.before_trans {a b d : Active} (h : a.before b = true) (h' : b.before d = true) : a.before d = true := by
  rw [Active.before_iff] at *
  omega

@[simp] theorem select_nil : select [] = none := rfl

@[simp] theorem select_cons_ne_none (a : Active) (rest : List Active) : select (a :: rest) ≠ none := by
  rw [select]
  split
  · simp
  · split <;> simp

theorem select_eq_none (l : List Active) : select l = none ↔ l = [] := by cases l <;> simp

/-- Select takes one element, the least in its order, and leaves the others (R151). -/
theorem select_spec {l others : List Active} {m : Active} (h : select l = some (m, others)) :
    (m :: others).Perm l ∧ ∀ b ∈ others, m.before b = true := by
  induction l generalizing m others with
  | nil => simp at h
  | cons a rest ih =>
    rw [select] at h
    split at h
    · rename_i hn
      rw [select_eq_none] at hn
      cases h
      subst hn
      simp
    · rename_i m' others' hs
      obtain ⟨hp, hl⟩ := ih hs
      split at h
      · rename_i hb
        cases h
        refine ⟨List.Perm.refl _, fun b hb' => ?_⟩
        rcases List.mem_cons.1 (hp.mem_iff.2 hb') with rfl | hb'
        · exact hb
        · exact Active.before_trans hb (hl b hb')
      · rename_i hb
        cases h
        refine ⟨(List.Perm.swap a m others').trans (hp.cons a), fun b hb' => ?_⟩
        rcases List.mem_cons.1 hb' with rfl | hb'
        · exact Active.before_total (by simpa using hb)
        · exact hl b hb'

theorem length_select {l others : List Active} {m : Active} (h : select l = some (m, others)) :
    l.length = others.length + 1 := by
  simpa using (select_spec h).1.length_eq.symm

/-! ### The merge loop -/

theorem mergeLoop_succ (fuel : Nat) (nodes : List Node) (active rest others : List Active) (a b : Active)
    (ha : select active = some (a, rest)) (hb : select rest = some (b, others)) :
    mergeLoop (fuel + 1) nodes active =
      mergeLoop fuel (nodes ++ [mergeNode a b]) (others ++ [⟨a.weight + b.weight, nodes.length⟩]) := by
  simp [mergeLoop, ha, hb]

theorem mergeLoop_one (fuel : Nat) (nodes : List Node) (a : Active) :
    mergeLoop (fuel + 1) nodes [a] = (nodes, a.index) := by
  simp [mergeLoop, select]

/-- With an active set of two or more, a first merge is made; the active set gets one smaller. -/
theorem mergeLoop_cases (fuel : Nat) (nodes : List Node) (active : List Active) (h : 2 ≤ active.length) :
    ∃ a b rest others, select active = some (a, rest) ∧ select rest = some (b, others) ∧
      active.length = others.length + 2 ∧
      mergeLoop (fuel + 1) nodes active =
        mergeLoop fuel (nodes ++ [mergeNode a b]) (others ++ [⟨a.weight + b.weight, nodes.length⟩]) := by
  cases ha : select active with
  | none => rw [select_eq_none] at ha; subst ha; simp at h
  | some p =>
    obtain ⟨a, rest⟩ := p
    have h1 := length_select ha
    cases hb : select rest with
    | none => rw [select_eq_none] at hb; subst hb; simp at h1; omega
    | some q =>
      obtain ⟨b, others⟩ := q
      have h2 := length_select hb
      exact ⟨a, b, rest, others, rfl, hb, by omega, mergeLoop_succ fuel nodes active rest others a b ha hb⟩

/-- The arena keeps its first slots: a merge loop only appends. -/
theorem mergeLoop_prefix (fuel : Nat) (nodes : List Node) (active : List Active) :
    nodes <+: (mergeLoop fuel nodes active).1 := by
  induction fuel generalizing nodes active with
  | zero => exact List.prefix_refl _
  | succ fuel ih =>
    rw [mergeLoop]
    split
    · exact List.prefix_refl _
    · split
      · exact List.prefix_refl _
      · exact (List.prefix_append _ _).trans (ih _ _)

/-- A merge loop over k active nodes appends k - 1 slots (R150: N = 2n - 1). -/
theorem length_mergeLoop (fuel : Nat) (nodes : List Node) (active : List Active) (hf : active.length ≤ fuel)
    (hp : 1 ≤ active.length) : (mergeLoop fuel nodes active).1.length + 1 = nodes.length + active.length := by
  induction fuel generalizing nodes active with
  | zero => omega
  | succ fuel ih =>
    rcases Nat.lt_or_ge active.length 2 with h | h
    · obtain ⟨a, rfl⟩ := List.length_eq_one_iff.1 (by omega : active.length = 1)
      rw [mergeLoop_one]
      simp
    · obtain ⟨a, b, rest, others, -, -, hl, he⟩ := mergeLoop_cases fuel nodes active h
      rw [he, ih _ _ (by simp; omega) (by simp)]
      simp
      omega

@[simp] theorem length_leavesActive (leaves : List Node) : (leavesActive leaves).length = leaves.length := by
  simp [leavesActive]

/-- The leaves are the symbols with a count, in ascending order (R150). -/
theorem leavesOf_eq (h : Table Word) : leavesOf h = (countedSymbols h).map fun sym => .leaf sym (tableGet h sym) := by
  rw [leavesOf, countedSymbols, tableRows_eq, List.filterMap_map, ← List.filterMap_eq_map, List.filterMap_filter]
  refine List.filterMap_congr fun sym _ => ?_
  by_cases hc : tableGet h sym = 0#32 <;> simp [hc]

@[simp] theorem length_leavesOf (h : Table Word) : (leavesOf h).length = (countedSymbols h).length := by
  simp [leavesOf_eq]

theorem leavesOf_eq_nil (h : Table Word) : leavesOf h = [] ↔ countedSymbols h = [] := by simp [leavesOf_eq]

/-- The arena of a histogram with n symbols has 2n - 1 slots, the leaves first (R150). -/
theorem length_buildTree (h : Table Word) (hn : countedSymbols h ≠ []) :
    (buildTree h).1.length = 2 * (countedSymbols h).length - 1 := by
  have hp : 1 ≤ (countedSymbols h).length := List.length_pos_of_ne_nil hn
  have := length_mergeLoop (leavesOf h).length (leavesOf h) (leavesActive (leavesOf h)) (by simp) (by simpa using hp)
  rw [buildTree]
  simp only [length_leavesActive, length_leavesOf] at this ⊢
  omega

theorem leavesOf_prefix_buildTree (h : Table Word) : leavesOf h <+: (buildTree h).1 := mergeLoop_prefix _ _ _

end Sys2Proof.Machine
end

