-- ==== Sys2Proof/Laws/Unpacker.lean ====
section
/-! SUPPORT. All that the loop of UNPACK does, said once: with a prefix-free table it takes off the payload, one after the other,
the codes it begins with (45_unpacker.md R180 to R185). -/

namespace Sys2Proof.Machine

/-! ### Looking a candidate up -/

theorem symbolOf_eq_none (ct : Table Bits) (c : Bits) : symbolOf ct c = none ↔ ∀ sym, tableGet ct sym ≠ c := by
  simp only [symbolOf, Option.map_eq_none_iff, List.find?_eq_none, decide_eq_true_eq]
  constructor
  · intro h sym he
    exact h (sym, tableGet ct sym) ((mem_tableRows ct sym _).2 rfl) he
  · rintro h ⟨sym, x⟩ hr he
    exact h sym (((mem_tableRows ct sym x).1 hr).trans he)

theorem symbolOf_eq_some {ct : Table Bits} {c : Bits} {sym : Byte} (h : symbolOf ct c = some sym) : tableGet ct sym = c := by
  simp only [symbolOf, Option.map_eq_some_iff] at h
  obtain ⟨⟨b, x⟩, hf, rfl⟩ := h
  have h1 := List.mem_of_find?_eq_some hf
  have h2 := List.find?_some hf
  simp only [decide_eq_true_eq] at h2
  exact ((mem_tableRows ct b x).1 h1).trans h2

/-- In a prefix-free table the code of a symbol is its own (R57). -/
theorem symbolOf_code {ct : Table Bits} (hp : prefixFree ct) {sym : Byte} (hs : tableGet ct sym ≠ []) :
    symbolOf ct (tableGet ct sym) = some sym := by
  cases h : symbolOf ct (tableGet ct sym) with
  | none => exact absurd rfl ((symbolOf_eq_none ct _).1 h sym)
  | some b =>
    have hb := symbolOf_eq_some h
    by_contra hne
    have hbs : b ≠ sym := fun e => hne (by rw [e])
    exact hp b sym hbs (by rw [hb]; exact hs) hs (by rw [hb])

/-! ### The extreme lengths (10_state.md R48) -/

theorem mem_codeLengths (ct : Table Bits) (n : Nat) : n ∈ codeLengths ct ↔ ∃ sym, tableGet ct sym ≠ [] ∧ (tableGet ct sym).length = n := by
  simp only [codeLengths, List.mem_filter, List.mem_map, toList_eq_map, ne_eq, decide_eq_true_eq]
  constructor
  · rintro ⟨⟨c, ⟨sym, -, rfl⟩, rfl⟩, hne⟩
    exact ⟨sym, fun he => hne (by rw [he]; rfl), rfl⟩
  · rintro ⟨sym, hne, rfl⟩
    exact ⟨⟨_, ⟨sym, mem_allSymbols sym, rfl⟩, rfl⟩, fun he => hne (List.length_eq_zero_iff.1 he)⟩

theorem minLen_le {ct : Table Bits} {sym : Byte} (h : tableGet ct sym ≠ []) : minLen ct ≤ (tableGet ct sym).length := by
  have hm := (mem_codeLengths ct _).2 ⟨sym, h, rfl⟩
  unfold minLen
  cases he : (codeLengths ct).min? with
  | none => simp
  | some m => exact (List.min?_eq_some_iff.1 he).2 _ hm

theorem le_maxLen {ct : Table Bits} {sym : Byte} (h : tableGet ct sym ≠ []) : (tableGet ct sym).length ≤ maxLen ct := by
  have hm := (mem_codeLengths ct _).2 ⟨sym, h, rfl⟩
  unfold maxLen
  cases he : (codeLengths ct).max? with
  | none => rw [List.max?_eq_none_iff] at he; rw [he] at hm; cases hm
  | some m => exact (List.max?_eq_some_iff.1 he).2 _ hm

theorem exists_minLen {ct : Table Bits} (h : ∃ sym, tableGet ct sym ≠ []) :
    ∃ sym, tableGet ct sym ≠ [] ∧ (tableGet ct sym).length = minLen ct := by
  obtain ⟨sym, hs⟩ := h
  have hm := (mem_codeLengths ct _).2 ⟨sym, hs, rfl⟩
  unfold minLen
  cases he : (codeLengths ct).min? with
  | none => rw [List.min?_eq_none_iff] at he; rw [he] at hm; cases hm
  | some m => exact (mem_codeLengths ct m).1 (List.min?_eq_some_iff.1 he).1

theorem exists_maxLen {ct : Table Bits} (h : ∃ sym, tableGet ct sym ≠ []) :
    ∃ sym, tableGet ct sym ≠ [] ∧ (tableGet ct sym).length = maxLen ct := by
  obtain ⟨sym, hs⟩ := h
  have hm := (mem_codeLengths ct _).2 ⟨sym, hs, rfl⟩
  unfold maxLen
  cases he : (codeLengths ct).max? with
  | none => rw [List.max?_eq_none_iff] at he; rw [he] at hm; cases hm
  | some m => exact (mem_codeLengths ct m).1 (List.max?_eq_some_iff.1 he).1

/-! ### The loop -/

/-- The payload bits are the bits GetBit gives (R181). -/
theorem getElem_payloadBits (s : State) (p : Nat) (h : p < (payloadBits s).length) : (payloadBits s)[p] = getBit s p := by
  simp [payloadBits, getBit]

theorem length_payloadBits (s : State) : (payloadBits s).length = 8 * s.decPbytes.toNat := by simp [payloadBits]

/-- The candidate grows along bits no prefix of which is a code, and which stay short of the longest code. -/
theorem unpackLoop_grow (s : State) (want : Nat) (more cand : Bits) (pos fuel : Nat) (out : List Byte)
    (hw : out.length < want) (hb : ∀ i, ∀ h : i < more.length, pos + i < 8 * s.decPbytes.toNat ∧ getBit s (pos + i) = more[i])
    (hno : ∀ i, i < more.length → ∀ sym, tableGet s.ct sym ≠ [] → tableGet s.ct sym ≠ cand ++ more.take (i + 1))
    (hmax : cand.length + more.length < maxLen s.ct) (hf : more.length ≤ fuel) :
    unpackLoop s (8 * s.decPbytes.toNat) want (minLen s.ct) (maxLen s.ct) fuel pos cand out =
      unpackLoop s (8 * s.decPbytes.toNat) want (minLen s.ct) (maxLen s.ct) (fuel - more.length) (pos + more.length)
        (cand ++ more) out := by
  induction more generalizing cand pos fuel with
  | nil => simp
  | cons b rest ih =>
    obtain ⟨f, rfl⟩ : ∃ f, fuel = f + 1 := ⟨fuel - 1, by simp at hf; omega⟩
    have h0 := hb 0 (by simp)
    simp only [Nat.add_zero, List.getElem_cons_zero] at h0
    have hnone : symbolOf s.ct (cand ++ [b]) = none := by
      rw [symbolOf_eq_none]
      intro sym he
      have := hno 0 (by simp) sym (by rw [he]; simp)
      simp [he] at this
    conv_lhs => unfold unpackLoop
    rw [if_neg (by omega), if_neg (by omega)]
    simp only [h0.2, hnone, ite_self]
    simp only [List.length_append, List.length_cons, List.length_nil] at hmax ⊢
    rw [if_neg (by omega)]
    rw [ih (cand ++ [b]) (pos + 1) f ?_ ?_ (by simp; omega) (by simp at hf; omega)]
    · simp only [List.append_assoc, List.cons_append, List.nil_append]
      congr 1 <;> omega
    · intro i hi
      have := hb (i + 1) (by simp; omega)
      simp only [List.getElem_cons_succ] at this
      rw [show pos + 1 + i = pos + (i + 1) by omega]
      exact this
    · intro i hi sym hs
      have := hno (i + 1) (by simp; omega) sym hs
      simpa using this

/-- One code is taken off the payload. -/
theorem unpackLoop_code {s : State} (hp : prefixFree s.ct) (want : Nat) (sym : Byte) (hs : tableGet s.ct sym ≠ [])
    (pos fuel : Nat) (out : List Byte) (hw : out.length < want)
    (hb : ∀ i, ∀ h : i < (tableGet s.ct sym).length,
      pos + i < 8 * s.decPbytes.toNat ∧ getBit s (pos + i) = (tableGet s.ct sym)[i])
    (hf : (tableGet s.ct sym).length ≤ fuel) :
    unpackLoop s (8 * s.decPbytes.toNat) want (minLen s.ct) (maxLen s.ct) fuel pos [] out =
      unpackLoop s (8 * s.decPbytes.toNat) want (minLen s.ct) (maxLen s.ct) (fuel - (tableGet s.ct sym).length)
        (pos + (tableGet s.ct sym).length) [] (out ++ [sym]) := by
  have hmin := minLen_le hs
  have hmax := le_maxLen hs
  obtain ⟨init, lastBit, hc⟩ : ∃ init lastBit, tableGet s.ct sym = init ++ [lastBit] :=
    ⟨_, _, (List.dropLast_append_getLast hs).symm⟩
  have hl : (tableGet s.ct sym).length = init.length + 1 := by simp [hc]
  have hbits : ∀ i, ∀ h : i < init.length, pos + i < 8 * s.decPbytes.toNat ∧ getBit s (pos + i) = init[i] := by
    intro i h
    have := hb i (by omega)
    simp only [hc, List.getElem_append_left h] at this
    exact this
  have hno : ∀ i, i < init.length → ∀ b, tableGet s.ct b ≠ [] → tableGet s.ct b ≠ [] ++ init.take (i + 1) := by
    intro i hi b hbne he
    have hne : b ≠ sym := by
      rintro rfl
      have := congrArg List.length he
      simp [hl] at this
      omega
    refine hp b sym hne hbne hs ?_
    rw [he, hc, List.nil_append]
    exact (List.take_prefix _ _).trans (List.prefix_append _ _)
  rw [unpackLoop_grow s want init [] pos fuel out hw hbits hno (by simp; omega) (by omega)]
  obtain ⟨f, hfe⟩ : ∃ f, fuel - init.length = f + 1 := ⟨fuel - init.length - 1, by omega⟩
  have hlast := hb init.length (by omega)
  simp only [hc, List.getElem_concat_length] at hlast
  rw [hfe, List.nil_append]
  conv_lhs => unfold unpackLoop
  rw [if_neg (by omega), if_neg (by omega)]
  simp only [hlast.2, ← hc, if_pos hmin, symbolOf_code hp hs]
  congr 1 <;> omega

/-- The codes of a sequence of symbols are taken off the payload, in order. -/
theorem unpackLoop_codes {s : State} (hp : prefixFree s.ct) (want : Nat) (syms : List Byte)
    (hs : ∀ b ∈ syms, tableGet s.ct b ≠ []) (pos fuel : Nat) (out : List Byte) (hw : out.length + syms.length ≤ want)
    (hb : ∀ i, ∀ h : i < (codeStream s.ct syms).length,
      pos + i < 8 * s.decPbytes.toNat ∧ getBit s (pos + i) = (codeStream s.ct syms)[i])
    (hf : (codeStream s.ct syms).length ≤ fuel) :
    unpackLoop s (8 * s.decPbytes.toNat) want (minLen s.ct) (maxLen s.ct) fuel pos [] out =
      unpackLoop s (8 * s.decPbytes.toNat) want (minLen s.ct) (maxLen s.ct) (fuel - (codeStream s.ct syms).length)
        (pos + (codeStream s.ct syms).length) [] (out ++ syms) := by
  induction syms generalizing pos fuel out with
  | nil => simp [codeStream]
  | cons b rest ih =>
    have hcs : codeStream s.ct (b :: rest) = tableGet s.ct b ++ codeStream s.ct rest := by simp [codeStream]
    simp only [hcs, List.length_append, List.length_cons] at hb hf hw ⊢
    rw [unpackLoop_code hp want b (hs b (by simp)) pos fuel out (by omega) ?_ (by omega)]
    · rw [ih (fun c hc => hs c (by simp [hc])) _ _ _ (by simp; omega) ?_ (by omega)]
      · simp only [List.append_assoc, List.cons_append, List.nil_append]
        congr 1 <;> omega
      · intro i hi
        have := hb ((tableGet s.ct b).length + i) (by omega)
        rw [List.getElem_append_right (by omega)] at this
        simp only [Nat.add_sub_cancel_left] at this
        rw [Nat.add_assoc]
        exact this
    · intro i hi
      have := hb i (by omega)
      rw [List.getElem_append_left hi] at this
      exact this

/-- The symbols whose codes the payload begins with are decoded, as many as DEC_SYMS says, whatever bits follow them. -/
theorem unpackSymbols_ok {s : State} (hp : prefixFree s.ct) {out : List Byte} (hs : ∀ b ∈ out, tableGet s.ct b ≠ [])
    (hl : out.length = s.decSyms.toNat) (hpre : codeStream s.ct out <+: payloadBits s) : unpackSymbols s = .ok out := by
  have hlen := hpre.length_le
  rw [length_payloadBits] at hlen
  unfold unpackSymbols
  rw [unpackLoop_codes hp _ out hs 0 _ [] (by simp; omega) ?_ (by omega)]
  · obtain ⟨f, hfe⟩ : ∃ f, 8 * s.decPbytes.toNat + 1 - (codeStream s.ct out).length = f + 1 :=
      ⟨8 * s.decPbytes.toNat - (codeStream s.ct out).length, by omega⟩
    rw [hfe, List.nil_append]
    unfold unpackLoop
    rw [if_pos (by omega)]
  · intro i hi
    rw [Nat.zero_add]
    refine ⟨by omega, ?_⟩
    rw [← getElem_payloadBits s i (by rw [length_payloadBits]; omega)]
    exact (hpre.getElem hi).symm

/-- The errors of the loop: after the symbols of `out`, no code is a prefix of what is left. -/
theorem unpackSymbols_error {s : State} (hp : prefixFree s.ct) (hne : ∃ sym, tableGet s.ct sym ≠ []) {out : List Byte} {rest : Bits}
    (hs : ∀ b ∈ out, tableGet s.ct b ≠ []) (hl : out.length < s.decSyms.toNat)
    (hpay : payloadBits s = codeStream s.ct out ++ rest)
    (hno : ∀ sym, tableGet s.ct sym ≠ [] → ¬ (tableGet s.ct sym <+: rest)) :
    unpackSymbols s = .error (if rest.length < maxLen s.ct then ⟨.payloadExhausted, BitVec.ofNat 32 out.length⟩
      else ⟨.unmatchedCode, unmatchedInfo (codeStream s.ct out).length⟩) := by
  have hlen := congrArg List.length hpay
  rw [length_payloadBits, List.length_append] at hlen
  have hget : ∀ p, ∀ h : p < (codeStream s.ct out ++ rest).length, getBit s p = (codeStream s.ct out ++ rest)[p] := by
    intro p h
    have h' : p < (payloadBits s).length := by rw [hpay]; exact h
    rw [← getElem_payloadBits s p h']
    simp only [hpay]
  unfold unpackSymbols
  rw [unpackLoop_codes hp _ out hs 0 _ [] (by simp; omega) ?_ (by omega)]
  · rw [Nat.zero_add, List.nil_append]
    have hbits : ∀ i, ∀ h : i < rest.length, (codeStream s.ct out).length + i < 8 * s.decPbytes.toNat ∧
        getBit s ((codeStream s.ct out).length + i) = rest[i] := by
      intro i hi
      refine ⟨by omega, ?_⟩
      rw [hget _ (by simp; omega), List.getElem_append_right (by omega)]
      simp
    have hcode : ∀ l : Bits, l <+: rest → ∀ sym, tableGet s.ct sym ≠ [] → tableGet s.ct sym ≠ l := by
      rintro l hl' sym hsym rfl
      exact hno sym hsym hl'
    obtain ⟨long, hlong, hmaxl⟩ := exists_maxLen hne
    have hpos : 1 ≤ maxLen s.ct := by
      rw [← hmaxl]
      exact List.length_pos_iff.2 hlong
    have hfuel : 8 * s.decPbytes.toNat + 1 - (codeStream s.ct out).length = rest.length + 1 := by omega
    rw [hfuel]
    split
    · rename_i hshort
      rw [unpackLoop_grow s _ rest [] _ _ out hl hbits (fun i _ => by
          simpa using hcode _ (List.take_prefix _ _)) (by simpa using hshort) (by omega)]
      rw [show rest.length + 1 - rest.length = 0 + 1 by omega]
      unfold unpackLoop
      rw [if_neg (by omega), if_pos (by omega)]
    · rename_i hfit
      have htl : (rest.take (maxLen s.ct - 1)).length = maxLen s.ct - 1 := by rw [List.length_take]; omega
      rw [unpackLoop_grow s _ (rest.take (maxLen s.ct - 1)) [] _ _ out hl ?_ ?_ (by simp [htl]; omega) (by omega)]
      · obtain ⟨f, hfe⟩ : ∃ f, rest.length + 1 - (rest.take (maxLen s.ct - 1)).length = f + 1 :=
          ⟨rest.length - (maxLen s.ct - 1), by omega⟩
        have hbit := hbits (maxLen s.ct - 1) (by omega)
        have hnext : rest.take (maxLen s.ct - 1) ++ [rest[maxLen s.ct - 1]] = rest.take (maxLen s.ct) := by
          rw [List.take_concat_get', show maxLen s.ct - 1 + 1 = maxLen s.ct by omega]
        rw [hfe, List.nil_append]
        conv_lhs => unfold unpackLoop
        rw [if_neg (by omega), if_neg (by omega)]
        have hnone : symbolOf s.ct (rest.take (maxLen s.ct)) = none := by
          rw [symbolOf_eq_none]
          intro sym he
          refine hcode _ (List.take_prefix _ _) sym (fun h0 => ?_) he
          rw [h0] at he
          have := congrArg List.length he
          rw [List.length_take] at this
          simp at this
          omega
        simp only [htl, hbit.2, hnext, hnone, ite_self]
        rw [if_pos (by rw [List.length_take]; omega)]
        congr 3
        omega
      · intro i hi
        have := hbits i (by omega)
        simpa using this
      · intro i hi
        have := hcode (rest.take (i + 1)) (List.take_prefix _ _)
        rw [List.take_take, Nat.min_eq_left (by omega), List.nil_append]
        exact this
  · intro i hi
    rw [Nat.zero_add]
    refine ⟨by omega, ?_⟩
    rw [hget i (by simp; omega), List.getElem_append_left hi]

end Sys2Proof.Machine
end

