-- ==== Sys2Proof/Tests/Slice0.lean ====
section
/-! SUPPORT. Tests on one step each, with values from 95_test_vectors.md or worked out from the cited rule by hand, the smoke
tests of the well-formedness checks, and for every statement with hypotheses a state that meets them. -/

namespace Sys2Proof.Tests

open Sys2Proof.Machine

set_option Elab.async false

/-! ### Helpers -/

/-- The state of a next outcome. -/
def nextOf (o : Host.Outcome State Fault Refusal) : State :=
  match o with
  | .next t => t
  | .fault _ | .refused _ => State.reset

/-- The state a command leaves. -/
@[irreducible] def after (i : Instr) (s : State) : State := nextOf (exec i s)

/-- A state with bytes put into memory. -/
def withBytes (s : State) (a : Nat) (bytes : List Byte) : State := { s with mem := writeBytes s.mem a bytes }

/-- A table with the given entries, x elsewhere. -/
def tableOf {α : Type} (x : α) (entries : List (Byte × α)) : Table α :=
  entries.foldl (fun t e => tableSet t e.1 e.2) (tableFill x)

/-- What 95_test_vectors.md starts from: SRC at 0x1000 with the input, DST at 0x8000. -/
def start (input : List Byte) : State :=
  { withBytes State.reset 0x1000 input with
    srcBase := 0x1000#32, srcLen := BitVec.ofNat 32 input.length, dstBase := 0x8000#32, dstCap := 0x40#32 }

/-- "aaab", its histogram (V-TR2) and its codes (V-CD2). -/
def aaab : List Byte := [0x61#8, 0x61#8, 0x61#8, 0x62#8]
@[inherit_doc aaab]
def aaabHist : Table Word := tableOf 0#32 [(0x61#8, 3#32), (0x62#8, 1#32)]
@[inherit_doc aaab]
def aaabCodes : Table Bits := tableOf [] [(0x61#8, [true]), (0x62#8, [false])]
@[inherit_doc aaab]
def aaabArena : List Node := [.leaf 0x61#8 3#32, .leaf 0x62#8 1#32, .internal 4#32 1#9 0#9]

/-- The container of "aaab" (V-CP1). -/
def aaabContainer : List Byte :=
  [0x1F#8, 0xA0#8, 0x00#8, 0x00#8, 0x00#8, 0x02#8, 0x61#8, 0x01#8, 0x00#8, 0x00#8, 0x02#8, 0x62#8, 0x01#8, 0x00#8, 0x00#8,
   0x00#8] ++ [0x00#8, 0x00#8, 0x00#8, 0x04#8, 0x00#8, 0x00#8, 0x00#8, 0x01#8, 0xE0#8]

/-- "aaab" counted, its tree built, its codes assigned. -/
def counted : State := { start aaab with hist := aaabHist }
@[inherit_doc counted]
def built : State := { counted with nodes := aaabArena, root := 2#9, treeValid := true }
@[inherit_doc counted]
def coded : State := { built with ct := aaabCodes, codesValid := true }

/-- The codes of "abracadabra" (V-CD1), with an empty bit writer. -/
def abraCoded : State :=
  { start [0x61#8, 0x62#8, 0x72#8, 0x61#8, 0x63#8] with
    codesValid := true,
    ct := tableOf [] [(0x61#8, [false]), (0x62#8, [true, true, false]), (0x63#8, [true, false, false]),
      (0x64#8, [true, false, true]), (0x72#8, [true, true, true])] }

/-- The container of "aaab" in SRC. -/
def packed : State := start aaabContainer

/-- The container read (V-CT1). -/
def headerRead : State :=
  { packed with
    ct := aaabCodes, decSyms := 4#32, decPbytes := 1#32, inPtr := 24#32, codesValid := true, hdrValid := true }

/-- The state with one host or core step to come. -/
def upNext (s : State) (turn : Turn) : State := { s with turns := [turn] }

theorem exec_after (i : Instr) (s : State) : exec i s = .next (after i s) := by
  unfold after
  rw [exec_eq_complete]
  cases runOf i s <;> rfl

/-! ### Legality of words (30_encoding.md R105): an ill-formed word for each check -/

theorem test_undefined_opcode_ill_formed :
    CmdFields.opcodeDefined ⟨0x13#8, 0#8, false, 0#15⟩ = false ∧ CmdFields.wellFormed ⟨0x13#8, 0#8, false, 0#15⟩ = false := by
  decide
theorem test_nonzero_rsvd_ill_formed :
    CmdFields.rsvdZero ⟨0x12#8, 0#8, false, 1#15⟩ = false ∧ CmdFields.wellFormed ⟨0x12#8, 0#8, false, 1#15⟩ = false := by
  decide
theorem test_unused_operand_ill_formed :
    CmdFields.operandAllowed ⟨0x10#8, 1#8, false, 0#15⟩ = false ∧
      CmdFields.wellFormed ⟨0x10#8, 1#8, false, 0#15⟩ = false := by decide
theorem test_unused_last_ill_formed :
    CmdFields.lastAllowed ⟨0x12#8, 0x41#8, true, 0#15⟩ = false ∧
      CmdFields.wellFormed ⟨0x12#8, 0x41#8, true, 0#15⟩ = false := by decide

/-! ### Words written out from 30_encoding.md R100, R106 -/

theorem test_decode_control : decode 0x00000000#32 = .ok .nop ∧ decode 0x00000001#32 = .ok .sreset := by decide
theorem test_decode_histogram :
    decode 0x00000010#32 = .ok .histClear ∧ decode 0x00000011#32 = .ok .histAccum ∧
      decode 0b00000000000000000110000100010010#32 = .ok (.histByte 0x61#8) := by decide
theorem test_decode_tree_and_codes :
    decode 0x00000020#32 = .ok .treeBuild ∧ decode 0x00000021#32 = .ok .codeAssign := by decide
theorem test_decode_header : decode 0x00000030#32 = .ok .hdrWrite ∧ decode 0x00000031#32 = .ok .hdrRead := by decide
theorem test_decode_packer :
    decode 0x00000040#32 = .ok .packReset ∧
      decode 0b00000000000000010110001001000001#32 = .ok (.packSym 0x62#8 true) ∧
      decode 0x0000FF41#32 = .ok (.packSym 0xFF#8 false) ∧ decode 0x00010042#32 = .ok (.packBlock true) ∧
      decode 0x00000042#32 = .ok (.packBlock false) ∧ decode 0x00000043#32 = .ok .packFlush := by decide
theorem test_decode_unpacker : decode 0x00000050#32 = .ok .unpack := by decide
theorem test_decode_composite : decode 0x00000060#32 = .ok .encode ∧ decode 0x00000061#32 = .ok .decode := by decide
/-- V-EN4 to V-EN7. -/
theorem test_decode_illegal :
    decode 0x00000013#32 = .error .reservedOpcode ∧ decode 0x00000110#32 = .error .operandNonZero ∧
      decode 0x00014112#32 = .error .lastNonZero ∧ decode 0x00020012#32 = .error .rsvdNonZero := by decide
theorem test_table_word :
    decodeTableWord 32 0x00006141 = some (.packSym 0x61#8 false) ∧ decodeTableWord 32 0x13 = none := by decide

/-! ### One step of each command -/

/-- V-EN1. -/
theorem test_nop : statusWord (after .nop State.reset) = 0x02#32 := by decide +kernel
/-- V-EN5, through a step: ERR, ERR_INFO and STATUS. -/
theorem test_illegal_word :
    regValue (nextOf (step (State.reset.withFetchWord 32 0x110))) 0x0C = 0x1001#32 ∧
      regValue (nextOf (step (State.reset.withFetchWord 32 0x110))) 0x10 = 0x110#32 ∧
      regValue (nextOf (step (State.reset.withFetchWord 32 0x110))) 0x08 = 0x06#32 := by decide +kernel
/-- V-PR8. -/
theorem test_sreset :
    regValue (after .sreset coded) 0x34 = 0#32 ∧ regValue (after .sreset coded) 0x60 = 0#32 ∧
      (after .sreset coded).srcBase = 0x1000#32 ∧ (after .sreset coded).dstCap = 0x40#32 ∧
      statusWord (after .sreset coded) = 0x02#32 := by decide +kernel
/-- V-HI3. -/
theorem test_histClear : regValue (after .histClear coded) 0x34 = 0#32 ∧ statusWord (after .histClear coded) = 0x02#32 := by
  decide +kernel
/-- V-HI2: HIST_ACCUM adds to the counts. -/
theorem test_histAccum :
    tableGet (after .histAccum counted).hist 0x61#8 = 6#32 ∧ regValue (after .histAccum counted) 0x34 = 8#32 := by
  decide +kernel
/-- V-HI6. -/
theorem test_histAccum_range :
    regValue (after .histAccum { State.reset with srcBase := 0xFFFFFFFE#32, srcLen := 3#32 }) 0x0C = 0x1103#32 := by
  decide +kernel
/-- V-HI4. -/
theorem test_histByte : tableGet (after (.histByte 0x62#8) counted).hist 0x62#8 = 2#32 := by decide +kernel
/-- V-HI5. -/
theorem test_histByte_overflow :
    regValue (after (.histByte 0#8) { State.reset with hist := tableOf 0#32 [(7#8, 0xFFFFFFFF#32)] }) 0x0C = 0x1206#32 := by
  decide +kernel
/-- V-TR2. -/
theorem test_treeBuild :
    (after .treeBuild counted).nodes = aaabArena ∧ (after .treeBuild counted).root = 2#9 ∧
      statusWord (after .treeBuild counted) = 0x12#32 := by decide +kernel
/-- V-TR5. -/
theorem test_treeBuild_empty : regValue (after .treeBuild State.reset) 0x0C = 0x2007#32 := by decide +kernel
/-- V-CD2. -/
theorem test_codeAssign :
    codeWord (tableGet (after .codeAssign built).ct 0x61#8) = 0x01000002#32 ∧
      codeWord (tableGet (after .codeAssign built).ct 0x62#8) = 0x01000000#32 ∧
      regValue (after .codeAssign built) 0x60 = 0x0101#32 := by decide +kernel
/-- V-CD9. -/
theorem test_codeAssign_sequence :
    regValue (after .codeAssign State.reset) 0x0C = 0x2102#32 ∧ regValue (after .codeAssign State.reset) 0x10 = 0x10#32 := by
  decide +kernel
/-- V-CP1: the header is the first 24 bytes of the container. -/
theorem test_hdrWrite :
    (List.range 24).map (dstByte (after .hdrWrite coded)) = aaabContainer.take 24 ∧
      (after .hdrWrite coded).outPtr = 24#32 := by decide +kernel
/-- V-CT16. -/
theorem test_hdrWrite_range :
    regValue (after .hdrWrite { coded with dstBase := 0xFFFFFFFF#32, dstCap := 2#32 }) 0x0C = 0x3003#32 ∧
      regValue (after .hdrWrite { coded with dstBase := 0xFFFFFFFF#32, dstCap := 2#32 }) 0x10 = 1#32 := by decide +kernel
/-- V-CT1. -/
theorem test_hdrRead :
    codeWord (tableGet (after .hdrRead packed).ct 0x61#8) = 0x01000002#32 ∧ (after .hdrRead packed).inPtr = 24#32 ∧
      (after .hdrRead packed).decSyms = 4#32 ∧ (after .hdrRead packed).decPbytes = 1#32 ∧
      statusWord (after .hdrRead packed) = 0x62#32 := by decide +kernel
/-- 46_container.md R197: byte 15 = 02 makes b's code equal to a's. -/
theorem test_hdrRead_notPrefixFree :
    regValue (after .hdrRead (withBytes packed 0x100F [0x02#8])) 0x0C = 0x3110#32 ∧
      regValue (after .hdrRead (withBytes packed 0x100F [0x02#8])) 0x10 = 1#32 := by decide +kernel
/-- 44_packer.md R173. -/
theorem test_packReset :
    regValue (after .packReset { coded with pwByte := 0x60#8, pwCur := 4#3, pwSyms := 2#32, outPtr := 9#32 }) 0x64 = 0#32 ∧
      (after .packReset { coded with pwByte := 0x60#8, pwCur := 4#3, pwSyms := 2#32, outPtr := 9#32 }).outPtr = 9#32 := by
  decide +kernel
/-- V-PK2: from the state V-PK1 leaves. -/
theorem test_packSym :
    regValue (after (.packSym 0x62#8 false) { abraCoded with pwCur := 1#3, pwSyms := 1#32 }) 0x64 = 0x460#32 := by
  decide +kernel
/-- V-PK4: the eighth bit fills the byte, and LAST adds none. -/
theorem test_packSym_last :
    dstByte (after (.packSym 0x61#8 true) { abraCoded with pwByte := 0x6E#8, pwCur := 7#3, pwSyms := 3#32 }) 0 = 0x6E#8 ∧
      (after (.packSym 0x61#8 true) { abraCoded with pwByte := 0x6E#8, pwCur := 7#3, pwSyms := 3#32 }).outPtr = 1#32 := by
  decide +kernel
/-- V-PK5. -/
theorem test_packBlock :
    dstByte (after (.packBlock false) abraCoded) 0 = 0x6E#8 ∧ (after (.packBlock false) abraCoded).outPtr = 1#32 ∧
      regValue (after (.packBlock false) abraCoded) 0x64 = 0x380#32 ∧
      (after (.packBlock false) abraCoded).pwSyms = 5#32 := by decide +kernel
/-- V-PK9: the first byte without a code is at offset 2. -/
theorem test_packBlock_noCode :
    regValue (after (.packBlock true) (withBytes coded 0x1001 [0x62#8, 0x78#8])) 0x0C = 0x4209#32 ∧
      regValue (after (.packBlock true) (withBytes coded 0x1001 [0x62#8, 0x78#8])) 0x10 = 2#32 := by decide +kernel
/-- V-PK6. -/
theorem test_packFlush :
    dstByte (after .packFlush { abraCoded with pwByte := 0x80#8, pwCur := 3#3, outPtr := 1#32 }) 1 = 0x80#8 ∧
      (after .packFlush { abraCoded with pwByte := 0x80#8, pwCur := 3#3, outPtr := 1#32 }).outPtr = 2#32 := by
  decide +kernel
/-- V-PK7. -/
theorem test_packFlush_nothing : (after .packFlush { abraCoded with outPtr := 2#32 }).outPtr = 2#32 := by decide +kernel
/-- V-UP1, with the container of "aaab". -/
theorem test_unpack :
    (List.range 4).map (dstByte (after .unpack headerRead)) = aaab ∧ (after .unpack headerRead).outPtr = 4#32 := by
  decide +kernel
/-- V-UP4, after HDR_READ of SymbolCount 9. -/
theorem test_unpack_exhausted :
    regValue (after .unpack { headerRead with decSyms := 9#32 }) 0x0C = 0x5011#32 ∧
      regValue (after .unpack { headerRead with decSyms := 9#32 }) 0x10 = 8#32 := by decide +kernel
/-- V-CP1. -/
theorem test_encode :
    (List.range 25).map (dstByte (after .encode (start aaab))) = aaabContainer ∧
      (after .encode (start aaab)).outPtr = 25#32 ∧ statusWord (after .encode (start aaab)) = 0x32#32 := by decide +kernel
/-- V-CP12. -/
theorem test_encode_full :
    regValue (after .encode { start aaab with dstCap := 24#32 }) 0x0C = 0x420A#32 ∧
      regValue (after .encode { start aaab with dstCap := 24#32 }) 0x10 = 0x19#32 := by decide +kernel
/-- V-UP2 and V-CP1: the DECODE of the container. -/
theorem test_decode :
    (List.range 4).map (dstByte (after .decode packed)) = aaab ∧ statusWord (after .decode packed) = 0x62#32 ∧
      (after .decode packed).inPtr = 24#32 := by decide +kernel
/-- V-CP17. -/
theorem test_decode_overlap :
    regValue (after .decode { packed with dstBase := 0x1018#32, dstCap := 4#32 }) 0x0C = 0x6105#32 := by decide +kernel

/-! ### Steps of the host -/

/-- V-PR3: a command written while BUSY is dropped. -/
theorem test_write_while_busy :
    (nextOf (step (upNext { State.reset with busy := true, cmdLast := 0x60#32 } (.regWrite 0x04#32 0#32)))).cmdLast = 0x60#32 ∧
      (nextOf (step (upNext { State.reset with busy := true } (.regWrite 0x04#32 0#32)))).overrun = true := by decide +kernel
/-- V-PR6. -/
theorem test_ack :
    statusWord (nextOf (step (upNext { State.reset with done := true, overrun := true } (.regWrite 0x18#32 2#32)))) = 0x02#32 := by
  decide +kernel
/-- V-TR1, NODE_INFO and NODE_WEIGHT of slot 7 (program P3). -/
theorem test_node_info :
    nodeInfo (.internal 6#32 5#9 6#9) = 0xC0000C05#32 ∧ nodeInfo (.leaf 0x72#8 2#32) = 0x80000072#32 := by decide

/-! ### Witnesses: for every statement with hypotheses, a state that meets them -/

theorem addressesReg_reset (o b : Nat) (hb : b < 4) (addr : Word) (h : addr = BitVec.ofNat 32 (o + b)) (s : State)
    (hs : s.regBase = 0#32) : addressesReg s addr o := ⟨b, hb, by rw [h, hs, BitVec.zero_add]⟩

theorem windowBacked_everywhere {s : State} (h : s.unbacked = []) (base len : Word) : windowBacked s base len := by
  intro a _ _
  simp [memBacked, h]

/-- Windows inside the space, apart, with memory everywhere. -/
theorem bothUsable_everywhere {s : State} (h : s.unbacked = []) (h1 : s.srcBase.toNat + s.srcLen.toNat ≤ s.dstBase.toNat)
    (h2 : s.dstBase.toNat + s.dstCap.toNat ≤ 4294967296) : bothUsable s :=
  ⟨⟨by unfold windowInSpace; omega, windowBacked_everywhere h _ _⟩, ⟨h2, windowBacked_everywhere h _ _⟩,
    .inr (.inr (.inr h1))⟩

theorem start_usable : bothUsable (start aaab) :=
  bothUsable_everywhere rfl (by decide) (by decide)
theorem packed_usable : bothUsable packed := bothUsable_everywhere rfl (by decide) (by decide)
theorem abra_usable : bothUsable abraCoded := bothUsable_everywhere rfl (by decide) (by decide)
theorem coded_usable : bothUsable coded := bothUsable_everywhere rfl (by decide) (by decide)
theorem headerRead_usable : bothUsable headerRead := bothUsable_everywhere rfl (by decide) (by decide)

theorem aaabCodes_get (sym : Byte) :
    tableGet aaabCodes sym = if sym = 0x62#8 then [false] else if sym = 0x61#8 then [true] else [] := by
  simp [aaabCodes, tableOf, tableGet_set]

theorem aaabCodes_usable : tableUsable aaabCodes := by
  refine ⟨⟨0x61#8, by simp [aaabCodes_get]⟩, fun sym => ?_, fun a b hab ha hb => ?_⟩
  · rw [aaabCodes_get]; split <;> [decide; (split <;> decide)]
  · rw [aaabCodes_get] at ha ⊢
    rw [aaabCodes_get] at hb ⊢
    split at ha <;> split at hb <;> simp_all

theorem coded_facts : histTotal aaabHist = 4 ∧ histCodeBits coded = 4 ∧ codedSymbols aaabCodes = [0x61#8, 0x62#8] := by
  decide +kernel
theorem aaab_counted : countedSymbols aaabHist = [0x61#8, 0x62#8] := by decide +kernel
theorem aaab_tree : buildTree aaabHist = (aaabArena, 2) := by decide +kernel

theorem built_inv : Inv built where
  memory := by decide +kernel
  total := by rw [show built.hist = aaabHist from rfl, coded_facts.1]; decide
  arena := by decide +kernel
  codes := fun sym => by simp [built, counted, start, withBytes, State.reset, tableGet]
  writer := by intro k _; simp [built, counted, start, withBytes, State.reset]
  protocol := by decide +kernel
  errors := by decide +kernel
  success := by decide +kernel
  tree := fun _ => by
    rw [show built.hist = aaabHist from rfl, aaab_counted, aaab_tree]
    decide +kernel

theorem built_path (path : Bits) (sym : Byte) :
    leadsToLeaf built.nodes built.root.toNat path sym → path = [true] ∧ sym = 0x61#8 ∨ path = [false] ∧ sym = 0x62#8 := by
  rintro ⟨k, w, h1, h2⟩
  match path with
  | [] =>
    simp [follow, built, aaabArena] at h1
    simp [← h1, built, aaabArena] at h2
  | [b] =>
    cases b <;> simp [follow, built, aaabArena] at h1 <;> simp [← h1, built, aaabArena] at h2 <;> simp [h2]
  | true :: b :: rest => simp [follow, built, aaabArena] at h1
  | false :: b :: rest => simp [follow, built, aaabArena] at h1

theorem witness_IllegalWordsRaiseIllegalCmd :
    let s := upNext { State.reset with busy := true, cmdLast := 0x13#32 } .core
    s.busy = true ∧ s.cmdLast = 0x13#32 ∧ s.turns = .core :: [] ∧ { s with turns := [] }.turns = [] ∧
      ¬ ∃ i, decode 0x13#32 = .ok i :=
  ⟨rfl, rfl, rfl, rfl, by rintro ⟨i, hi⟩; exact absurd hi (by rw [show decode 0x13#32 = .error .reservedOpcode from by decide]; simp)⟩

theorem witness_StepRunsTheDecodedCommand :
    let s : State := { State.reset with busy := true, cmdLast := 0x00000042#32 }
    s.busy = true ∧ decode s.cmdLast = .ok (.packBlock false) ∧ s.turns = [] ∧ (upNext s .core).turns = .core :: [] ∧
      State.reset.busy = false ∧ State.reset.turns = [] ∧ (upNext State.reset .core).turns = .core :: [] :=
  ⟨rfl, by decide, rfl, rfl, rfl, rfl, rfl⟩

theorem witness_CmdWriteIsAcceptedOrDropped :
    let s := upNext State.reset (.regWrite 0x07#32 0x60#32)
    s.turns = .regWrite 0x07#32 0x60#32 :: [] ∧ addressesReg s 0x07#32 0x04 ∧ s.busy = false ∧
      addressesReg { s with busy := true } 0x07#32 0x04 :=
  ⟨rfl, addressesReg_reset 4 3 (by decide) _ (by decide) _ rfl, rfl,
    addressesReg_reset 4 3 (by decide) _ (by decide) _ rfl⟩

theorem witness_RegisterWritesWhileBusy :
    ∀ o ∈ [0x1C, 0x30, 0x14, 0x18, 0x3C, 0x44, 0x58, 0x00, 0xFC],
      let s := upNext { State.reset with busy := true } (.regWrite (BitVec.ofNat 32 o) 5#32)
      s.turns = .regWrite (BitVec.ofNat 32 o) 5#32 :: [] ∧ addressesReg s (BitVec.ofNat 32 o) o ∧ s.busy = true ∧
        (o = 0x00 ∨ o = 0xFC → o < 256 ∧ o % 4 = 0 ∧
          o ∉ [0x04, 0x14, 0x18, 0x1C, 0x20, 0x24, 0x28, 0x2C, 0x30, 0x3C, 0x44, 0x58]) := by
  intro o ho
  refine ⟨rfl, addressesReg_reset o 0 (by decide) _ rfl _ rfl, rfl, ?_⟩
  rintro (rfl | rfl) <;> decide

theorem witness_RegisterWriteIsReadBackWhileIdle :
    ∀ o ∈ [0x14, 0x1C, 0x20, 0x24, 0x28, 0x2C, 0x30, 0x3C, 0x44, 0x58],
      let s := upNext State.reset (.regWrite (BitVec.ofNat 32 o) 0xFFFFFFFF#32)
      s.turns = .regWrite (BitVec.ofNat 32 o) 0xFFFFFFFF#32 :: [] ∧ addressesReg s (BitVec.ofNat 32 o) o ∧
        s.busy = false := by
  intro o ho
  exact ⟨rfl, addressesReg_reset o 0 (by decide) _ rfl _ rfl, rfl⟩

theorem witness_AckClearsDoneAndOverrun :
    let s := upNext { State.reset with done := true } (.regWrite 0x18#32 3#32)
    s.turns = .regWrite 0x18#32 3#32 :: [] ∧ addressesReg s 0x18#32 0x18 :=
  ⟨rfl, addressesReg_reset 0x18 0 (by decide) _ (by decide) _ rfl⟩

theorem witness_RegisterReadHasNoSideEffect :
    (upNext State.reset (.regRead 0xFF#32)).turns = .regRead 0xFF#32 :: [] ∧
      addressesReg (upNext State.reset (.regRead 0xFF#32)) 0xFF#32 0xFC ∧ 0xFC % 4 = 0 ∧
      (upNext State.reset (.regRead 0x100#32)).turns = .regRead 0x100#32 :: [] ∧
      (upNext State.reset (.regWrite 0x100#32 0#32)).turns = .regWrite 0x100#32 0#32 :: [] ∧
      256 ≤ (0x100#32 - (upNext State.reset (.regRead 0x100#32)).regBase).toNat :=
  ⟨rfl, addressesReg_reset 0xFC 3 (by decide) _ (by decide) _ rfl, rfl, rfl, rfl, by decide⟩

theorem witness_RegisterMapReadsTheState :
    built.nodes[(0#9).toNat]? = some (.leaf 0x61#8 3#32) ∧
      { built with nodeSel := 2#9 }.nodes[(2#9).toNat]? = some (.internal 4#32 1#9 0#9) ∧
      built.nodes.length ≤ { built with nodeSel := 3#9 }.nodeSel.toNat ∧ built.nodes.length ≤ 511 ∧
      histTotal built.hist ≤ 4294967295 := by decide +kernel

theorem witness_CodeLensAreTheExtremeLengths :
    (∀ sym, (tableGet aaabCodes sym).length ≤ 23) ∧ (∃ sym, tableGet aaabCodes sym ≠ []) ∧
      ∀ sym, tableGet State.reset.ct sym = [] :=
  ⟨aaabCodes_usable.2.1, aaabCodes_usable.1, fun sym => by simp [State.reset, tableGet]⟩

theorem witness_InterruptLevel :
    (upNext { State.reset with done := true, doneIe := true } (.regWrite 0x18#32 1#32)).turns = .regWrite 0x18#32 1#32 :: [] ∧
      addressesReg State.reset 0x18#32 0x18 ∧ addressesReg State.reset 0x04#32 0x04 ∧ State.reset.busy = false ∧
      addressesReg State.reset 0x14#32 0x14 ∧ exec .nop State.reset = .next (after .nop State.reset) :=
  ⟨rfl, addressesReg_reset 0x18 0 (by decide) _ (by decide) _ rfl, addressesReg_reset 4 0 (by decide) _ (by decide) _ rfl,
    rfl, addressesReg_reset 0x14 0 (by decide) _ (by decide) _ rfl, exec_after _ _⟩

/-- The first and the last byte of the windows of a running command. -/
theorem witness_HostWindowAccessWhileBusyFaults :
    let s : State := { start aaab with busy := true }
    memBacked s 0x803F = true ∧ s.busy = true ∧ inWindow s.dstBase s.dstCap 0x8000 = true ∧
      inWindow s.dstBase s.dstCap 0x803F = true ∧ inWindow s.dstBase s.dstCap 0x8040 = false ∧
      inWindow s.srcBase s.srcLen 0x1003 = true ∧ inWindow s.srcBase s.srcLen 0x1004 = false ∧
      (upNext s (.memRead 0x803F#32)).turns = .memRead 0x803F#32 :: [] ∧
      (upNext s (.memWrite 0x1003#32 0#8)).turns = .memWrite 0x1003#32 0#8 :: [] := by decide +kernel

/-- The last clause: a step that sets DONE. -/
theorem witness_InterruptLevel_only_source :
    let s : State := { State.reset with busy := true }
    step s = .next (nextOf (step s)) ∧ s.done = false ∧ (nextOf (step s)).done = true := ⟨rfl, rfl, rfl⟩

theorem witness_HostAccessWithoutMemoryFaults :
    let s : State := { State.reset with unbacked := [⟨0x1000, 1⟩] }
    memBacked s (0x1000#32).toNat = false ∧ (upNext s (.memRead 0x1000#32)).turns = .memRead 0x1000#32 :: [] ∧
      (upNext s (.memWrite 0x1000#32 0#8)).turns = .memWrite 0x1000#32 0#8 :: [] := by decide +kernel

/-- The last clause: a command that reports each of the three errors. -/
theorem witness_WindowErrorsInOrder_reported :
    (after .encode { start aaab with srcBase := 0xFFFFFFFD#32 }).errCode = 0x03#8 ∧
      (after .encode { start aaab with unbacked := [⟨0x1003, 1⟩] }).errCode = 0x04#8 ∧
      (after .encode { start aaab with dstBase := 0x1003#32 }).errCode = 0x05#8 := by decide +kernel

theorem witness_HardwareResetKeepsOnlyMemory :
    (upNext { coded with busy := true } .reset).turns = .reset :: [] := rfl

theorem witness_FailedCommandChangesOnlyBookkeeping :
    exec .treeBuild State.reset = .next (after .treeBuild State.reset) ∧ (after .treeBuild State.reset).errCode ≠ 0#8 :=
  ⟨exec_after _ _, by decide +kernel⟩

theorem witness_MissingFlagsRaiseSequence :
    missingFlags .codeAssign State.reset = 0x10#32 ∧ missingFlags .unpack State.reset = 0x60#32 ∧
      missingFlags .unpack { State.reset with codesValid := true } = 0x40#32 := by decide +kernel

/-- Each clause at the edge: a window one byte past the space, a first and a last byte without memory, a one-byte overlap. -/
theorem witness_WindowErrorsInOrder :
    let edge : State := { start aaab with srcBase := 0xFFFFFFFD#32, dstBase := 0x1003#32, dstCap := 2#32 }
    let hole : State := { start aaab with unbacked := [⟨0x1003, 1⟩, ⟨0x803F, 1⟩] }
    missingFlags .encode edge = 0#32 ∧ edge.srcLen ≠ 0#32 ∧ ¬ windowInSpace edge.srcBase edge.srcLen ∧
      ¬ windowInSpace { edge with dstBase := 0xFFFFFFFF#32 }.dstBase edge.dstCap ∧
      windowInSpace (start aaab).srcBase (start aaab).srcLen ∧
      lowestUnbackedIn hole hole.srcBase hole.srcLen 0x1003 ∧ lowestUnbackedIn hole hole.dstBase hole.dstCap 0x803F ∧
      srcUsable (start aaab) ∧ ¬ windowsApart { start aaab with dstBase := 0x1003#32 } := by
  refine ⟨by decide +kernel, by decide +kernel, by unfold windowInSpace; decide +kernel, by unfold windowInSpace; decide +kernel,
    start_usable.1.1, ⟨by decide, by decide, by decide, ?_⟩, ⟨by decide, by decide, by decide, ?_⟩, start_usable.1,
    by unfold windowsApart; decide +kernel⟩
  · intro b h1 h2
    have h1 : 0x1000 ≤ b := h1
    simp [memBacked]; omega
  · intro b h1 h2
    have h1 : 0x8000 ≤ b := h1
    simp [memBacked]; omega

theorem witness_a_command_answers_a_next_state : exec .encode (start aaab) = .next (after .encode (start aaab)) :=
  exec_after _ _

theorem witness_AcceptedCommandCompletes :
    let s := upNext { State.reset with busy := true } (.regRead 0x08#32)
    s.busy = true ∧ .reset ∉ s.turns ∧ Sys2Proof.core.run (s.turns.length + 1) s =
      .next (nextOf (Sys2Proof.core.run (s.turns.length + 1) s)) := ⟨rfl, by decide, rfl⟩

theorem witness_HistByteCountsOne :
    histTotal counted.hist < 4294967295 ∧ histTotal (tableOf 0#32 [(7#8, 0xFFFFFFFF#32)]) = 4294967295 := by
  decide +kernel

theorem witness_HistAccumCountsTheWindow :
    srcUsable counted ∧ histTotal counted.hist + counted.srcLen.toNat ≤ 4294967295 ∧
      4294967295 < histTotal (tableOf 0#32 [(7#8, 0xFFFFFFFC#32)]) + counted.srcLen.toNat :=
  ⟨start_usable.1, by decide +kernel, by decide +kernel⟩

theorem witness_TreeBuildMergesTheLeastPairs :
    histTotal counted.hist ≤ 4294967295 ∧ countedSymbols counted.hist = [0x61#8, 0x62#8] ∧
      countedSymbols State.reset.hist = [] := by
  rw [show counted.hist = aaabHist from rfl, coded_facts.1]
  exact ⟨by decide, aaab_counted, by simp [countedSymbols, State.reset, tableGet]⟩

theorem witness_TreeNodesHaveOneParent : runsOk .treeBuild counted (after .treeBuild counted) :=
  ⟨exec_after _ _, by decide +kernel⟩

theorem witness_CodeAssignGivesTheLeafPaths :
    Inv built ∧ built.treeValid = true ∧ 2 ≤ (countedSymbols built.hist).length ∧
      (∀ sym path, leadsToLeaf built.nodes built.root.toNat path sym → path.length ≤ 23) ∧
      leadsToLeaf built.nodes built.root.toNat [true] 0x61#8 := by
  refine ⟨built_inv, rfl, by rw [show built.hist = aaabHist from rfl, aaab_counted]; decide, fun sym path h => ?_, 0,
    3#32, rfl, rfl⟩
  rcases built_path path sym h with ⟨rfl, -⟩ | ⟨rfl, -⟩ <;> decide

theorem witness_SingleSymbolGetsCodeZero :
    let s : State := { State.reset with nodes := [.leaf 0x61#8 4#32], treeValid := true }
    s.treeValid = true ∧ s.nodes[s.root.toNat]? = some (.leaf 0x61#8 4#32) := ⟨rfl, rfl⟩

theorem witness_AssignedCodes : Inv built ∧ runsOk .codeAssign built (after .codeAssign built) ∧
    2 ≤ (countedSymbols built.hist).length :=
  ⟨built_inv, ⟨exec_after _ _, by decide +kernel⟩, by rw [show built.hist = aaabHist from rfl, aaab_counted]; decide⟩

/-- 25 symbols with Fibonacci counts: the first needs 24 bits (V-CD8). -/
def fibCounts : List (Byte × Word) :=
  allSymbols.zip
    ([1#32, 1#32, 2#32, 3#32, 5#32, 8#32, 13#32, 21#32, 34#32, 55#32, 89#32, 144#32, 233#32] ++
     [377#32, 610#32, 987#32, 1597#32, 2584#32, 4181#32, 6765#32, 10946#32, 17711#32, 28657#32, 46368#32, 75025#32])
@[inherit_doc fibCounts]
def fibBuilt : State :=
  let h := tableOf 0#32 fibCounts
  { State.reset with hist := h, nodes := (buildTree h).1, root := BitVec.ofNat 9 (buildTree h).2, treeValid := true }

theorem witness_LongCodesRaiseCodeTooLong :
    Inv fibBuilt ∧ fibBuilt.treeValid = true ∧
      leadsToLeaf fibBuilt.nodes fibBuilt.root.toNat (tableGet (assignCodes fibBuilt.nodes fibBuilt.root.toNat) 0#8) 0#8 ∧
      23 < (tableGet (assignCodes fibBuilt.nodes fibBuilt.root.toNat) 0#8).length ∧ ∀ b : Byte, (0#8).toNat ≤ b.toNat := by
  refine ⟨⟨by decide +kernel, by decide +kernel, by decide +kernel, fun sym => ?_, by unfold writerClean; decide +kernel,
    by decide +kernel, by decide +kernel, by decide +kernel, by decide +kernel⟩, rfl, ⟨0, 1#32, by decide +kernel,
    by decide +kernel⟩, by decide +kernel, fun b => Nat.zero_le _⟩
  simp [fibBuilt, State.reset, tableGet]

theorem witness_CodeWordLayoutAndReadBack :
    (List.replicate 23 true).length ≤ 23 ∧ ([] : Bits).length ≤ 23 ∧
      (0xFF000003#32).extractLsb' 24 8 = 0xFF#8 := by decide

theorem witness_HdrWrite :
    coded.codesValid = true ∧ dstUsable coded ∧ (∀ sym, tableGet coded.hist sym ≠ 0#32 → tableGet coded.ct sym ≠ []) ∧
      (histCodeBits coded + 7) / 8 ≤ 4294967295 ∧ histTotal coded.hist ≤ 4294967295 ∧
      14 + 5 * (codedSymbols coded.ct).length ≤ coded.dstCap.toNat ∧
      { coded with dstCap := 23#32 }.dstCap.toNat < 14 + 5 * (codedSymbols coded.ct).length := by
  have hc : coded.ct = aaabCodes := rfl
  have hh : coded.hist = aaabHist := rfl
  obtain ⟨h1, h2, h3⟩ := coded_facts
  refine ⟨rfl, coded_usable.2.1, fun sym h => ?_, by rw [h2]; decide, by rw [hh, h1]; decide, by rw [hc, h3]; decide,
    by rw [hc, h3]; decide⟩
  rw [hh] at h
  rw [hc, aaabCodes_get]
  simp only [aaabHist, tableOf, List.foldl, tableGet_set, tableGet_fill] at h
  split
  · simp
  · split
    · simp
    · simp_all

/-- V-CT17: a symbol with a count and no code. -/
theorem witness_HdrWriteErrors :
    let s : State := { coded with hist := tableOf 0#32 [(0x7A#8, 1#32)] }
    s.codesValid = true ∧ dstUsable s ∧ tableGet s.hist 0x7A#8 ≠ 0#32 ∧ tableGet s.ct 0x7A#8 = [] ∧
      (∀ b : Byte, b.toNat < (0x7A#8).toNat → tableGet s.hist b ≠ 0#32 → tableGet s.ct b ≠ []) := by
  refine ⟨rfl, coded_usable.2.1, by decide +kernel, by decide +kernel, fun b hb h => ?_⟩
  simp only [tableOf, List.foldl, tableGet_set, tableGet_fill] at h
  split at h
  · rename_i hb'; subst hb'; exact absurd hb (by decide)
  · exact absurd rfl h

theorem witness_HdrReadAcceptsAGoodHeader :
    srcUsable packed ∧ srcHeader packed [(0x61#8, [true]), (0x62#8, [false])] 4 1 := by
  refine ⟨packed_usable.1, ?_⟩
  unfold srcHeader srcFields
  decide +kernel

/-- The last clause: the row SRC_LEN = 24 of 46_container.md R197. -/
theorem witness_HdrReadRejectsABadHeader_payload :
    let s : State := { packed with srcLen := 24#32 }
    srcUsable s ∧ srcFields s [(0x61#8, [true]), (0x62#8, [false])] 4 1 ∧ 14 + 5 * 2 ≤ s.srcLen.toNat ∧
      s.srcLen.toNat < 14 + 5 * 2 + 1 := by
  refine ⟨⟨by unfold windowInSpace; decide +kernel, windowBacked_everywhere rfl _ _⟩, ?_⟩
  unfold srcFields
  decide +kernel

/-- Each clause at its edge (46_container.md R197). -/
theorem witness_HdrReadRejectsABadHeader :
    let at_ : Nat → List Byte → State := fun len bytes => { withBytes packed 0x1000 bytes with srcLen := BitVec.ofNat 32 len }
    srcUsable (at_ 25 [0x1F#8, 0xA1#8]) ∧ (at_ 1 []).srcLen.toNat < 2 ∧
      ¬ (srcByte (at_ 2 [0x1F#8, 0xA1#8]) 0 = 0x1F#8 ∧ srcByte (at_ 2 [0x1F#8, 0xA1#8]) 1 = 0xA0#8) ∧
      (srcByte (at_ 5 []) 0 = 0x1F#8 ∧ srcByte (at_ 5 []) 1 = 0xA0#8 ∧ (at_ 5 []).srcLen.toNat < 6) ∧
      srcWord (at_ 25 [0x1F#8, 0xA0#8, 0#8, 0#8, 0#8, 0#8]) 2 = 0 ∧
      srcWord (at_ 25 [0x1F#8, 0xA0#8, 0#8, 0#8, 1#8, 1#8]) 2 = 257 ∧
      srcWord (at_ 23 []) 2 = 2 ∧ (at_ 23 []).srcLen.toNat < 14 + 5 * 2 := by
  refine ⟨⟨by unfold windowInSpace; decide +kernel, windowBacked_everywhere rfl _ _⟩, by decide +kernel, by decide +kernel, by decide +kernel,
    by decide +kernel, by decide +kernel, by decide +kernel, by decide +kernel⟩

/-- The second entry bad, after a good first one: its length 0 or 24, its symbol 'a' again, its code "1" again. -/
theorem witness_HdrReadRejectsTheFirstBadEntry :
    let bad : Nat → List Byte → State := fun a bytes => withBytes packed (0x1000 + a) bytes
    srcUsable (bad 12 [0#8]) ∧ srcByte (bad 12 [0#8]) 0 = 0x1F#8 ∧ srcByte (bad 12 [0#8]) 1 = 0xA0#8 ∧
      srcWord (bad 12 [0#8]) 2 = 2 ∧ 14 + 5 * 2 ≤ (bad 12 [0#8]).srcLen.toNat ∧
      (srcByte (bad 12 [0#8]) 6 = 0x61#8 ∧ wordCode (BitVec.ofNat 32 (srcWord (bad 12 [0#8]) 7)) = [true] ∧
        wordLen (BitVec.ofNat 32 (srcWord (bad 12 [0#8]) 7)) = [true].length) ∧
      wordLen (BitVec.ofNat 32 (srcWord (bad 12 [0#8]) 12)) = 0 ∧
      23 < wordLen (BitVec.ofNat 32 (srcWord (bad 12 [0x18#8]) 12)) ∧
      (srcByte (bad 11 [0x61#8]) 11 = 0x61#8 ∧ wordLen (BitVec.ofNat 32 (srcWord (bad 11 [0x61#8]) 12)) = 1) ∧
      (srcByte (bad 15 [2#8]) 11 = 0x62#8 ∧ [true] <+: wordCode (BitVec.ofNat 32 (srcWord (bad 15 [2#8]) 12))) := by
  refine ⟨⟨by unfold windowInSpace; decide +kernel, windowBacked_everywhere rfl _ _⟩, ?_⟩
  decide +kernel

theorem hdrWrite_coded :
    let t := after .hdrWrite coded
    t.errCode = 0#8 ∧ t.outPtr = 24#32 ∧ t.dstBase = 0x8000#32 ∧ t.unbacked = [] := by decide +kernel

theorem witness_TableRoundTrip :
    tableUsable coded.ct ∧ histTotal coded.hist ≤ 4294967295 ∧ runsOk .hdrWrite coded (after .hdrWrite coded) ∧
      (after .hdrWrite coded).outPtr.toNat + (histCodeBits coded + 7) / 8 ≤ (25#32).toNat ∧
      srcUsable { after .hdrWrite coded with srcBase := (after .hdrWrite coded).dstBase, srcLen := 25#32 } := by
  have hh : coded.hist = aaabHist := rfl
  obtain ⟨h1, h2, h3, h4⟩ := hdrWrite_coded
  refine ⟨aaabCodes_usable, by rw [hh, coded_facts.1]; decide, ⟨exec_after _ _, h1⟩, by rw [h2, coded_facts.2.1]; decide,
    ?_, windowBacked_everywhere (by simp only [h4]) _ _⟩
  unfold windowInSpace
  rw [h3]
  decide

/-- The codes of "aaab" with 7 bits waiting: 'a' fills the byte. -/
theorem witness_PackSymAppendsTheCode :
    let s : State := { coded with pwByte := 0x6E#8, pwCur := 7#3 }
    s.codesValid = true ∧ dstUsable s ∧ tableGet s.ct 0x61#8 ≠ [] ∧ s.pwSyms.toNat < 4294967295 ∧ writerClean s ∧
      s.outPtr.toNat + streamBytes (s.pwCur.toNat + (tableGet s.ct 0x61#8).length) true ≤ s.dstCap.toNat :=
  ⟨rfl, coded_usable.2.1, by decide +kernel, by decide +kernel, by unfold writerClean; decide +kernel, by decide +kernel⟩

theorem witness_PackBlockAppendsTheCodes :
    abraCoded.codesValid = true ∧ bothUsable abraCoded ∧ (∀ b ∈ srcBytes abraCoded, tableGet abraCoded.ct b ≠ []) ∧
      abraCoded.pwSyms.toNat + abraCoded.srcLen.toNat ≤ 4294967295 ∧ writerClean abraCoded ∧
      abraCoded.outPtr.toNat +
        streamBytes (abraCoded.pwCur.toNat + (codeStream abraCoded.ct (srcBytes abraCoded)).length) true ≤
          abraCoded.dstCap.toNat :=
  ⟨rfl, abra_usable, by decide +kernel, by decide +kernel, by unfold writerClean; decide +kernel, by decide +kernel⟩

theorem witness_PackFlushWritesThePartialByte :
    let s : State := { coded with pwByte := 0x80#8, pwCur := 3#3, outPtr := 0x3F#32 }
    dstUsable s ∧ writerClean s ∧ s.outPtr.toNat + streamBytes s.pwCur.toNat true ≤ s.dstCap.toNat ∧
      { s with outPtr := 0x40#32 }.dstCap.toNat < 0x40 + streamBytes s.pwCur.toNat true ∧ coded.pwCur = 0#3 :=
  ⟨coded_usable.2.1, by unfold writerClean; decide +kernel, by decide +kernel, by decide +kernel, rfl⟩

theorem witness_PackErrors :
    coded.codesValid = true ∧ bothUsable coded ∧ tableGet coded.ct 0x7A#8 = [] ∧ tableGet coded.ct 0x61#8 ≠ [] ∧
      { coded with pwSyms := 0xFFFFFFFF#32 }.pwSyms = 0xFFFFFFFF#32 ∧
      { coded with dstCap := 0#32 }.dstCap.toNat <
        coded.outPtr.toNat + streamBytes (coded.pwCur.toNat + (tableGet coded.ct 0x61#8).length) true ∧
      (∀ b ∈ srcBytes coded, tableGet coded.ct b ≠ []) ∧
      4294967295 < { coded with pwSyms := 0xFFFFFFFC#32 }.pwSyms.toNat + coded.srcLen.toNat ∧
      srcBytes (withBytes coded 0x1001 [0x62#8, 0x78#8]) = [0x61#8, 0x62#8, 0x78#8, 0x62#8] ∧
      tableGet coded.ct 0x78#8 = [] :=
  ⟨rfl, coded_usable, by decide +kernel, by decide +kernel, rfl, by decide +kernel, by decide +kernel,
    by decide +kernel, by decide +kernel, by decide +kernel⟩

theorem witness_UnpackDecodesThePayload :
    headerRead.codesValid = true ∧ headerRead.hdrValid = true ∧ bothUsable headerRead ∧ tableUsable headerRead.ct ∧
      headerRead.inPtr.toNat + headerRead.decPbytes.toNat ≤ headerRead.srcLen.toNat ∧
      headerRead.decSyms.toNat ≤ headerRead.dstCap.toNat ∧ aaab.length = headerRead.decSyms.toNat ∧
      (∀ b ∈ aaab, tableGet headerRead.ct b ≠ []) ∧ codeStream headerRead.ct aaab <+: payloadBits headerRead :=
  ⟨rfl, rfl, headerRead_usable, aaabCodes_usable, by decide +kernel, by decide +kernel, by decide +kernel,
    by decide +kernel, by decide +kernel⟩

/-- One clause each: the payload past SRC, DST too small, the payload run out after 8 symbols (V-UP4), no match (V-UP5). -/
theorem witness_UnpackErrors :
    { headerRead with srcLen := 24#32 }.srcLen.toNat < headerRead.inPtr.toNat + headerRead.decPbytes.toNat ∧
      { headerRead with dstCap := 3#32 }.dstCap.toNat < headerRead.decSyms.toNat ∧
      (let out := aaab ++ [0x62#8, 0x62#8, 0x62#8, 0x62#8]
       payloadBits headerRead = codeStream headerRead.ct out ++ [] ∧ out.length < (9#32).toNat ∧
        ([] : Bits).length < maxLen headerRead.ct) ∧
      (let s : State := { withBytes headerRead 0x1018 [0x40#8] with ct := tableOf [] [(0x61#8, [false])] }
       payloadBits s = codeStream s.ct [0x61#8] ++ [true, false, false, false, false, false, false] ∧ maxLen s.ct ≤ 7 ∧
        tableGet s.ct 0x61#8 = [false]) := by decide +kernel

theorem witness_UnpackErrors_noCodeFits :
    (∀ sym, tableGet aaabCodes sym ≠ [] → ¬ (tableGet aaabCodes sym <+: [])) ∧
      ∀ sym, tableGet (tableOf [] [(0x61#8, [false])]) sym ≠ [] →
        ¬ (tableGet (tableOf [] [(0x61#8, [false])]) sym <+: [true, false, false, false, false, false, false]) := by
  refine ⟨fun sym h hp => h (List.prefix_nil.1 hp), fun sym h => ?_⟩
  simp only [tableOf, List.foldl, tableGet_set, tableGet_fill] at h ⊢
  split
  · decide
  · rename_i hs; simp [hs] at h

theorem encode_aaab_fields :
    let t := after .encode (start aaab)
    t.errCode = 0#8 ∧ t.outPtr = 25#32 ∧ t.dstBase = 0x8000#32 ∧ t.unbacked = [] := by decide +kernel
theorem encode_aaab : runsOk .encode (start aaab) (after .encode (start aaab)) := ⟨exec_after _ _, encode_aaab_fields.1⟩

theorem tableFor_aaab : tableFor aaab = aaabCodes := by
  have h : histogramOf aaab = aaabHist := by
    refine table_ext fun sym => ?_
    simp only [histogramOf, tableGet, Vector.getElem_ofFn, BitVec.ofNat_toNat, BitVec.setWidth_eq]
    change _ = tableGet aaabHist sym
    simp only [aaabHist, tableOf, List.foldl, tableGet_set, tableGet_fill, aaab]
    split
    · rename_i hs; subst hs; decide
    · split
      · rename_i hs; subst hs; decide
      · rw [List.count_eq_zero_of_not_mem (by simp_all)]
  rw [tableFor, h, aaab_tree]
  decide +kernel

theorem witness_EncodeWritesTheContainer :
    (start aaab).srcLen ≠ 0#32 ∧ bothUsable (start aaab) ∧
      srcBytes (start aaab) = aaab ∧ (∀ sym, (tableGet (tableFor aaab) sym).length ≤ 23) ∧
      containerOf aaab = aaabContainer ∧ aaabContainer.length ≤ (start aaab).dstCap.toNat ∧ (start []).srcLen = 0#32 :=
  ⟨by decide +kernel, start_usable, by decide +kernel, by rw [tableFor_aaab]; exact aaabCodes_usable.2.1,
    by unfold containerOf; rw [tableFor_aaab, coded_facts.2.2, tableField, coded_facts.2.2]; decide +kernel,
    by decide +kernel, rfl⟩

/-- The input of V-CP19. -/
def fibInput : List Byte := fibCounts.flatMap fun p => List.replicate p.2.toNat p.1

theorem tableGet_foldl_set (entries : List (Byte × Word)) (h : (entries.map Prod.fst).Nodup) (t : Table Word) (b : Byte) :
    (tableGet (entries.foldl (fun t e => tableSet t e.1 e.2) t) b).toNat =
      (entries.map fun p => if p.1 == b then p.2.toNat else 0).sum +
        if b ∈ entries.map Prod.fst then 0 else (tableGet t b).toNat := by
  induction entries generalizing t with
  | nil => simp
  | cons e rest ih =>
    simp only [List.map_cons, List.nodup_cons] at h
    rw [List.foldl_cons, ih h.2, List.map_cons, List.sum_cons, List.map_cons, tableGet_set]
    by_cases hb : e.1 = b
    · subst hb
      simp [h.1, Nat.add_comm]
    · have hb' : ¬ b = e.1 := fun hbe => hb hbe.symm
      simp [hb, hb']

theorem histogramOf_fibInput : histogramOf fibInput = tableOf 0#32 fibCounts := by
  refine table_ext fun sym => ?_
  have hc : fibInput.count sym = (tableGet (tableOf 0#32 fibCounts) sym).toNat := by
    rw [tableOf, tableGet_foldl_set _ (by decide +kernel), fibInput, List.count_flatMap]
    simp [Function.comp_def, List.count_replicate]
  rw [histogramOf, tableGet]
  simp only [Vector.getElem_ofFn, BitVec.ofNat_toNat, BitVec.setWidth_eq, hc]

theorem srcBytes_start (input : List Byte) (h : input.length < 4294967296) (base : Word) :
    srcBytes { start input with dstBase := base } = input := by
  have hl : (start input).srcLen.toNat = input.length := by simp [start]; omega
  refine List.ext_getElem (by simp [srcBytes, hl]) fun i h1 h2 => ?_
  simp only [srcBytes, List.getElem_map, List.getElem_range]
  exact readByte_writeBytes_inside _ _ _ _ h2

/-- V-CP19: a code that is too long, for the smallest symbol of all. -/
theorem witness_EncodeErrors_codeTooLong :
    let s : State := { start fibInput with dstBase := 0x800000#32 }
    s.srcLen ≠ 0#32 ∧ bothUsable s ∧ 23 < (tableGet (tableFor (srcBytes s)) 0#8).length ∧
      ∀ b : Byte, ¬ b.toNat < (0#8).toNat := by
  have hl : fibInput.length = 196417 := by
    rw [fibInput, List.length_flatMap]
    simp only [List.length_replicate]
    decide +kernel
  have hs : (start fibInput).srcLen = 196417#32 := by simp [start, hl]
  refine ⟨?_, bothUsable_everywhere rfl ?_ ?_, ?_, fun b => Nat.not_lt_zero _⟩
  · rw [hs]; decide
  · rw [hs]; decide
  · change (0x800000#32).toNat + (0x40#32).toNat ≤ 4294967296; decide
  · have he := srcBytes_start fibInput (by rw [hl]; decide) 0x800000#32
    have ht := (witness_LongCodesRaiseCodeTooLong.1.tree rfl).2.2
    have hw := witness_LongCodesRaiseCodeTooLong.2.2.2.1
    rw [ht] at hw
    rwa [he, tableFor, histogramOf_fibInput]

/-- The header or the payload does not fit (V-CP11, V-CP12). -/
theorem witness_EncodeErrors :
    14 + 5 * (codedSymbols aaabCodes).length = 24 ∧ { start aaab with dstCap := 23#32 }.dstCap.toNat < 24 ∧
      24 ≤ { start aaab with dstCap := 24#32 }.dstCap.toNat ∧
      { start aaab with dstCap := 24#32 }.dstCap.toNat < aaabContainer.length := by
  rw [coded_facts.2.2]
  decide +kernel

theorem witness_CompositesEqualTheirUnitCommands :
    bothUsable (start aaab) ∧ (start aaab).srcLen ≠ 0#32 ∧ runsOk .encode (start aaab) (after .encode (start aaab)) ∧
      bothUsable packed ∧ runsOk .decode packed (after .decode packed) ∧ runsOk .hdrRead packed (after .hdrRead packed) :=
  ⟨start_usable, by decide +kernel, encode_aaab, packed_usable, ⟨exec_after _ _, by decide +kernel⟩,
    ⟨exec_after _ _, by decide +kernel⟩⟩

theorem witness_DecodeReadsTheContainer :
    bothUsable packed ∧ srcHeader packed [(0x61#8, [true]), (0x62#8, [false])] aaab.length 1 ∧
      aaab.length ≤ packed.dstCap.toNat ∧
      ∀ ct, tableIs ct [(0x61#8, [true]), (0x62#8, [false])] → (∀ b ∈ aaab, tableGet ct b ≠ []) ∧
        codeStream ct aaab <+: payloadBits { packed with inPtr := 24#32, decPbytes := 1#32 } := by
  refine ⟨packed_usable, witness_HdrReadAcceptsAGoodHeader.2, by decide +kernel, fun ct h => ?_⟩
  have ha : tableGet ct 0x61#8 = [true] := h.1 (0x61#8, [true]) (by simp)
  have hb : tableGet ct 0x62#8 = [false] := h.1 (0x62#8, [false]) (by simp)
  refine ⟨by simp [aaab, ha, hb], ?_⟩
  have : codeStream ct aaab = [true, true, true, false] := by simp [codeStream, aaab, ha, hb]
  rw [this]
  decide +kernel

theorem witness_RoundTrip :
    let t := after .encode (start aaab)
    let u : State := { t with srcBase := t.dstBase, srcLen := t.outPtr, dstBase := 0x9000#32, dstCap := 4#32 }
    (start aaab).srcLen ≠ 0#32 ∧ runsOk .encode (start aaab) t ∧ (start aaab).srcLen.toNat ≤ (4#32).toNat ∧
      dstUsable u ∧ windowsApart u := by
  obtain ⟨h1, h2, h3, h4⟩ := encode_aaab_fields
  refine ⟨by decide +kernel, encode_aaab, by decide +kernel,
    ⟨by unfold windowInSpace; decide +kernel, windowBacked_everywhere (by simp only [h4]) _ _⟩, .inr (.inr (.inr ?_))⟩
  rw [h2, h3]
  decide

theorem witness_EncodeIsBitExact :
    srcBytes (start aaab) = srcBytes { start aaab with dstBase := 0x9000#32 } ∧
      runsOk .encode (start aaab) (after .encode (start aaab)) ∧
      runsOk .encode { start aaab with dstBase := 0x9000#32 } (after .encode { start aaab with dstBase := 0x9000#32 }) :=
  ⟨by decide +kernel, encode_aaab, exec_after _ _, by decide +kernel⟩

theorem witness_StepKeepsTheInvariant :
    Inv (upNext coded .core) ∧ codesUsable (upNext coded .core) ∧ step (upNext coded .core) = .next coded :=
  ⟨⟨built_inv.memory, built_inv.total, built_inv.arena, aaabCodes_usable.2.1, built_inv.writer, built_inv.protocol,
    built_inv.errors, built_inv.success, built_inv.tree⟩, fun _ => aaabCodes_usable, rfl⟩

theorem witness_ValidityFlagsFollowTheTable :
    let s := upNext { built with busy := true, cmdLast := 0x21#32 } .core
    runsOk .codeAssign built (after .codeAssign built) ∧ step s = .next (nextOf (step s)) ∧ ¬ sameFlags s (nextOf (step s)) :=
  ⟨⟨exec_after _ _, by decide +kernel⟩, by
    rw [step_core rfl, coreStep_busy rfl, completion_legal (i := .codeAssign) (by decide), exec_after]
    rfl, by unfold sameFlags; decide +kernel⟩

end Sys2Proof.Tests
end

section
/-! Proofs about the register file (10_state.md): what a write to ACK leaves, and the two fields of CODE_LENS. -/

namespace Sys2Proof.Machine

/-! ### ACK (10_state.md R30) -/

@[simp] theorem regStore_ack (s : State) (v : Word) : regStore s 0x18 v = writeAck s v := rfl

@[simp] theorem regValue_ack (s : State) : regValue s 0x18 = 0#32 := rfl

/-- The model masks the two flags; R30 says it bit by bit. -/
theorem writeAck_eq (s : State) (v : Word) :
    writeAck s v = { s with
      done := if v.getLsbD 0 then false else s.done,
      overrun := if v.getLsbD 1 then false else s.overrun } := by
  have mask (a b : Bool) : (a && !b) = if b then false else a := by cases b <;> simp
  simp only [writeAck, mask]

/-- Settles O8: the address reaches ACK, and the store there masks DONE and OVERRUN. -/
theorem ackClearsDoneAndOverrun : Obligations.AckClearsDoneAndOverrun := by
  unfold Obligations.AckClearsDoneAndOverrun
  intro s addr v rest ht ha
  have ho : regOffset s addr = some 0x18 := regOffset_of_addressesReg ha (by decide) (by decide)
  exact ⟨by rw [step_regWrite ht ho, regStore_ack, writeAck_eq], regValue_ack s⟩

/-! ### CODE_LENS (10_state.md R48) -/

@[simp] theorem regValue_codeLens (s : State) : regValue s 0x60 = codeLensReg s := rfl

theorem codeLengths_eq_nil {ct : Table Bits} (h : ∀ sym, tableGet ct sym = []) : codeLengths ct = [] := by
  refine List.eq_nil_iff_forall_not_mem.2 fun n hn => ?_
  obtain ⟨sym, hs, -⟩ := (mem_codeLengths ct n).1 hn
  exact hs (h sym)

theorem minLen_of_noCode {ct : Table Bits} (h : ∀ sym, tableGet ct sym = []) : minLen ct = 0 := by
  simp [minLen, codeLengths_eq_nil h]

theorem maxLen_of_noCode {ct : Table Bits} (h : ∀ sym, tableGet ct sym = []) : maxLen ct = 0 := by
  simp [maxLen, codeLengths_eq_nil h]

/-- The two fields of CODE_LENS do not touch when both lengths fit a byte. -/
theorem codeLensReg_toNat {s : State} (hlo : minLen s.ct < 256) (hhi : maxLen s.ct < 256) :
    (codeLensReg s).toNat = minLen s.ct + 256 * maxLen s.ct := by
  have hor : minLen s.ct ||| maxLen s.ct <<< 8 = maxLen s.ct <<< 8 + minLen s.ct := by
    rw [Nat.or_comm, Nat.shiftLeft_add_eq_or_of_lt hlo]
  rw [codeLensReg, hor, Nat.shiftLeft_eq, BitVec.toNat_ofNat]
  omega

/-- Settles O11: with no code both fields are 0; with one, the extreme lengths are lengths of codes, so they fit their fields. -/
theorem codeLensAreTheExtremeLengths : Obligations.CodeLensAreTheExtremeLengths := by
  unfold Obligations.CodeLensAreTheExtremeLengths
  intro s hlen
  constructor
  · intro hnone
    simp [codeLensReg, minLen_of_noCode hnone, maxLen_of_noCode hnone]
  · intro hsome
    obtain ⟨lo, hlo, hmin⟩ := exists_minLen hsome
    obtain ⟨hi, hhi, hmax⟩ := exists_maxLen hsome
    have hlo23 := hlen lo
    have hhi23 := hlen hi
    exact ⟨minLen s.ct, maxLen s.ct, codeLensReg_toNat (by omega) (by omega), ⟨lo, hlo, hmin⟩, ⟨hi, hhi, hmax⟩,
      fun sym hs => ⟨minLen_le hs, le_maxLen hs⟩⟩

end Sys2Proof.Machine
end

section
/-! Proofs about the SRC and DST windows (20_memory.md): which command makes which window check, in which order, and that
E_RANGE, E_BUS and E_OVERLAP come from those checks alone. -/

namespace Sys2Proof.Machine

/-! ### The window check of a command (20_memory.md R76) -/

/-- The window check a command makes, by the windows it uses. -/
def windowCheckOf (i : Instr) (s : State) : Option CmdError :=
  match usesSrc i, usesDst i with
  | true, true => windowsCheck s
  | true, false => srcCheck s
  | false, true => dstCheck s
  | false, false => none

theorem windowCheckOf_both {i : Instr} (s : State) (hs : usesSrc i = true) (hd : usesDst i = true) :
    windowCheckOf i s = windowsCheck s := by
  simp [windowCheckOf, hs, hd]

theorem windowCheckOf_srcOnly {i : Instr} (s : State) (hs : usesSrc i = true) (hd : usesDst i = false) :
    windowCheckOf i s = srcCheck s := by
  simp [windowCheckOf, hs, hd]

theorem windowCheckOf_dstOnly {i : Instr} (s : State) (hs : usesSrc i = false) (hd : usesDst i = true) :
    windowCheckOf i s = dstCheck s := by
  simp [windowCheckOf, hs, hd]

theorem windowCheckOf_neither {i : Instr} (s : State) (hs : usesSrc i = false) (hd : usesDst i = false) :
    windowCheckOf i s = none := by
  simp [windowCheckOf, hs, hd]

/-! ### What a command's window check reports, in order -/

theorem windowCheckOf_srcRange {i : Instr} {s : State} (hs : usesSrc i = true) (h : ¬ windowInSpace s.srcBase s.srcLen) :
    windowCheckOf i s = some ⟨.range, 0#32⟩ := by
  cases hd : usesDst i
  · rw [windowCheckOf_srcOnly s hs hd]; exact (srcCheck_errors s).1 h
  · obtain ⟨hrange, -⟩ := windowsCheck_errors s
    rw [windowCheckOf_both s hs hd]; exact hrange h

theorem windowCheckOf_dstRange {i : Instr} {s : State} (hd : usesDst i = true)
    (hsrc : usesSrc i = true → windowInSpace s.srcBase s.srcLen) (h : ¬ windowInSpace s.dstBase s.dstCap) :
    windowCheckOf i s = some ⟨.range, 1#32⟩ := by
  cases hs : usesSrc i
  · rw [windowCheckOf_dstOnly s hs hd]; exact (dstCheck_errors s).1 h
  · obtain ⟨-, hrange, -⟩ := windowsCheck_errors s
    rw [windowCheckOf_both s hs hd]; exact hrange (hsrc hs) h

theorem windowCheckOf_srcBus {i : Instr} {s : State} {a : Nat} (hs : usesSrc i = true)
    (hsrc : windowInSpace s.srcBase s.srcLen) (hdst : usesDst i = true → windowInSpace s.dstBase s.dstCap)
    (ha : lowestUnbackedIn s s.srcBase s.srcLen a) : windowCheckOf i s = some ⟨.bus, BitVec.ofNat 32 a⟩ := by
  cases hd : usesDst i
  · rw [windowCheckOf_srcOnly s hs hd]; exact (srcCheck_errors s).2 hsrc a ha
  · obtain ⟨-, -, hbus, -⟩ := windowsCheck_errors s
    rw [windowCheckOf_both s hs hd]; exact hbus hsrc (hdst hd) a ha

theorem windowCheckOf_dstBus {i : Instr} {s : State} {a : Nat} (hd : usesDst i = true)
    (hdst : windowInSpace s.dstBase s.dstCap) (hsrc : usesSrc i = true → srcUsable s)
    (ha : lowestUnbackedIn s s.dstBase s.dstCap a) : windowCheckOf i s = some ⟨.bus, BitVec.ofNat 32 a⟩ := by
  cases hs : usesSrc i
  · rw [windowCheckOf_dstOnly s hs hd]; exact (dstCheck_errors s).2 hdst a ha
  · obtain ⟨-, -, -, hbus, -⟩ := windowsCheck_errors s
    rw [windowCheckOf_both s hs hd]; exact hbus (hsrc hs) hdst a ha

theorem windowCheckOf_overlap {i : Instr} {s : State} (hs : usesSrc i = true) (hd : usesDst i = true)
    (hsrc : srcUsable s) (hdst : dstUsable s) (h : ¬ windowsApart s) : windowCheckOf i s = some ⟨.overlap, 0#32⟩ := by
  obtain ⟨-, -, -, -, hoverlap⟩ := windowsCheck_errors s
  rw [windowCheckOf_both s hs hd]; exact hoverlap hsrc hdst h

theorem windowCheckOf_eq_none {s : State} (i : Instr) (h : bothUsable s) : windowCheckOf i s = none := by
  have ⟨hsrc, hdst, _⟩ := h
  unfold windowCheckOf
  split
  · exact (windowsCheck_eq_none s).2 h
  · exact (srcCheck_eq_none s).2 hsrc
  · exact (dstCheck_eq_none s).2 hdst
  · rfl

/-! ### Each error only where its check fails -/

/-- A fault of the windows that explains an error code, for a command that uses SRC or not and DST or not (R73 to R75). -/
def windowFault (src dst : Bool) (s : State) : ErrCode → Prop
  | .range => (src = true ∧ ¬ windowInSpace s.srcBase s.srcLen) ∨ (dst = true ∧ ¬ windowInSpace s.dstBase s.dstCap)
  | .bus => (src = true ∧ ¬ windowBacked s s.srcBase s.srcLen) ∨ (dst = true ∧ ¬ windowBacked s s.dstBase s.dstCap)
  | .overlap => src = true ∧ dst = true ∧ ¬ windowsApart s
  | _ => False

theorem rangeCheck_eq_some {base len info : Word} {e : CmdError} (h : rangeCheck base len info = some e) :
    e.code = .range ∧ ¬ windowInSpace base len := by
  have hn : ¬ windowInSpace base len := fun hw => by simp [(rangeCheck_eq_none base len info).2 hw] at h
  exact ⟨by rw [(raiseIf_eq_some h).2], hn⟩

theorem busCheck_eq_some {s : State} {base len : Word} {e : CmdError} (h : busCheck s base len = some e) :
    e.code = .bus ∧ ¬ windowBacked s base len := by
  have hn : ¬ windowBacked s base len := fun hw => by simp [(busCheck_eq_none s base len).2 hw] at h
  refine ⟨?_, hn⟩
  unfold busCheck at h
  split at h
  · cases h; rfl
  · cases h

theorem overlapCheck_eq_some {s : State} {e : CmdError} (h : overlapCheck s = some e) :
    e.code = .overlap ∧ ¬ windowsApart s := by
  have hn : ¬ windowsApart s := fun hw => by simp [(overlapCheck_eq_none s).2 hw] at h
  exact ⟨by rw [(raiseIf_eq_some h).2], hn⟩

theorem or_eq_some_cases {α : Type} {a b : Option α} {e : α} (h : a.or b = some e) : a = some e ∨ b = some e :=
  (Option.or_eq_some_iff.1 h).imp_right And.right

theorem srcCheck_fault {s : State} {e : CmdError} (h : srcCheck s = some e) : windowFault true false s e.code := by
  rcases or_eq_some_cases h with h | h
  · obtain ⟨hc, hw⟩ := rangeCheck_eq_some h
    rw [hc]; exact .inl ⟨rfl, hw⟩
  · obtain ⟨hc, hw⟩ := busCheck_eq_some h
    rw [hc]; exact .inl ⟨rfl, hw⟩

theorem dstCheck_fault {s : State} {e : CmdError} (h : dstCheck s = some e) : windowFault false true s e.code := by
  rcases or_eq_some_cases h with h | h
  · obtain ⟨hc, hw⟩ := rangeCheck_eq_some h
    rw [hc]; exact .inr ⟨rfl, hw⟩
  · obtain ⟨hc, hw⟩ := busCheck_eq_some h
    rw [hc]; exact .inr ⟨rfl, hw⟩

theorem windowsCheck_fault {s : State} {e : CmdError} (h : windowsCheck s = some e) : windowFault true true s e.code := by
  rcases or_eq_some_cases h with h | h
  · obtain ⟨hc, hw⟩ := rangeCheck_eq_some h
    rw [hc]; exact .inl ⟨rfl, hw⟩
  rcases or_eq_some_cases h with h | h
  · obtain ⟨hc, hw⟩ := rangeCheck_eq_some h
    rw [hc]; exact .inr ⟨rfl, hw⟩
  rcases or_eq_some_cases h with h | h
  · obtain ⟨hc, hw⟩ := busCheck_eq_some h
    rw [hc]; exact .inl ⟨rfl, hw⟩
  rcases or_eq_some_cases h with h | h
  · obtain ⟨hc, hw⟩ := busCheck_eq_some h
    rw [hc]; exact .inr ⟨rfl, hw⟩
  · obtain ⟨hc, hw⟩ := overlapCheck_eq_some h
    rw [hc]; exact ⟨rfl, rfl, hw⟩

theorem windowCheckOf_fault {i : Instr} {s : State} {e : CmdError} (h : windowCheckOf i s = some e) :
    windowFault (usesSrc i) (usesDst i) s e.code := by
  cases hs : usesSrc i <;> cases hd : usesDst i
  · rw [windowCheckOf_neither s hs hd] at h; cases h
  · rw [windowCheckOf_dstOnly s hs hd] at h; exact dstCheck_fault h
  · rw [windowCheckOf_srcOnly s hs hd] at h; exact srcCheck_fault h
  · rw [windowCheckOf_both s hs hd] at h; exact windowsCheck_fault h

/-! ### The checks that report no window error -/

/-- The errors of the window checks. -/
def isWindowError : ErrCode → Bool
  | .range | .bus | .overlap => true
  | _ => false

/-- A check that reports no window error. -/
def noWindowError (c : Option CmdError) : Prop := ∀ e, c = some e → isWindowError e.code = false

theorem noWindowError.or {a b : Option CmdError} (ha : noWindowError a) (hb : noWindowError b) : noWindowError (a.or b) :=
  fun e h => (or_eq_some_cases h).elim (ha e) (hb e)

theorem noWindowError_raiseIf {code : ErrCode} (h : isWindowError code = false) (c : Prop) [Decidable c] (info : Word) :
    noWindowError (raiseIf c code info) := by
  intro e he
  rw [(raiseIf_eq_some he).2]
  exact h

theorem noWindowError_findSome? {α : Type} (l : List α) {f : α → Option CmdError} (h : ∀ x, noWindowError (f x)) :
    noWindowError (l.findSome? f) := by
  intro e he
  obtain ⟨x, -, hx⟩ := List.exists_of_findSome?_eq_some he
  exact h x e hx

theorem noWindowError_flags (missing : Word) : noWindowError (sequenceCheck missing) := noWindowError_raiseIf rfl _ _

theorem noWindowError_dstFull (s : State) (n : Nat) : noWindowError (dstFullCheck s n) := noWindowError_raiseIf rfl _ _

theorem noWindowError_truncated (s : State) (n : Nat) : noWindowError (truncatedCheck s n) := noWindowError_raiseIf rfl _ _

theorem noWindowError_tooLong (ct : Table Bits) : noWindowError (tooLongCheck ct) :=
  noWindowError_findSome? _ fun _ => noWindowError_raiseIf rfl _ _

theorem noWindowError_noCodeInHist (s : State) : noWindowError (noCodeInHist s) :=
  noWindowError_findSome? _ fun _ => noWindowError_raiseIf rfl _ _

theorem noWindowError_noCodeInSrc (s : State) : noWindowError (noCodeInSrc s) :=
  noWindowError_findSome? _ fun _ => noWindowError_raiseIf rfl _ _

theorem noWindowError_entry (i : Nat) (sym : Byte) (w : Word) (before : List (Byte × Bits)) :
    noWindowError (entryCheck i sym w before) :=
  (noWindowError_raiseIf rfl _ _).or ((noWindowError_raiseIf rfl _ _).or (noWindowError_raiseIf rfl _ _))

theorem readEntries_noWindowError {s : State} {n i : Nat} {before : List (Byte × Bits)} {e : CmdError}
    (h : readEntries s n i before = .error e) : isWindowError e.code = false := by
  induction n generalizing i before with
  | zero => cases h
  | succ n ih =>
    rw [readEntries_succ] at h
    cases hr : readEntry s i before with
    | error c =>
      rw [hr] at h
      cases h
      exact noWindowError_entry _ _ _ _ _ (readEntry_error.1 hr)
    | ok entry =>
      rw [hr] at h
      exact ih h

theorem unpackLoop_noWindowError {s : State} {nbits want lo hi fuel pos : Nat} {cand : Bits} {out : List Byte} {e : CmdError}
    (h : unpackLoop s nbits want lo hi fuel pos cand out = .error e) : isWindowError e.code = false := by
  induction fuel generalizing pos cand out with
  | zero => cases h; rfl
  | succ fuel ih =>
    unfold unpackLoop at h
    dsimp only at h
    split at h
    · cases h
    split at h
    · cases h; rfl
    split at h
    · exact ih h
    split at h
    · cases h; rfl
    · exact ih h

/-! ### The errors of one command -/

/-- Where a window check stands between two checks that report no window error, a window error is its own. -/
theorem windowCheck_of_or {pre window post : Option CmdError} {e : CmdError} (hpre : noWindowError pre)
    (hpost : noWindowError post) (h : pre.or (window.or post) = some e) (he : isWindowError e.code = true) :
    window = some e := by
  rcases or_eq_some_cases h with h | h
  · simp [hpre e h] at he
  rcases or_eq_some_cases h with h | h
  · exact h
  · simp [hpost e h] at he

theorem hdrReadRule_error_cases {s : State} {e : CmdError} (h : hdrReadRule s = .error e) :
    hdrReadCheck s = some e ∨ isWindowError e.code = false := by
  unfold hdrReadRule at h
  split at h
  · rename_i hc; cases h; exact .inl hc
  split at h
  · rename_i hr; cases h; exact .inr (readEntries_noWindowError hr)
  split at h
  · rename_i ht; cases h; exact .inr (noWindowError_truncated _ _ _ ht)
  · cases h

theorem unpackRule_error_cases {s : State} {e : CmdError} (h : unpackRule s = .error e) :
    unpackCheck s = some e ∨ isWindowError e.code = false := by
  unfold unpackRule at h
  split at h
  · rename_i hc; cases h; exact .inl hc
  split at h
  · rename_i hu; cases h; exact .inr (unpackLoop_noWindowError hu)
  · cases h

/-- A command that is no composite (47_composite.md). -/
def isUnit (i : Instr) : Prop := i ≠ .encode ∧ i ≠ .decode

theorem error_of_atStage {stage : Byte} {x : Except CmdError State} {r : Raised} (h : atStage stage x = .error r) :
    x = .error r.err := by
  obtain ⟨c, hc, rfl⟩ := atStage_eq_error.1 h
  exact hc

/-- A unit command reports a window error only from its window check. -/
theorem windowCheckOf_of_unit_error {i : Instr} {s : State} {r : Raised} (hi : isUnit i) (h : runOf i s = .error r)
    (hr : isWindowError r.err.code = true) : windowCheckOf i s = some r.err := by
  have flags := noWindowError_flags
  have raise {code : ErrCode} (hc : isWindowError code = false) := @noWindowError_raiseIf code hc
  have nothing : noWindowError none := fun _ h => by cases h
  have only {c : Option CmdError} (hc : noWindowError c) (h : c = some r.err) : windowCheckOf i s = some r.err := by
    simp [hc _ h] at hr
  cases i with
  | encode => exact absurd rfl hi.1
  | decode => exact absurd rfl hi.2
  | nop | sreset | histClear | packReset => cases h
  | histByte _ | treeBuild =>
    exact only (raise rfl _ _) (guarded_eq_error.1 (error_of_atStage h))
  | codeAssign =>
    exact only ((flags _).or (noWindowError_tooLong _)) (guarded_eq_error.1 (error_of_atStage h))
  | histAccum =>
    exact windowCheck_of_or nothing (raise rfl _ _) (guarded_eq_error.1 (error_of_atStage h)) hr
  | hdrWrite =>
    exact windowCheck_of_or (flags _) ((noWindowError_noCodeInHist s).or ((raise rfl _ _).or (noWindowError_dstFull _ _)))
      (guarded_eq_error.1 (error_of_atStage h)) hr
  | packSym sym last =>
    exact windowCheck_of_or (flags _) ((raise rfl _ _).or ((raise rfl _ _).or (noWindowError_dstFull _ _)))
      (guarded_eq_error.1 (error_of_atStage h)) hr
  | packBlock last =>
    exact windowCheck_of_or (flags _) ((noWindowError_noCodeInSrc s).or ((raise rfl _ _).or (noWindowError_dstFull _ _)))
      (guarded_eq_error.1 (error_of_atStage h)) hr
  | packFlush =>
    exact windowCheck_of_or nothing (noWindowError_dstFull _ _) (guarded_eq_error.1 (error_of_atStage h)) hr
  | hdrRead =>
    rcases hdrReadRule_error_cases (error_of_atStage h) with h | h
    · exact windowCheck_of_or nothing ((noWindowError_truncated _ _).or ((raise rfl _ _).or
        ((noWindowError_truncated _ _).or ((raise rfl _ _).or (noWindowError_truncated _ _))))) h hr
    · simp [h] at hr
  | unpack =>
    rcases unpackRule_error_cases (error_of_atStage h) with h | h
    · exact windowCheck_of_or (flags _) ((noWindowError_truncated _ _).or (noWindowError_dstFull _ _)) h hr
    · simp [h] at hr

/-- The window check decides a command that finds its flags; ENCODE of an empty input makes none (R76, R211, R213). -/
theorem runOf_error_of_windowCheckOf {i : Instr} {s : State} {e : CmdError} (hf : missingFlags i s = 0#32)
    (hi : i = .encode → s.srcLen ≠ 0#32) (h : windowCheckOf i s = some e) : runOf i s = .error ⟨opcodeOf i, e⟩ := by
  cases i with
  | nop | sreset | histClear | histByte _ | treeBuild | codeAssign | packReset => cases h
  | histAccum =>
    have h : srcCheck s = some e := h
    simp [runOf, histAccumRule, histAccumCheck, h]
  | hdrWrite =>
    have h : dstCheck s = some e := h
    have hf : needCodes s = none := by simpa [missingFlags] using hf
    simp [runOf, hdrWriteRule, hdrWriteCheck, h, hf]
  | packSym sym last =>
    have h : dstCheck s = some e := h
    have hf : needCodes s = none := by simpa [missingFlags] using hf
    simp [runOf, packSymRule, packSymCheck, h, hf]
  | packBlock last =>
    have h : windowsCheck s = some e := h
    have hf : needCodes s = none := by simpa [missingFlags] using hf
    simp [runOf, packBlockRule, packBlockCheck, h, hf]
  | packFlush =>
    have h : dstCheck s = some e := h
    simp [runOf, packFlushRule, packFlushCheck, h]
  | hdrRead =>
    have h : srcCheck s = some e := h
    simp [runOf, hdrReadRule, hdrReadCheck, h]
  | unpack =>
    have h : windowsCheck s = some e := h
    have hf : needCodesAndHdr s = none := by
      rw [needCodesAndHdr_eq_none]
      cases hc : s.codesValid <;> cases hh : s.hdrValid <;> simp_all [missingFlags]
    simp [runOf, unpackRule, unpackCheck, h, hf]
  | encode =>
    have h : windowsCheck s = some e := h
    simp [runOf, encodeRun, hi rfl, runComposite, h]
  | decode =>
    have h : windowsCheck s = some e := h
    simp [runOf, decodeRun, runComposite, h]

/-! ### The composites (47_composite.md R200, R201) -/

theorem sameProgramming.refl (s : State) : sameProgramming s s :=
  ⟨rfl, rfl, rfl, rfl, rfl, rfl, rfl, rfl, rfl, rfl, rfl, rfl, rfl, rfl⟩

theorem sameButWriter.programming {s t : State} (h : sameButWriter s t) : sameProgramming s t := by
  unfold sameButWriter at h
  rw [h]
  exact .refl s

theorem sameProgramming_dstWriteAll (s : State) (bytes : List Byte) (p : Word) :
    sameProgramming s { dstWriteAll s 0 bytes with outPtr := p } := by
  rw [dstWriteAll_eq]
  exact .refl s

theorem hdrReadRule_ok_effect {s t : State} (h : hdrReadRule s = .ok t) : ∃ es, t = hdrReadEffect s es := by
  unfold hdrReadRule at h
  split at h
  · cases h
  split at h
  · cases h
  split at h
  · cases h
  · cases h; exact ⟨_, rfl⟩

theorem unpackRule_ok_effect {s t : State} (h : unpackRule s = .ok t) : ∃ out, t = unpackEffect s out := by
  unfold unpackRule at h
  split at h
  · cases h
  split at h
  · cases h
  · cases h; exact ⟨_, rfl⟩

/-- The effect of a unit command leaves the host's programming as it was (30_encoding.md R108). -/
theorem sameProgramming_of_unit_ok {i : Instr} {s t : State} (hi : isUnit i) (h : runOf i s = .ok t) :
    sameProgramming s t := by
  cases i with
  | encode => exact absurd rfl hi.1
  | decode => exact absurd rfl hi.2
  | nop | sreset | histClear | packReset =>
    cases h
    exact .refl s
  | histByte _ | histAccum | treeBuild | codeAssign =>
    obtain ⟨-, rfl⟩ := guarded_eq_ok.1 (atStage_eq_ok.1 h)
    exact .refl s
  | hdrWrite =>
    obtain ⟨-, rfl⟩ := guarded_eq_ok.1 (atStage_eq_ok.1 h)
    exact sameProgramming_dstWriteAll _ _ _
  | hdrRead =>
    obtain ⟨es, rfl⟩ := hdrReadRule_ok_effect (atStage_eq_ok.1 h)
    exact .refl s
  | packSym sym last =>
    obtain ⟨-, rfl⟩ := guarded_eq_ok.1 (atStage_eq_ok.1 h)
    exact ((packOne_same s sym).trans (flushIf_same last _).writer).programming
  | packBlock last =>
    obtain ⟨-, rfl⟩ := guarded_eq_ok.1 (atStage_eq_ok.1 h)
    exact ((foldl_packOne_same s _).trans (flushIf_same last _).writer).programming
  | packFlush =>
    obtain ⟨-, rfl⟩ := guarded_eq_ok.1 (atStage_eq_ok.1 h)
    exact (flush_same s).writer.programming
  | unpack =>
    obtain ⟨out, rfl⟩ := unpackRule_ok_effect (atStage_eq_ok.1 h)
    exact sameProgramming_dstWriteAll _ _ _

theorem bothUsable_of_sameProgramming {s t : State} (h : sameProgramming s t) (hu : bothUsable s) : bothUsable t := by
  obtain ⟨-, -, -, hsb, hsl, hdb, hdc, -, -, -, hub, -⟩ := h
  simp only [bothUsable, srcUsable, dstUsable, windowsApart, windowBacked, memBacked, hsb, hsl, hdb, hdc, hub] at hu ⊢
  exact hu

/-- A composite's step: the rule of a unit command, with the stage that command reports. -/
def isUnitStep (p : Byte × Rule) : Prop := ∃ i, isUnit i ∧ ∀ s, runOf i s = atStage p.1 (p.2 s)

theorem encodeSteps_isUnitStep : ∀ p ∈ encodeSteps, isUnitStep p := by
  simp only [encodeSteps, List.forall_mem_cons, List.not_mem_nil, false_implies, implies_true, and_true]
  exact ⟨⟨.histClear, by simp [isUnit], fun _ => rfl⟩, ⟨.histAccum, by simp [isUnit], fun _ => rfl⟩,
    ⟨.treeBuild, by simp [isUnit], fun _ => rfl⟩, ⟨.codeAssign, by simp [isUnit], fun _ => rfl⟩,
    ⟨.hdrWrite, by simp [isUnit], fun _ => rfl⟩, ⟨.packReset, by simp [isUnit], fun _ => rfl⟩,
    ⟨.packBlock true, by simp [isUnit], fun _ => rfl⟩⟩

theorem decodeSteps_isUnitStep : ∀ p ∈ decodeSteps, isUnitStep p := by
  simp only [decodeSteps, List.forall_mem_cons, List.not_mem_nil, false_implies, implies_true, and_true]
  exact ⟨⟨.hdrRead, by simp [isUnit], fun _ => rfl⟩, ⟨.unpack, by simp [isUnit], fun _ => rfl⟩⟩

/-- Once both windows are usable, no step reports a window error: each finds the windows the first one found. -/
theorem runSteps_noWindowError {steps : List (Byte × Rule)} (hsteps : ∀ p ∈ steps, isUnitStep p) {s : State} {r : Raised}
    (hu : bothUsable s) (h : runSteps steps s = .error r) : isWindowError r.err.code = false := by
  induction steps generalizing s with
  | nil => cases h
  | cons p rest ih =>
    obtain ⟨⟨i, hi, hrule⟩, hrest⟩ := List.forall_mem_cons.1 hsteps
    rcases runSteps_cons_error.1 h with ⟨c, hc, rfl⟩ | ⟨u, hok, herr⟩
    · have hrun : runOf i s = .error ⟨p.1, c⟩ := by rw [hrule, hc]; rfl
      by_contra hw
      have := windowCheckOf_of_unit_error hi hrun (by simpa using hw)
      simp [windowCheckOf_eq_none i hu] at this
    · have hrun : runOf i s = .ok u := by rw [hrule, hok]; rfl
      exact ih hrest (bothUsable_of_sameProgramming (sameProgramming_of_unit_ok hi hrun) hu) herr

theorem windowsCheck_of_composite_error {i : Instr} {steps : List (Byte × Rule)} (hsteps : ∀ p ∈ steps, isUnitStep p)
    {s : State} {r : Raised} (h : runComposite i steps s = .error r) (hr : isWindowError r.err.code = true) :
    windowsCheck s = some r.err := by
  unfold runComposite at h
  split at h
  · rename_i hc; cases h; exact hc
  · rename_i hc
    simp [runSteps_noWindowError hsteps ((windowsCheck_eq_none s).1 hc) h] at hr

/-- A command reports a window error only from its window check. -/
theorem windowCheckOf_of_error {i : Instr} {s : State} {r : Raised} (h : runOf i s = .error r)
    (hr : isWindowError r.err.code = true) : windowCheckOf i s = some r.err := by
  by_cases he : i = .encode
  · subst he
    simp only [runOf, encodeRun] at h
    split at h
    · cases h
    · exact windowsCheck_of_composite_error encodeSteps_isUnitStep h hr
  by_cases hd : i = .decode
  · subst hd
    exact windowsCheck_of_composite_error decodeSteps_isUnitStep h hr
  · exact windowCheckOf_of_unit_error ⟨he, hd⟩ h hr

/-! ### The completion -/

theorem opcode_encode (i : Instr) : (encode i).extractLsb' 0 8 = opcodeOf i :=
  congrArg CmdFields.opcode (fieldsOf_encode i)

theorem fails_of_windowCheckOf {i : Instr} {s : State} {e : CmdError} (hf : missingFlags i s = 0#32)
    (hi : i = .encode → s.srcLen ≠ 0#32) (h : windowCheckOf i s = some e) :
    fails i s ((encode i).extractLsb' 0 8) (errByte e.code) e.info := by
  rw [opcode_encode]
  exact exec_of_error (runOf_error_of_windowCheckOf hf hi h)

theorem errByte_injective {c d : ErrCode} (h : errByte c = errByte d) : c = d := by
  revert h; cases c <;> cases d <;> decide

/-- A completion with the number of a window error: the command's windows have the fault it names. -/
theorem windowFault_of_errCode {i : Instr} {s t : State} {code : ErrCode} (h : exec i s = .next t)
    (hc : isWindowError code = true) (ht : t.errCode = errByte code) : windowFault (usesSrc i) (usesDst i) s code := by
  rcases exec_cases h with ⟨r, hr, rfl⟩ | ⟨u, -, rfl⟩
  · have hcode : r.err.code = code := errByte_injective ht
    subst hcode
    exact windowCheckOf_fault (windowCheckOf_of_error hr hc)
  · exact absurd ht.symm (errByte_ne_zero code)

/-- Settles O21: the window check of a command decides it once its flags are there, and no other check, nor any step of a
composite, reports the three errors. -/
theorem windowErrorsInOrder : Obligations.WindowErrorsInOrder := by
  unfold Obligations.WindowErrorsInOrder
  intro i s hf hi
  refine ⟨fun hs h => ?_, fun hd hsrc h => ?_, fun a hs hsrc hdst ha => ?_, fun a hd hdst hsrc ha => ?_,
    fun hs hd hsrc hdst h => ?_, fun t ht => ⟨?_, ?_, ?_⟩⟩
  · exact fails_of_windowCheckOf hf hi (windowCheckOf_srcRange hs h)
  · exact fails_of_windowCheckOf hf hi (windowCheckOf_dstRange hd hsrc h)
  · exact fails_of_windowCheckOf hf hi (windowCheckOf_srcBus hs hsrc hdst ha)
  · exact fails_of_windowCheckOf hf hi (windowCheckOf_dstBus hd hdst hsrc ha)
  · exact fails_of_windowCheckOf hf hi (windowCheckOf_overlap hs hd hsrc hdst h)
  · exact windowFault_of_errCode (code := .range) ht rfl
  · exact windowFault_of_errCode (code := .bus) ht rfl
  · exact windowFault_of_errCode (code := .overlap) ht rfl

end Sys2Proof.Machine
end

section
/-! Proofs about the packed code word (30_encoding.md R117): its length byte, its code bits, the bits that stay 0, and
its reading back. -/

namespace Sys2Proof.Machine

/-- `L`, the top byte of a code word, written as a field of the word. -/
theorem lengthByte_codeWord (code : Bits) (h : code.length ≤ 23) :
    (codeWord code).extractLsb' 24 8 = BitVec.ofNat 8 code.length := by
  rw [← wordLen_codeWord code h, wordLen, BitVec.ofNat_toNat, BitVec.setWidth_eq]

/-- The code's first bit is at `W[L]`, its last at `W[1]`. -/
theorem codeWord_codeBit (code : Bits) (h : code.length ≤ 23) (j : Nat) (hj : j < code.length) :
    (codeWord code).getLsbD (code.length - j) = code[j] := by
  rw [codeWord_getLsbD code h, if_pos (by omega), codeSum_testBit code j hj]

theorem codeWord_bit_zero (code : Bits) (h : code.length ≤ 23) : (codeWord code).getLsbD 0 = false := by
  rw [codeWord_getLsbD code h, if_pos (by omega), codeSum_even]

theorem codeSum_testBit_above (code : Bits) (k : Nat) (hk : code.length < k) : (codeSum code).testBit k = false :=
  Nat.testBit_lt_two_pow ((codeSum_lt code).trans_le (Nat.pow_le_pow_right (by omega) hk))

/-- The bits between the code and the length byte are 0. -/
theorem codeWord_bit_between (code : Bits) (h : code.length ≤ 23) (k : Nat) (hk : code.length < k) (hk24 : k < 24) :
    (codeWord code).getLsbD k = false := by
  rw [codeWord_getLsbD code h, if_pos hk24, codeSum_testBit_above code k hk]

/-- Settles O37: the four parts of the layout, each from the bits of the code word, and the reading back of any word that
agrees with it in the length byte and the code bits. -/
theorem codeWordLayoutAndReadBack : Obligations.CodeWordLayoutAndReadBack := by
  unfold Obligations.CodeWordLayoutAndReadBack
  intro code h
  exact ⟨lengthByte_codeWord code h, codeWord_codeBit code h, codeWord_bit_zero code h, codeWord_bit_between code h,
    wordCode_of_agree code h⟩

end Sys2Proof.Machine
end

section
/-! Proofs about the control part (40_control.md): what a register write does while idle and while BUSY, and the two
control commands NOP and SRESET. -/

namespace Sys2Proof.Machine

/-! ### Register writes (40_control.md R131 to R133) -/

theorem writeCmd_idle {s : State} (hb : s.busy = false) (w : Word) :
    writeCmd s w = { s with cmdLast := w, busy := true, done := false } := by simp [writeCmd, hb]

theorem writeCmd_busy {s : State} (hb : s.busy = true) (w : Word) : writeCmd s w = { s with overrun := true } := by
  simp [writeCmd, hb]

theorem writeIfIdle_busy {s : State} (hb : s.busy = true) (t : State) : writeIfIdle s t = { s with overrun := true } := by
  simp [writeIfIdle, hb]

@[simp] theorem regStore_cmd (s : State) (w : Word) : regStore s 0x04 w = writeCmd s w := rfl

@[simp] theorem regStore_irqEn (s : State) (v : Word) : regStore s 0x14 v = { s with doneIe := v.getLsbD 0 } := rfl

@[simp] theorem regStore_histSel (s : State) (v : Word) : regStore s 0x3C v = { s with histSel := v.extractLsb' 0 8 } := rfl

@[simp] theorem regStore_nodeSel (s : State) (v : Word) : regStore s 0x44 v = { s with nodeSel := v.extractLsb' 0 9 } := rfl

@[simp] theorem regStore_codeSel (s : State) (v : Word) : regStore s 0x58 v = { s with codeSel := v.extractLsb' 0 8 } := rfl

/-- The offsets of the window and pointer registers, SRC_BASE to OUT_PTR (10_state.md R31 to R36). -/
def windowOffsets : List Nat := [0x1C, 0x20, 0x24, 0x28, 0x2C, 0x30]

/-- The offsets of the registers a host write can change (R23). -/
def writableOffsets : List Nat := [0x04, 0x14, 0x18, 0x1C, 0x20, 0x24, 0x28, 0x2C, 0x30, 0x3C, 0x44, 0x58]

/-- A store to a window or pointer register is one that takes effect only while idle (R133). -/
theorem exists_regStore_eq_writeIfIdle {o : Nat} (ho : o ∈ windowOffsets) (s : State) (v : Word) :
    ∃ t, regStore s o v = writeIfIdle s t := by
  simp only [windowOffsets, List.mem_cons, List.not_mem_nil, or_false] at ho
  rcases ho with rfl | rfl | rfl | rfl | rfl | rfl <;> exact ⟨_, rfl⟩

theorem regStore_window_busy {s : State} {o : Nat} (hb : s.busy = true) (ho : o ∈ windowOffsets) (v : Word) :
    regStore s o v = { s with overrun := true } := by
  obtain ⟨t, ht⟩ := exists_regStore_eq_writeIfIdle ho s v
  rw [ht, writeIfIdle_busy hb]

/-- Read-only and unmapped offsets ignore a write (R22, R133). -/
theorem regStore_of_not_writable {o : Nat} (ho : o ∉ writableOffsets) (s : State) (v : Word) : regStore s o v = s := by
  unfold regStore
  split
  case h_13 => rfl
  all_goals exact absurd (by decide) ho

/-- The windows' offsets are word offsets inside the register window, so a host address can reach them. -/
theorem windowOffsets_aligned {o : Nat} (ho : o ∈ windowOffsets) : o < 256 ∧ o % 4 = 0 := by
  revert o
  decide

/-- A host write to an address of a register stores at its offset, whatever the low two address bits. -/
theorem step_regWrite_at {s : State} {addr v : Word} {rest : List Turn} {o : Nat} (ht : s.turns = .regWrite addr v :: rest)
    (ha : addressesReg s addr o) (ho : o < 256) (h4 : o % 4 = 0) :
    step s = .next (regStore { s with turns := rest } o v) :=
  step_regWrite ht (regOffset_of_addressesReg ha ho h4)

/-- Settles O5: the address reaches CMD, and the store there accepts the word or drops it, by BUSY. -/
theorem cmdWriteIsAcceptedOrDropped : Obligations.CmdWriteIsAcceptedOrDropped := by
  unfold Obligations.CmdWriteIsAcceptedOrDropped
  intro s addr w rest ht ha
  have hstep : step s = .next (writeCmd { s with turns := rest } w) := step_regWrite_at ht ha (by decide) (by decide)
  constructor
  · intro hb
    rw [hstep, writeCmd_idle (s := { s with turns := rest }) hb]
  · intro hb
    rw [hstep, writeCmd_busy (s := { s with turns := rest }) hb]

/-- Settles O6: each clause is what the store at its offset does. -/
theorem registerWritesWhileBusy : Obligations.RegisterWritesWhileBusy := by
  unfold Obligations.RegisterWritesWhileBusy
  intro s addr v rest o ht ha
  have hstep := step_regWrite_at ht ha
  refine ⟨fun hb ho => ?windows, fun _ ho => ?irqEn, fun _ ho => ?ack, fun _ ho => ?histSel, fun _ ho => ?nodeSel,
    fun _ ho => ?codeSel, fun hlt h4 ho => ?ignored⟩
  case windows =>
    obtain ⟨hlt, h4⟩ := windowOffsets_aligned ho
    rw [hstep hlt h4, regStore_window_busy (s := { s with turns := rest }) hb ho]
  case ack =>
    subst ho
    rw [hstep (by decide) (by decide), regStore_ack, writeAck]
  case ignored => rw [hstep hlt h4, regStore_of_not_writable ho]
  case irqEn | histSel | nodeSel | codeSel =>
    subst ho
    rw [hstep (by decide) (by decide)]
    simp

/-! ### NOP (R137) -/

/-- Settles O25: the rule of NOP leaves the state as it is, so only the completion's bookkeeping is left. -/
theorem nopOnlyCompletes : Obligations.NopOnlyCompletes := by
  unfold Obligations.NopOnlyCompletes
  refine ⟨by decide, fun s => ?_⟩
  have hrule : runOf .nop s = .ok s := rfl
  rw [exec_of_ok hrule, completeOk_eq_doneState]

/-! ### SRESET (R138) -/

theorem exec_sreset (s : State) : exec .sreset s = .next (doneState (sresetEffect s)) := by
  have hrule : runOf .sreset s = .ok (sresetEffect s) := rfl
  rw [exec_of_ok hrule, completeOk_eq_doneState]

@[simp] theorem regValue_status (s : State) : regValue s 0x08 = statusWord s := rfl

@[simp] theorem regValue_total (s : State) : regValue s 0x34 = BitVec.ofNat 32 (histTotal s.hist) := rfl

@[simp] theorem regValue_ndist (s : State) : regValue s 0x38 = BitVec.ofNat 32 (histDistinct s.hist) := rfl

@[simp] theorem regValue_histData (s : State) : regValue s 0x40 = tableGet s.hist s.histSel := rfl

@[simp] theorem regValue_nodeInfo (s : State) : regValue s 0x48 = nodeInfoReg s := rfl

@[simp] theorem regValue_nodeWeight (s : State) : regValue s 0x4C = nodeWeightReg s := rfl

@[simp] theorem regValue_nnodes (s : State) : regValue s 0x54 = BitVec.ofNat 32 s.nodes.length := rfl

@[simp] theorem regValue_codeData (s : State) : regValue s 0x5C = codeWord (tableGet s.ct s.codeSel) := rfl

@[simp] theorem histDistinct_fill_zero : histDistinct (tableFill 0#32) = 0 := by
  simp [histDistinct, toList_eq_map]

@[simp] theorem codeWord_nil : codeWord [] = 0#32 := by decide

theorem nodeInfoReg_of_noNodes {s : State} (h : s.nodes = []) : nodeInfoReg s = 0#32 := by simp [nodeInfoReg, h]

theorem nodeWeightReg_of_noNodes {s : State} (h : s.nodes = []) : nodeWeightReg s = 0#32 := by simp [nodeWeightReg, h]

theorem codeLensReg_of_noCode {s : State} (h : ∀ sym, tableGet s.ct sym = []) : codeLensReg s = 0#32 := by
  simp [codeLensReg, minLen_of_noCode h, maxLen_of_noCode h]

/-- The offsets of the registers derived from the arrays: TOTAL, NDIST, HIST_DATA, NODE_INFO, NODE_WEIGHT, NNODES,
CODE_DATA, CODE_LENS (R138). -/
def derivedOffsets : List Nat := [0x34, 0x38, 0x40, 0x48, 0x4C, 0x54, 0x5C, 0x60]

/-- With the three arrays empty the derived registers read 0, whatever the selectors. -/
theorem regValue_derived_of_emptyArrays {t : State} (hh : t.hist = tableFill 0#32) (hn : t.nodes = [])
    (hc : t.ct = tableFill []) {o : Nat} (ho : o ∈ derivedOffsets) : regValue t o = 0#32 := by
  have hcode (sym : Byte) : tableGet t.ct sym = [] := by rw [hc, tableGet_fill]
  simp only [derivedOffsets, List.mem_cons, List.not_mem_nil, or_false] at ho
  obtain rfl | rfl | rfl | rfl | rfl | rfl | rfl | rfl := ho
  · rw [regValue_total, hh, histTotal_fill_zero]
  · rw [regValue_ndist, hh, histDistinct_fill_zero]
  · rw [regValue_histData, hh, tableGet_fill]
  · rw [regValue_nodeInfo, nodeInfoReg_of_noNodes hn]
  · rw [regValue_nodeWeight, nodeWeightReg_of_noNodes hn]
  · rw [regValue_nnodes, hn, List.length_nil]
  · rw [regValue_codeData, hcode, codeWord_nil]
  · rw [regValue_codeLens, codeLensReg_of_noCode hcode]

/-- STATUS after a success with no validity flag left: DONE, and OVERRUN where it was set. -/
theorem statusWord_doneState_of_noFlags {t : State} (ht : t.treeValid = false) (hc : t.codesValid = false)
    (hh : t.hdrValid = false) : statusWord (doneState t) = if t.overrun then 0x0000000A#32 else 0x00000002#32 := by
  cases ho : t.overrun <;> simp [statusWord, statusError, doneState, flagBit, ht, hc, hh, ho]

/-- Settles O26: the effect of SRESET is the state the statement writes out; its arrays are empty and its flags clear, so
every derived register and STATUS follow from the lemmas above. -/
theorem sresetRestoresInternalState : Obligations.SresetRestoresInternalState := by
  unfold Obligations.SresetRestoresInternalState
  refine ⟨by decide, fun s => ⟨_, exec_sreset s, rfl, fun o ho => ?derived, ?status⟩⟩
  case derived => exact regValue_derived_of_emptyArrays rfl rfl rfl ho
  case status =>
    rw [regValue_status]
    exact statusWord_doneState_of_noFlags rfl rfl rfl

end Sys2Proof.Machine
end

section
/-! Proofs about the histogram accumulator (41_histogram.md): HIST_CLEAR. -/

namespace Sys2Proof.Machine

/-! ### HIST_CLEAR (R140) -/

theorem exec_histClear (s : State) : exec .histClear s = .next (doneState (withHist s (tableFill 0#32))) := by
  have hrule : runOf .histClear s = .ok (withHist s (tableFill 0#32)) := rfl
  rw [exec_of_ok hrule, completeOk_eq_doneState]

/-- Settles O27: the effect of HIST_CLEAR is the all-zero histogram with the two flags cleared; every count, TOTAL and NDIST
are read off that table. -/
theorem histClearZeroesCounts : Obligations.HistClearZeroesCounts := by
  unfold Obligations.HistClearZeroesCounts
  refine ⟨by decide, fun s => ⟨_, exec_histClear s, rfl, fun sym => ?count, ?total, ?distinct⟩⟩
  case count => exact tableGet_fill 0#32 sym
  case total => exact congrArg (BitVec.ofNat 32) histTotal_fill_zero
  case distinct => exact congrArg (BitVec.ofNat 32) histDistinct_fill_zero

end Sys2Proof.Machine
end

section
/-! Proofs about the tree builder (42_tree.md): the invariant of the merge loop, and the arena TREE_BUILD leaves. -/

namespace Sys2Proof.Machine

/-! ### Appending slots to an arena -/

theorem lt_length_of_childOf {nodes : List Node} {i k : Nat} (h : childOf nodes i k) : k < nodes.length := by
  obtain ⟨w, l, r, hk, -⟩ := h
  exact (List.getElem?_eq_some_iff.1 hk).1

theorem childOf_append {nodes : List Node} (more : List Node) (i : Nat) {k : Nat} (hk : k < nodes.length) :
    childOf (nodes ++ more) i k ↔ childOf nodes i k := by
  simp only [childOf, List.getElem?_append_left hk]

theorem weightAt_append {nodes : List Node} (more : List Node) {i : Nat} (hi : i < nodes.length) :
    weightAt (nodes ++ more) i = weightAt nodes i := by
  simp only [weightAt, List.getElem?_append_left hi]

@[simp] theorem weightAt_append_length (nodes : List Node) (x : Node) :
    weightAt (nodes ++ [x]) nodes.length = (nodeWeight x).toNat := by
  simp [weightAt]

theorem selectedBefore_append {nodes : List Node} (more : List Node) {i j : Nat} (hi : i < nodes.length)
    (hj : j < nodes.length) : selectedBefore (nodes ++ more) i j ↔ selectedBefore nodes i j := by
  simp only [selectedBefore, weightAt_append more hi, weightAt_append more hj]

theorem activeBefore_append {nodes : List Node} (more : List Node) (i : Nat) {k : Nat} (hk : k ≤ nodes.length) :
    activeBefore (nodes ++ more) k i ↔ activeBefore nodes k i := by
  refine and_congr_right fun _ => forall₂_congr fun j hj => ?_
  rw [childOf_append more i (hj.trans_le hk)]

/-- A merge stays the least one when slots are appended: it speaks of the slots before its own only. -/
theorem isLeastMerge_append {nodes : List Node} (more : List Node) {k : Nat} (h : isLeastMerge nodes k) :
    isLeastMerge (nodes ++ more) k := by
  obtain ⟨w, l, r, hk, hne, hl, hr, hleast, hnext, hw⟩ := h
  have hlt : k < nodes.length := (List.getElem?_eq_some_iff.1 hk).1
  have hactive (i : Nat) := activeBefore_append more i hlt.le
  have hbelow {i : Nat} (hi : activeBefore nodes k i) : i < nodes.length := hi.1.trans hlt
  refine ⟨w, l, r, by rwa [List.getElem?_append_left hlt], hne, (hactive _).2 hl, (hactive _).2 hr,
    fun i hi hil => ?least, fun i hi hil hir => ?next, ?weight⟩
  case least =>
    have hi := (hactive i).1 hi
    exact (selectedBefore_append more (hbelow hl) (hbelow hi)).2 (hleast i hi hil)
  case next =>
    have hi := (hactive i).1 hi
    exact (selectedBefore_append more (hbelow hr) (hbelow hi)).2 (hnext i hi hil hir)
  case weight => rw [weightAt_append more (hbelow hl), weightAt_append more (hbelow hr), hw]

/-! ### The slot of a merge -/

/-- The children of the slot a merge appends are the two nodes selected, whose indices fit 9 bits (10_state.md R54). -/
theorem childOf_mergeNode {nodes : List Node} {a b : Active} (ha : a.index < 512) (hb : b.index < 512) (i : Nat) :
    childOf (nodes ++ [mergeNode a b]) i nodes.length ↔ i = a.index ∨ i = b.index := by
  simp [childOf, mergeNode, Nat.mod_eq_of_lt ha, Nat.mod_eq_of_lt hb, eq_comm]

/-- Select's order on two nodes of the active set is the statement's order on their slots (R151). -/
theorem selectedBefore_of_before {nodes : List Node} {a c : Active} (ha : a.weight = weightAt nodes a.index)
    (hc : c.weight = weightAt nodes c.index) (hne : a.index ≠ c.index) (h : a.before c = true) :
    selectedBefore nodes a.index c.index := by
  rw [Active.before_iff] at h
  simp only [selectedBefore, ← ha, ← hc]
  omega

/-- The two calls of Select of one merge: they take two nodes off the active set, the least and the least of the others
(R151). -/
theorem select_two_spec {active rest others : List Active} {a b : Active} (ha : select active = some (a, rest))
    (hb : select rest = some (b, others)) :
    (a :: b :: others).Perm active ∧ (∀ c ∈ b :: others, a.before c = true) ∧ ∀ c ∈ others, b.before c = true := by
  obtain ⟨hactive, hleast⟩ := select_spec ha
  obtain ⟨hrest, hnext⟩ := select_spec hb
  exact ⟨(hrest.cons a).trans hactive, fun c hc => hleast c (hrest.mem_iff.1 hc), hnext⟩

/-! ### The shape of the arena while it is built -/

/-- The merge loop's invariant of shape, whatever the weights: the arena has room for the merges to come, the active set
names each slot that is no child yet, once, and children stand below their parents (R153). -/
structure ArenaShape (nodes : List Node) (active : List Active) : Prop where
  room    : nodes.length + active.length ≤ 512
  indices : ∀ i, i ∈ active.map Active.index ↔ activeBefore nodes nodes.length i
  nodup   : (active.map Active.index).Nodup
  below   : ∀ i k, childOf nodes i k → i < k

theorem ArenaShape.perm {nodes : List Node} {active active' : List Active} (h : ArenaShape nodes active)
    (hp : active'.Perm active) : ArenaShape nodes active' where
  room := hp.length_eq ▸ h.room
  indices i := (hp.map Active.index).mem_iff.trans (h.indices i)
  nodup := (hp.map Active.index).nodup_iff.2 h.nodup
  below := h.below

theorem ArenaShape.activeBefore_of_mem {nodes : List Node} {active : List Active} (h : ArenaShape nodes active)
    {a : Active} (ha : a ∈ active) : activeBefore nodes nodes.length a.index :=
  (h.indices a.index).1 (List.mem_map_of_mem ha)

theorem ArenaShape.index_lt_length {nodes : List Node} {active : List Active} (h : ArenaShape nodes active)
    {a : Active} (ha : a ∈ active) : a.index < nodes.length := (h.activeBefore_of_mem ha).1

theorem ArenaShape.index_lt_512 {nodes : List Node} {active : List Active} (h : ArenaShape nodes active)
    {a : Active} (ha : a ∈ active) : a.index < 512 := by
  have := h.index_lt_length ha
  have := h.room
  omega

/-- The two nodes a merge takes are the children of its slot. -/
theorem ArenaShape.childOf_merge {nodes : List Node} {a b : Active} {others : List Active}
    (h : ArenaShape nodes (a :: b :: others)) (i : Nat) :
    childOf (nodes ++ [mergeNode a b]) i nodes.length ↔ i = a.index ∨ i = b.index :=
  childOf_mergeNode (h.index_lt_512 (by simp)) (h.index_lt_512 (by simp)) i

/-- After a merge the active slots are the new one and the former ones without the two nodes taken. -/
theorem ArenaShape.activeBefore_merge {nodes : List Node} {a b : Active} {others : List Active}
    (h : ArenaShape nodes (a :: b :: others)) (i : Nat) :
    activeBefore (nodes ++ [mergeNode a b]) (nodes.length + 1) i ↔
      i = nodes.length ∨ (activeBefore nodes nodes.length i ∧ i ≠ a.index ∧ i ≠ b.index) := by
  have ha : a.index < nodes.length := h.index_lt_length (by simp)
  have hb : b.index < nodes.length := h.index_lt_length (by simp)
  have hsplit : activeBefore (nodes ++ [mergeNode a b]) (nodes.length + 1) i ↔
      i ≤ nodes.length ∧ (∀ j < nodes.length, ¬ childOf nodes i j) ∧ ¬ (i = a.index ∨ i = b.index) := by
    rw [activeBefore, Nat.forall_lt_succ_right, h.childOf_merge, Nat.lt_succ_iff]
    refine and_congr_right fun _ => and_congr_left fun _ => forall₂_congr fun j hj => ?_
    rw [childOf_append _ i hj]
  rw [hsplit]
  constructor
  · rintro ⟨hi, hchild, hne⟩
    rcases hi.eq_or_lt with rfl | hlt
    · exact .inl rfl
    · exact .inr ⟨⟨hlt, hchild⟩, not_or.1 hne⟩
  · rintro (rfl | ⟨⟨hlt, hchild⟩, hne⟩)
    · exact ⟨le_rfl, fun j hj hc => absurd (h.below _ _ hc) (by omega), by omega⟩
    · exact ⟨hlt.le, hchild, not_or.2 hne⟩

/-- A merge keeps the shape. -/
theorem ArenaShape.merge {nodes : List Node} {a b : Active} {others : List Active} (w : Nat)
    (h : ArenaShape nodes (a :: b :: others)) :
    ArenaShape (nodes ++ [mergeNode a b]) (others ++ [⟨w, nodes.length⟩]) where
  room := by
    have := h.room
    simp only [List.length_cons, List.length_append, List.length_nil] at this ⊢
    omega
  indices i := by
    have hnodup := h.nodup
    have hi := h.indices i
    simp only [List.map_cons, List.nodup_cons, List.mem_cons] at hnodup hi
    obtain ⟨hna, hnb, -⟩ := hnodup
    rw [List.length_append, List.length_singleton, h.activeBefore_merge, ← hi, List.map_append, List.mem_append]
    simp only [List.map_cons, List.map_nil, List.mem_singleton]
    constructor
    · rintro (hmem | rfl)
      · exact .inr ⟨.inr (.inr hmem), fun e => hna (.inr (e ▸ hmem)), fun e => hnb (e ▸ hmem)⟩
      · exact .inl rfl
    · rintro (rfl | ⟨hmem, hia, hib⟩)
      · exact .inr rfl
      · exact .inl ((hmem.resolve_left hia).resolve_left hib)
  nodup := by
    have hnodup := h.nodup
    simp only [List.map_cons, List.nodup_cons] at hnodup
    rw [List.map_append, List.nodup_append]
    refine ⟨hnodup.2.2, by simp, fun i hi j hj => ?_⟩
    obtain ⟨c, hc, rfl⟩ := List.mem_map.1 hi
    have := h.index_lt_length (a := c) (by simp [hc])
    simp only [List.map_cons, List.map_nil, List.mem_singleton] at hj
    omega
  below i k hc := by
    rcases Nat.lt_or_ge k nodes.length with hk | hk
    · exact h.below i k ((childOf_append _ i hk).1 hc)
    · have hlt := lt_length_of_childOf hc
      obtain rfl : k = nodes.length := by simp at hlt; omega
      rcases (h.childOf_merge i).1 hc with rfl | rfl <;> exact h.index_lt_length (by simp)

/-! ### The least merges -/

/-- The merge loop's whole invariant over n leaves: besides the shape, the active set carries the weights of its slots,
they add up to TOTAL, and every slot from n on holds a least merge. -/
structure MergeInv (n total : Nat) (nodes : List Node) (active : List Active) : Prop
    extends ArenaShape nodes active where
  weights : ∀ a ∈ active, a.weight = weightAt nodes a.index
  sum     : (active.map Active.weight).sum = total
  merges  : ∀ k, n ≤ k → k < nodes.length → isLeastMerge nodes k

theorem MergeInv.perm {n total : Nat} {nodes : List Node} {active active' : List Active}
    (h : MergeInv n total nodes active) (hp : active'.Perm active) : MergeInv n total nodes active' where
  toArenaShape := h.toArenaShape.perm hp
  weights a ha := h.weights a (hp.mem_iff.1 ha)
  sum := (hp.map Active.weight).sum_eq.trans h.sum
  merges := h.merges

/-- The weight of a merge is at most TOTAL, so it fits its 32 bits. -/
theorem MergeInv.nodeWeight_merge {n total : Nat} {nodes : List Node} {a b : Active} {others : List Active}
    (h : MergeInv n total nodes (a :: b :: others)) (ht : total ≤ Config.maxCount) :
    (nodeWeight (mergeNode a b)).toNat = a.weight + b.weight := by
  have hsum := h.sum
  simp only [List.map_cons, List.sum_cons] at hsum
  simp only [nodeWeight, mergeNode, BitVec.toNat_ofNat]
  simp only [Config.maxCount] at ht
  omega

/-- Select's order from a node of the active set to the other active slots, on slots. -/
theorem MergeInv.selectedBefore_of_least {n total : Nat} {nodes : List Node} {active rest : List Active}
    (h : MergeInv n total nodes active) {a : Active} (ha : a ∈ active) (hleast : ∀ c ∈ rest, a.before c = true)
    {i : Nat} (hi : activeBefore nodes nodes.length i) (hne : a.index ≠ i)
    (hrest : ∀ c ∈ active, c.index = i → c ∈ rest) : selectedBefore nodes a.index i := by
  obtain ⟨c, hc, rfl⟩ := List.mem_map.1 ((h.indices i).2 hi)
  exact selectedBefore_of_before (h.weights a ha) (h.weights c hc) hne (hleast c (hrest c hc rfl))

/-- The slot a merge appends holds the least merge (R150, R151). -/
theorem MergeInv.isLeastMerge_merge {n total : Nat} {nodes : List Node} {a b : Active} {others : List Active}
    (h : MergeInv n total nodes (a :: b :: others)) (ht : total ≤ Config.maxCount)
    (hleast : ∀ c ∈ b :: others, a.before c = true) (hnext : ∀ c ∈ others, b.before c = true) :
    isLeastMerge (nodes ++ [mergeNode a b]) nodes.length := by
  have hamem : a ∈ a :: b :: others := by simp
  have hbmem : b ∈ a :: b :: others := by simp
  have hl : (BitVec.ofNat 9 a.index).toNat = a.index := by simpa using h.index_lt_512 hamem
  have hr : (BitVec.ofNat 9 b.index).toNat = b.index := by simpa using h.index_lt_512 hbmem
  have hne : a.index ≠ b.index := by
    have := h.nodup
    simp only [List.map_cons, List.nodup_cons, List.mem_cons, not_or] at this
    exact this.1.1
  have hactive (i : Nat) := activeBefore_append (nodes := nodes) [mergeNode a b] i le_rfl
  have hlta := h.index_lt_length hamem
  have hltb := h.index_lt_length hbmem
  refine ⟨_, _, _, by rw [List.getElem?_concat_length]; rfl, ?_⟩
  rw [hl, hr]
  refine ⟨hne, (hactive _).2 (h.activeBefore_of_mem hamem), (hactive _).2 (h.activeBefore_of_mem hbmem),
    fun i hi hia => ?least, fun i hi hia hib => ?next, ?weight⟩
  case least =>
    have hi := (hactive i).1 hi
    refine (selectedBefore_append _ hlta hi.1).2 (h.selectedBefore_of_least hamem hleast hi hia.symm fun c hc hci => ?_)
    exact (List.mem_cons.1 hc).resolve_left fun e => hia (hci ▸ e ▸ rfl)
  case next =>
    have hi := (hactive i).1 hi
    refine (selectedBefore_append _ hltb hi.1).2 (h.selectedBefore_of_least hbmem hnext hi hib.symm fun c hc hci => ?_)
    rcases List.mem_cons.1 hc with rfl | hc
    · exact absurd hci.symm hia
    · exact (List.mem_cons.1 hc).resolve_left fun e => hib (hci ▸ e ▸ rfl)
  case weight =>
    rw [weightAt_append _ hlta, weightAt_append _ hltb, ← h.weights a hamem, ← h.weights b hbmem]
    exact h.nodeWeight_merge ht

/-- A merge of the two nodes Select takes keeps the invariant. -/
theorem MergeInv.merge {n total : Nat} {nodes : List Node} {a b : Active} {others : List Active}
    (h : MergeInv n total nodes (a :: b :: others)) (ht : total ≤ Config.maxCount)
    (hleast : ∀ c ∈ b :: others, a.before c = true) (hnext : ∀ c ∈ others, b.before c = true) :
    MergeInv n total (nodes ++ [mergeNode a b]) (others ++ [⟨a.weight + b.weight, nodes.length⟩]) where
  toArenaShape := h.toArenaShape.merge _
  weights c hc := by
    rcases List.mem_append.1 hc with hc | hc
    · have hmem : c ∈ a :: b :: others := by simp [hc]
      rw [weightAt_append _ (h.index_lt_length hmem), h.weights c hmem]
    · obtain rfl := List.mem_singleton.1 hc
      rw [weightAt_append_length, h.nodeWeight_merge ht]
  sum := by
    rw [← h.sum]
    simp only [List.map_append, List.map_cons, List.map_nil, List.sum_append, List.sum_cons, List.sum_nil]
    omega
  merges k hn hk := by
    rw [List.length_append, List.length_singleton, Nat.lt_succ_iff] at hk
    rcases hk.eq_or_lt with rfl | hk
    · exact h.isLeastMerge_merge ht hleast hnext
    · exact isLeastMerge_append _ (h.merges k hn hk)

/-- The merge loop keeps the invariant until one active node, the root, is left (R150). -/
theorem mergeLoop_mergeInv {n total : Nat} (ht : total ≤ Config.maxCount) (fuel : Nat) (nodes : List Node)
    (active : List Active) (h : MergeInv n total nodes active) (hf : active.length ≤ fuel) (hp : 1 ≤ active.length) :
    ∃ a, (mergeLoop fuel nodes active).2 = a.index ∧ MergeInv n total (mergeLoop fuel nodes active).1 [a] := by
  induction fuel generalizing nodes active with
  | zero => omega
  | succ fuel ih =>
    rcases Nat.lt_or_ge active.length 2 with hlt | hge
    · obtain ⟨a, rfl⟩ := List.length_eq_one_iff.1 (by omega : active.length = 1)
      rw [mergeLoop_one]
      exact ⟨a, rfl, h⟩
    · obtain ⟨a, b, rest, others, ha, hb, hl, he⟩ := mergeLoop_cases fuel nodes active hge
      obtain ⟨hperm, hleast, hnext⟩ := select_two_spec ha hb
      rw [he]
      exact ih _ _ ((h.perm hperm).merge ht hleast hnext) (by simp; omega) (by simp)

/-! ### The leaves -/

theorem map_index_leavesActive (leaves : List Node) :
    (leavesActive leaves).map Active.index = List.range leaves.length := by
  rw [leavesActive, List.map_map, List.range_eq_range', ← List.zipIdx_map_snd 0 leaves]
  rfl

theorem map_weight_leavesActive (leaves : List Node) :
    (leavesActive leaves).map Active.weight = leaves.map fun x => (nodeWeight x).toNat := by
  rw [leavesActive, List.map_map]
  conv_rhs => rw [← List.zipIdx_map_fst 0 leaves, List.map_map]
  rfl

theorem weight_of_mem_leavesActive {leaves : List Node} {a : Active} (ha : a ∈ leavesActive leaves) :
    a.weight = weightAt leaves a.index := by
  obtain ⟨⟨x, i⟩, hx, rfl⟩ := List.mem_map.1 ha
  simp [weightAt, List.mk_mem_zipIdx_iff_getElem?.1 hx]

theorem not_childOf_leavesOf (h : Table Word) (i k : Nat) : ¬ childOf (leavesOf h) i k := by
  rintro ⟨w, l, r, hk, -⟩
  rw [leavesOf_eq, List.getElem?_map, Option.map_eq_some_iff] at hk
  obtain ⟨sym, -, hsym⟩ := hk
  cases hsym

theorem length_countedSymbols_le (h : Table Word) : (countedSymbols h).length ≤ 256 :=
  (List.length_filter_le _ _).trans length_allSymbols.le

/-- The counts of the symbols that have one add up to TOTAL: the others count 0. -/
theorem sum_countedSymbols (h : Table Word) :
    ((countedSymbols h).map fun sym => (tableGet h sym).toNat).sum = histTotal h := by
  rw [histTotal_eq, countedSymbols]
  induction allSymbols with
  | nil => rfl
  | cons sym rest ih =>
    by_cases hc : tableGet h sym = 0#32 <;> simpa [hc] using ih

/-- The invariant holds before the first merge: every leaf is active, and none is a child. -/
theorem mergeInv_leaves (h : Table Word) :
    MergeInv (countedSymbols h).length (histTotal h) (leavesOf h) (leavesActive (leavesOf h)) where
  room := by
    have := length_countedSymbols_le h
    simp only [length_leavesActive, length_leavesOf]
    omega
  indices i := by simp [map_index_leavesActive, activeBefore, not_childOf_leavesOf]
  nodup := map_index_leavesActive _ ▸ List.nodup_range
  below i k hc := absurd hc (not_childOf_leavesOf h i k)
  weights _ := weight_of_mem_leavesActive
  sum := by
    rw [map_weight_leavesActive, leavesOf_eq, List.map_map, ← sum_countedSymbols]
    rfl
  merges k hn hk := by
    rw [length_leavesOf] at hk
    omega

/-! ### TREE_BUILD (R150) -/

/-- The tree of a histogram meets the invariant with the root alone active. -/
theorem buildTree_mergeInv {h : Table Word} (hn : countedSymbols h ≠ []) (ht : histTotal h ≤ Config.maxCount) :
    ∃ a, (buildTree h).2 = a.index ∧ MergeInv (countedSymbols h).length (histTotal h) (buildTree h).1 [a] :=
  mergeLoop_mergeInv ht _ _ _ (mergeInv_leaves h) (by simp) (by simpa [Nat.one_le_iff_ne_zero] using hn)

/-- The last slot is no child, so a single active node is the last slot (R152). -/
theorem ArenaShape.index_of_single {nodes : List Node} {a : Active} (h : ArenaShape nodes [a]) :
    a.index = nodes.length - 1 := by
  have hlt := h.index_lt_length (a := a) (by simp)
  have hlast : activeBefore nodes nodes.length (nodes.length - 1) :=
    ⟨by omega, fun j hj hc => by have := h.below _ _ hc; omega⟩
  have hmem := (h.indices _).2 hlast
  simp only [List.map_cons, List.map_nil, List.mem_singleton] at hmem
  exact hmem.symm

/-- Slot i below n holds the leaf of the i-th symbol with a count (R152). -/
theorem buildTree_leaf (h : Table Word) (i : Nat) (hi : i < (countedSymbols h).length) :
    (buildTree h).1[i]? = some (.leaf (countedSymbols h)[i] (tableGet h (countedSymbols h)[i])) := by
  obtain ⟨merged, happ⟩ := leavesOf_prefix_buildTree h
  rw [← happ, List.getElem?_append_left (by simpa using hi), leavesOf_eq, List.getElem?_map,
    List.getElem?_eq_getElem hi]
  rfl

theorem exec_treeBuild_empty {s : State} (hn : countedSymbols s.hist = []) : fails .treeBuild s 0x20#8 0x07#8 0#32 := by
  have hcheck : treeBuildCheck s = some ⟨.empty, 0#32⟩ := if_pos ((leavesOf_eq_nil _).2 hn)
  have hrun : runOf .treeBuild s = .error ⟨0x20#8, .empty, 0#32⟩ :=
    atStage_eq_error.2 ⟨_, guarded_eq_error.2 hcheck, rfl⟩
  exact exec_of_error hrun

theorem exec_treeBuild {s : State} (hn : countedSymbols s.hist ≠ []) :
    exec .treeBuild s = .next (doneState (treeBuildEffect s)) := by
  have hcheck : treeBuildCheck s = none := if_neg fun he => hn ((leavesOf_eq_nil _).1 he)
  have hrun : runOf .treeBuild s = .ok (treeBuildEffect s) := atStage_eq_ok.2 (guarded_eq_ok.2 ⟨hcheck, rfl⟩)
  rw [exec_of_ok hrun, completeOk_eq_doneState]

/-- Settles O30: the merge loop's invariant, at its end with the root alone active, gives the merges, the root's place
and its weight; the leaves are the arena's first slots. -/
theorem treeBuildMergesTheLeastPairs : Obligations.TreeBuildMergesTheLeastPairs := by
  unfold Obligations.TreeBuildMergesTheLeastPairs
  refine fun s ht => ⟨exec_treeBuild_empty, fun hn => ⟨_, exec_treeBuild hn, rfl, length_buildTree s.hist hn,
    buildTree_leaf s.hist, ?_⟩⟩
  obtain ⟨a, hroot, hinv⟩ := buildTree_mergeInv hn ht
  have hfits : (BitVec.ofNat 9 (buildTree s.hist).2).toNat = a.index := by
    rw [hroot]
    simpa using hinv.index_lt_512 (a := a) (by simp)
  have hsum : a.weight = histTotal s.hist := by simpa using hinv.sum
  refine ⟨hinv.merges, hfits.trans hinv.index_of_single, ?weight⟩
  case weight => exact hfits ▸ (hinv.weights a (by simp)).symm.trans hsum

end Sys2Proof.Machine
end

section
/-! Proofs about the code generator (43_codes.md): the arena TREE_BUILD leaves is a tree, one path leads to each of its leaves, and
the traversal stores that path. -/

namespace Sys2Proof.Machine

/-! ### The checks of CODE_ASSIGN (R160, R163) -/

@[simp] theorem tooLongCheck_eq_none (ct : Table Bits) :
    tooLongCheck ct = none ↔ ∀ sym, (tableGet ct sym).length ≤ Config.maxCodeLen := by
  simp [tooLongCheck, tableRows_eq]

theorem exec_codeAssign {s : State} (ht : s.treeValid = true)
    (hlen : ∀ sym, (tableGet (assignCodes s.nodes s.root.toNat) sym).length ≤ Config.maxCodeLen) :
    exec .codeAssign s = .next (doneState (codeAssignEffect s)) := by
  have hcheck : codeAssignCheck s = none :=
    Option.or_eq_none_iff.2 ⟨(needTree_eq_none s).2 ht, (tooLongCheck_eq_none _).2 hlen⟩
  have hrun : runOf .codeAssign s = .ok (codeAssignEffect s) := atStage_eq_ok.2 (guarded_eq_ok.2 ⟨hcheck, rfl⟩)
  rw [exec_of_ok hrun, completeOk_eq_doneState]

/-! ### A root that is a leaf (R162) -/

theorem assignCodes_leaf {nodes : List Node} {root : Nat} {sym : Byte} {w : Word}
    (h : nodes[root]? = some (.leaf sym w)) : assignCodes nodes root = tableSet (tableFill []) sym [false] := by
  simp [assignCodes, h]

/-- Settles O33: the table has the one entry "0", which is no longer than 23 bits. -/
theorem singleSymbolGetsCodeZero : Obligations.SingleSymbolGetsCodeZero := by
  unfold Obligations.SingleSymbolGetsCodeZero
  intro s sym w ht hroot
  have hget (b : Byte) : tableGet (assignCodes s.nodes s.root.toNat) b = if b = sym then [false] else [] := by
    rw [assignCodes_leaf hroot, tableGet_set, tableGet_fill]
  have hlen (b : Byte) : (tableGet (assignCodes s.nodes s.root.toNat) b).length ≤ Config.maxCodeLen := by
    rw [hget]
    split <;> decide
  exact ⟨_, exec_codeAssign ht hlen, rfl, (hget sym).trans (if_pos rfl), fun b hb => (hget b).trans (if_neg hb)⟩

/-! ### Paths (R161) -/

/-- Node k is internal and has slot i as its left child (a 0 bit) or as its right child (a 1 bit). -/
def childOn (nodes : List Node) (bit : Bool) (i k : Nat) : Prop :=
  ∃ w l r, nodes[k]? = some (.internal w l r) ∧ (if bit then r.toNat else l.toNat) = i

theorem childOf_iff_childOn {nodes : List Node} {i k : Nat} : childOf nodes i k ↔ ∃ bit, childOn nodes bit i k := by
  simp only [childOf, childOn, Bool.exists_bool, ← exists_or, ← and_or_left]
  rfl

theorem childOn.childOf {nodes : List Node} {bit : Bool} {i k : Nat} (h : childOn nodes bit i k) : childOf nodes i k :=
  childOf_iff_childOn.2 ⟨bit, h⟩

theorem childOn_of_internal {nodes : List Node} {k : Nat} {w : Word} {l r : BitVec 9}
    (h : nodes[k]? = some (.internal w l r)) (bit : Bool) : childOn nodes bit (if bit then r.toNat else l.toNat) k :=
  ⟨w, l, r, h, rfl⟩

theorem follow_cons_eq_some {nodes : List Node} {bit : Bool} {rest : Bits} {i k : Nat} :
    follow nodes i (bit :: rest) = some k ↔ ∃ j, childOn nodes bit j i ∧ follow nodes j rest = some k := by
  constructor
  · intro h
    rw [follow] at h
    split at h
    · exact ⟨_, childOn_of_internal (by assumption) bit, h⟩
    · cases h
  · rintro ⟨j, ⟨w, l, r, hi, rfl⟩, h⟩
    rw [follow, hi]
    exact h

theorem follow_concat_eq_some {nodes : List Node} {path : Bits} {bit : Bool} {i k : Nat} :
    follow nodes i (path ++ [bit]) = some k ↔ ∃ j, follow nodes i path = some j ∧ childOn nodes bit k j := by
  induction path generalizing i with
  | nil =>
    rw [List.nil_append, follow_cons_eq_some]
    simp [follow]
  | cons b rest ih =>
    simp only [List.cons_append, follow_cons_eq_some, ih]
    exact ⟨fun ⟨j, hj, m, hm, hk⟩ => ⟨m, ⟨j, hj, hm⟩, hk⟩, fun ⟨m, ⟨j, hj, hm⟩, hk⟩ => ⟨j, hj, m, hm, hk⟩⟩

theorem leadsToLeaf_cons {nodes : List Node} {bit : Bool} {rest : Bits} {i : Nat} {sym : Byte} :
    leadsToLeaf nodes i (bit :: rest) sym ↔ ∃ j, childOn nodes bit j i ∧ leadsToLeaf nodes j rest sym := by
  simp only [leadsToLeaf, follow_cons_eq_some]
  exact ⟨fun ⟨k, w, ⟨j, hj, hk⟩, hw⟩ => ⟨j, hj, k, w, hk, hw⟩, fun ⟨j, hj, k, w, hk, hw⟩ => ⟨k, w, ⟨j, hj, hk⟩, hw⟩⟩

theorem leadsToLeaf_nil {nodes : List Node} {i : Nat} {sym : Byte} :
    leadsToLeaf nodes i [] sym ↔ ∃ w, nodes[i]? = some (.leaf sym w) := by
  simp [leadsToLeaf, follow]

/-! ### The traversal (R161) -/

theorem walk_leaf {nodes : List Node} {i : Nat} {sym : Byte} {w : Word} (h : nodes[i]? = some (.leaf sym w)) (fuel : Nat)
    (path : Bits) (ct : Table Bits) : walk nodes (fuel + 1) i path ct = tableSet ct sym path := by
  simp [walk, h]

theorem walk_internal {nodes : List Node} {i : Nat} {w : Word} {l r : BitVec 9} (h : nodes[i]? = some (.internal w l r))
    (fuel : Nat) (path : Bits) (ct : Table Bits) : walk nodes (fuel + 1) i path ct =
      walk nodes fuel r.toNat (path ++ [true]) (walk nodes fuel l.toNat (path ++ [false]) ct) := by
  simp [walk, h]

/-- The traversal leaves the entry of a symbol that no path leads to. -/
theorem walk_of_no_path {nodes : List Node} {i : Nat} {sym : Byte} (fuel : Nat) (path : Bits) (ct : Table Bits)
    (h : ∀ p, ¬ leadsToLeaf nodes i p sym) : tableGet (walk nodes fuel i path ct) sym = tableGet ct sym := by
  induction fuel generalizing i path ct with
  | zero => rfl
  | succ fuel ih =>
    match hi : nodes[i]? with
    | none => simp [walk, hi]
    | some (.leaf sym' w) =>
      have hne : sym ≠ sym' := by
        rintro rfl
        exact h [] (leadsToLeaf_nil.2 ⟨w, hi⟩)
      rw [walk_leaf hi, tableGet_set_ne _ _ hne]
    | some (.internal w l r) =>
      have hchild (bit : Bool) (p : Bits) : ¬ leadsToLeaf nodes (if bit then r.toNat else l.toNat) p sym :=
        fun hp => h (bit :: p) (leadsToLeaf_cons.2 ⟨_, childOn_of_internal hi bit, hp⟩)
      rw [walk_internal hi]
      exact (ih _ _ (hchild true)).trans (ih _ _ (hchild false))

/-- The traversal stores the path to a symbol, when children stand below their parents and no other path leads there. -/
theorem walk_of_path {nodes : List Node} {i fuel : Nat} {sym : Byte} {p : Bits}
    (hbelow : ∀ i k, childOf nodes i k → i < k) (hfuel : i < fuel) (path : Bits) (ct : Table Bits)
    (hp : leadsToLeaf nodes i p sym) (honly : ∀ q, leadsToLeaf nodes i q sym → q = p) :
    tableGet (walk nodes fuel i path ct) sym = path ++ p := by
  induction fuel generalizing i p path ct with
  | zero => exact absurd hfuel (Nat.not_lt_zero i)
  | succ fuel ih =>
    cases p with
    | nil =>
      obtain ⟨w, hi⟩ := leadsToLeaf_nil.1 hp
      rw [walk_leaf hi, tableGet_set_same, List.append_nil]
    | cons bit rest =>
      obtain ⟨j, hj, hrest⟩ := leadsToLeaf_cons.1 hp
      have hjfuel : j < fuel := by
        have := hbelow j i hj.childOf
        omega
      have hjonly (q : Bits) (hq : leadsToLeaf nodes j q sym) : q = rest :=
        (List.cons.inj (honly (bit :: q) (leadsToLeaf_cons.2 ⟨j, hj, hq⟩))).2
      have hstored (ct : Table Bits) : tableGet (walk nodes fuel j (path ++ [bit]) ct) sym = path ++ bit :: rest := by
        rw [ih hjfuel _ _ hrest hjonly, ← List.append_cons]
      obtain ⟨w, l, r, hi, rfl⟩ := hj
      rw [walk_internal hi]
      cases bit with
      | true => exact hstored _
      | false =>
        have hright (q : Bits) : ¬ leadsToLeaf nodes r.toNat q sym := fun hq =>
          Bool.noConfusion (List.cons.inj (honly (true :: q) (leadsToLeaf_cons.2 ⟨_, childOn_of_internal hi true, hq⟩))).1
        exact (walk_of_no_path _ _ _ hright).trans (hstored ct)

/-! ### Trees (42_tree.md R153) -/

/-- The arena is a tree with its root in the last slot: children stand below their parents, every other slot is a child, and
of one node on one side only. -/
structure ArenaTree (nodes : List Node) (root : Nat) : Prop where
  rootLast : nodes.length = root + 1
  below    : ∀ i k, childOf nodes i k → i < k
  parent   : ∀ i < root, ∃ k, childOf nodes i k
  edge     : ∀ {bit bit' i j k}, childOn nodes bit i j → childOn nodes bit' i k → bit = bit' ∧ j = k

theorem ArenaTree.not_childOn_root {nodes : List Node} {root k : Nat} {bit : Bool} (h : ArenaTree nodes root) :
    ¬ childOn nodes bit root k := fun hc => by
  have := h.below _ _ hc.childOf
  have := lt_length_of_childOf hc.childOf
  have := h.rootLast
  omega

/-- At most one path leads from the root to a slot. -/
theorem ArenaTree.path_unique {nodes : List Node} {root k : Nat} (h : ArenaTree nodes root) {p q : Bits}
    (hp : follow nodes root p = some k) (hq : follow nodes root q = some k) : p = q := by
  induction p using List.reverseRecOn generalizing q k with
  | nil =>
    cases hp
    rcases q.eq_nil_or_concat' with rfl | ⟨q, bit, rfl⟩
    · rfl
    · obtain ⟨j, -, hc⟩ := follow_concat_eq_some.1 hq
      exact absurd hc h.not_childOn_root
  | append_singleton p bit ih =>
    obtain ⟨j, hj, hc⟩ := follow_concat_eq_some.1 hp
    rcases q.eq_nil_or_concat' with rfl | ⟨q, bit', rfl⟩
    · cases hq
      exact absurd hc h.not_childOn_root
    · obtain ⟨j', hj', hc'⟩ := follow_concat_eq_some.1 hq
      obtain ⟨rfl, rfl⟩ := h.edge hc hc'
      rw [ih hj hj']

/-- Some path leads from the root to every slot. -/
theorem ArenaTree.exists_path {nodes : List Node} {root : Nat} (h : ArenaTree nodes root) (k : Nat) (hk : k ≤ root) :
    ∃ p, follow nodes root p = some k := by
  induction hd : root - k using Nat.strong_induction_on generalizing k with
  | _ d ih =>
    rcases hk.eq_or_lt with rfl | hlt
    · exact ⟨[], rfl⟩
    · obtain ⟨parent, hparent⟩ := h.parent k hlt
      have := h.below _ _ hparent
      have := lt_length_of_childOf hparent
      have := h.rootLast
      obtain ⟨p, hp⟩ := ih (root - parent) (by omega) parent (by omega) rfl
      obtain ⟨bit, hbit⟩ := childOf_iff_childOn.1 hparent
      exact ⟨p ++ [bit], follow_concat_eq_some.2 ⟨parent, hp, hbit⟩⟩

/-! ### The tree of a histogram -/

/-- The leaves of the tree are its first slots. -/
theorem buildTree_internal {h : Table Word} {k : Nat} {w : Word} {l r : BitVec 9}
    (hk : (buildTree h).1[k]? = some (.internal w l r)) : (countedSymbols h).length ≤ k := by
  by_contra hlt
  rw [buildTree_leaf h k (not_le.1 hlt)] at hk
  cases hk

/-- No slot before the root's is left active, so each is a child; a least merge takes two different slots, and none that
an earlier node has taken. -/
theorem buildTree_arenaTree {h : Table Word} (hn : countedSymbols h ≠ []) (ht : histTotal h ≤ Config.maxCount) :
    ArenaTree (buildTree h).1 (buildTree h).2 := by
  obtain ⟨a, hroot, hinv⟩ := buildTree_mergeInv hn ht
  have hlt := hinv.index_lt_length (a := a) (by simp)
  have hlast := hinv.index_of_single
  have hmerge {bit : Bool} {i k : Nat} (hc : childOn (buildTree h).1 bit i k) : isLeastMerge (buildTree h).1 k := by
    have hk := lt_length_of_childOf hc.childOf
    obtain ⟨w, l, r, hnode, -⟩ := hc
    exact hinv.merges k (buildTree_internal hnode) hk
  have htaken {bit : Bool} {i k : Nat} (hc : childOn (buildTree h).1 bit i k) : activeBefore (buildTree h).1 k i := by
    obtain ⟨w, l, r, hnode, -, hl, hr, -⟩ := hmerge hc
    obtain ⟨w', l', r', hnode', rfl⟩ := hc
    cases hnode.symm.trans hnode'
    split <;> assumption
  refine ⟨by omega, hinv.below, fun i hi => ?parent, fun {bit bit' i j k} hj hk => ?edge⟩
  case parent =>
    have hnot : ¬ activeBefore (buildTree h).1 (buildTree h).1.length i := by
      rw [← hinv.indices i, List.map_singleton, List.mem_singleton]
      omega
    by_contra hnone
    exact hnot ⟨by omega, fun k _ hc => hnone ⟨k, hc⟩⟩
  case edge =>
    rcases lt_trichotomy j k with hlt | rfl | hlt
    · exact absurd hj.childOf ((htaken hk).2 j hlt)
    · obtain ⟨w, l, r, hnode, hne, -⟩ := hmerge hj
      obtain ⟨w₁, l₁, r₁, hnode₁, hi₁⟩ := hj
      obtain ⟨w₂, l₂, r₂, hnode₂, hi₂⟩ := hk
      cases hnode.symm.trans hnode₁
      cases hnode.symm.trans hnode₂
      refine ⟨?_, rfl⟩
      cases bit <;> cases bit' <;> simp_all
    · exact absurd hk.childOf ((htaken hj).2 k hlt)

/-- The leaves of the tree are the symbols with a count, each in the slot of its rank (42_tree.md R150). -/
theorem buildTree_leaf_iff {h : Table Word} (hn : countedSymbols h ≠ []) (ht : histTotal h ≤ Config.maxCount) {k : Nat}
    {sym : Byte} : (∃ w, (buildTree h).1[k]? = some (.leaf sym w)) ↔ (countedSymbols h)[k]? = some sym := by
  obtain ⟨a, -, hinv⟩ := buildTree_mergeInv hn ht
  rcases Nat.lt_or_ge k (countedSymbols h).length with hk | hk
  · simp [buildTree_leaf h k hk, hk]
  · rw [List.getElem?_eq_none hk]
    refine ⟨fun ⟨w, hw⟩ => ?_, fun hnone => by cases hnone⟩
    obtain ⟨_, _, _, hnode, -⟩ := hinv.merges k hk (List.getElem?_eq_some_iff.1 hw).1
    cases hnode.symm.trans hw

theorem mem_countedSymbols {h : Table Word} {sym : Byte} : sym ∈ countedSymbols h ↔ tableGet h sym ≠ 0#32 := by
  simp [countedSymbols]

theorem nodup_countedSymbols (h : Table Word) : (countedSymbols h).Nodup := nodup_allSymbols.filter _

/-- A path leads from the root to a leaf of every symbol with a count, and of no other. -/
theorem buildTree_exists_path {h : Table Word} (hn : countedSymbols h ≠ []) (ht : histTotal h ≤ Config.maxCount)
    {sym : Byte} : (∃ p, leadsToLeaf (buildTree h).1 (buildTree h).2 p sym) ↔ tableGet h sym ≠ 0#32 := by
  have htree := buildTree_arenaTree hn ht
  rw [← mem_countedSymbols, List.mem_iff_getElem?]
  constructor
  · rintro ⟨p, k, w, -, hk⟩
    exact ⟨k, (buildTree_leaf_iff hn ht).1 ⟨w, hk⟩⟩
  · rintro ⟨k, hk⟩
    obtain ⟨w, hw⟩ := (buildTree_leaf_iff hn ht).2 hk
    have hlt := (List.getElem?_eq_some_iff.1 hw).1
    obtain ⟨p, hp⟩ := htree.exists_path k (by have := htree.rootLast; omega)
    exact ⟨p, k, w, hp, hw⟩

/-- At most one path leads from the root to a leaf of a symbol: a symbol has one leaf. -/
theorem buildTree_path_unique {h : Table Word} (hn : countedSymbols h ≠ []) (ht : histTotal h ≤ Config.maxCount)
    {sym : Byte} {p q : Bits} (hp : leadsToLeaf (buildTree h).1 (buildTree h).2 p sym)
    (hq : leadsToLeaf (buildTree h).1 (buildTree h).2 q sym) : p = q := by
  obtain ⟨k, w, hpk, hk⟩ := hp
  obtain ⟨k', w', hqk, hk'⟩ := hq
  have hslot : k = k' := by
    have hk := (buildTree_leaf_iff hn ht).1 ⟨w, hk⟩
    have hk' := (buildTree_leaf_iff hn ht).1 ⟨w', hk'⟩
    exact List.getElem?_inj (List.getElem?_eq_some_iff.1 hk).1 (nodup_countedSymbols h) |>.1 (hk.trans hk'.symm)
  exact (buildTree_arenaTree hn ht).path_unique hpk (hslot ▸ hqk)

/-! ### The codes of the tree (R161) -/

/-- With two symbols or more the root is internal, so the table is what the traversal leaves. -/
theorem assignCodes_buildTree {h : Table Word} (hn : 2 ≤ (countedSymbols h).length)
    (ht : histTotal h ≤ Config.maxCount) : assignCodes (buildTree h).1 (buildTree h).2 =
      walk (buildTree h).1 (buildTree h).1.length (buildTree h).2 [] (tableFill []) := by
  have hne : countedSymbols h ≠ [] := List.ne_nil_of_length_pos (by omega)
  have hlen := length_buildTree h hne
  have hlast := (buildTree_arenaTree hne ht).rootLast
  rw [assignCodes]
  split
  · rename_i sym w hroot
    have hleaf := (buildTree_leaf_iff hne ht).1 ⟨w, hroot⟩
    have := (List.getElem?_eq_some_iff.1 hleaf).1
    omega
  · rfl

theorem assignCodes_of_path {h : Table Word} (hn : 2 ≤ (countedSymbols h).length) (ht : histTotal h ≤ Config.maxCount)
    {sym : Byte} {p : Bits} (hp : leadsToLeaf (buildTree h).1 (buildTree h).2 p sym) :
    tableGet (assignCodes (buildTree h).1 (buildTree h).2) sym = p := by
  have hne : countedSymbols h ≠ [] := List.ne_nil_of_length_pos (by omega)
  have htree := buildTree_arenaTree hne ht
  rw [assignCodes_buildTree hn ht]
  exact walk_of_path htree.below (by have := htree.rootLast; omega) [] _ hp fun q hq => buildTree_path_unique hne ht hq hp

theorem assignCodes_of_no_count {h : Table Word} (hn : 2 ≤ (countedSymbols h).length)
    (ht : histTotal h ≤ Config.maxCount) {sym : Byte} (hsym : tableGet h sym = 0#32) :
    tableGet (assignCodes (buildTree h).1 (buildTree h).2) sym = [] := by
  have hne : countedSymbols h ≠ [] := List.ne_nil_of_length_pos (by omega)
  have hnone (p : Bits) : ¬ leadsToLeaf (buildTree h).1 (buildTree h).2 p sym :=
    fun hp => (buildTree_exists_path hne ht).1 ⟨p, hp⟩ hsym
  rw [assignCodes_buildTree hn ht, walk_of_no_path _ _ _ hnone, tableGet_fill]

/-- Settles O32: the traversal stores the one path to each symbol with a count and leaves the other entries empty, so no
code is longer than 23 bits when no path is. -/
theorem codeAssignGivesTheLeafPaths : Obligations.CodeAssignGivesTheLeafPaths := by
  unfold Obligations.CodeAssignGivesTheLeafPaths
  intro s hinv hvalid hn hshort
  obtain ⟨hne, hnodes, hroot⟩ := hinv.tree hvalid
  have hpath {sym : Byte} {p : Bits} (hp : leadsToLeaf s.nodes s.root.toNat p sym) :
      tableGet (assignCodes s.nodes s.root.toNat) sym = p := by
    rw [hnodes, hroot] at hp ⊢
    exact assignCodes_of_path hn hinv.total hp
  have hcounted (sym : Byte) (hsym : tableGet s.hist sym ≠ 0#32) :
      leadsToLeaf s.nodes s.root.toNat (tableGet (assignCodes s.nodes s.root.toNat) sym) sym := by
    obtain ⟨p, hp⟩ := (buildTree_exists_path hne hinv.total).2 hsym
    rw [← hnodes, ← hroot] at hp
    rwa [hpath hp]
  have hother (sym : Byte) (hsym : tableGet s.hist sym = 0#32) :
      tableGet (assignCodes s.nodes s.root.toNat) sym = [] := by
    rw [hnodes, hroot]
    exact assignCodes_of_no_count hn hinv.total hsym
  have hlen (sym : Byte) : (tableGet (assignCodes s.nodes s.root.toNat) sym).length ≤ Config.maxCodeLen := by
    by_cases hsym : tableGet s.hist sym = 0#32
    · rw [hother sym hsym]
      exact Nat.zero_le _
    · exact hshort _ _ (hcounted sym hsym)
  exact ⟨_, exec_codeAssign hvalid hlen, rfl, hcounted, fun sym p hp => (hpath hp).symm, hother⟩

end Sys2Proof.Machine
end

section
/-! Proofs about the bit packer (44_packer.md): PACK_RESET. -/

namespace Sys2Proof.Machine

/-! ### PACK_RESET (R173) -/

theorem exec_packReset (s : State) :
    exec .packReset s = .next (doneState { s with pwByte := 0#8, pwCur := 0#3, pwSyms := 0#32 }) := by
  have hrule : runOf .packReset s = .ok { s with pwByte := 0#8, pwCur := 0#3, pwSyms := 0#32 } := rfl
  rw [exec_of_ok hrule, completeOk_eq_doneState]

/-- Settles O44: the rule of PACK_RESET checks nothing and sets the three fields of the writer alone, so OUT_PTR and memory
stay and no pending bit is flushed. -/
theorem packResetClearsTheWriter : Obligations.PackResetClearsTheWriter := by
  unfold Obligations.PackResetClearsTheWriter
  exact ⟨by decide, exec_packReset⟩

end Sys2Proof.Machine
end

section
/-! Proofs about the bit unpacker (45_unpacker.md): when UNPACK runs to a success, and the bytes it then writes. -/

namespace Sys2Proof.Machine

/-! ### Bytes written to the DST window (20_memory.md R72): they stand there, and no other byte changes -/

theorem dstHolds_of_mem_eq_writeBytes {s t : State} {o : Nat} {bytes : List Byte} (hd : t.dstBase = s.dstBase)
    (hm : t.mem = writeBytes s.mem (s.dstBase.toNat + o) bytes) : dstHolds t o bytes := by
  intro k hk
  unfold dstByte
  rw [hm, hd, ← Nat.add_assoc]
  exact readByte_writeBytes_inside _ _ _ k hk

theorem sameBytesOutside_of_mem_eq_writeBytes {s t : State} {o : Nat} {bytes : List Byte}
    (hm : t.mem = writeBytes s.mem (s.dstBase.toNat + o) bytes) : sameBytesOutside s t o bytes.length := by
  intro a ha
  rw [hm]
  exact readByte_writeBytes_outside _ _ _ a ha

/-! ### UNPACK (R180) -/

theorem unpackCheck_eq_none (s : State) :
    unpackCheck s = none ↔ (s.codesValid = true ∧ s.hdrValid = true) ∧ bothUsable s ∧
      s.inPtr.toNat + s.decPbytes.toNat ≤ s.srcLen.toNat ∧ s.decSyms.toNat ≤ s.dstCap.toNat := by
  simp only [unpackCheck, Option.or_eq_none_iff, needCodesAndHdr_eq_none, windowsCheck_eq_none, truncatedCheck_eq_none,
    dstFullCheck_eq_none]

theorem unpackRule_eq_ok {s : State} {out : List Byte} (hcheck : unpackCheck s = none)
    (hsyms : unpackSymbols s = .ok out) : unpackRule s = .ok (unpackEffect s out) := by
  simp only [unpackRule, hcheck, hsyms]

theorem unpackEffect_eq (s : State) (out : List Byte) :
    unpackEffect s out = { s with mem := writeBytes s.mem s.dstBase.toNat out, outPtr := s.decSyms } := by
  rw [unpackEffect, dstWriteAll_eq]
  rfl

theorem exec_unpack {s : State} {out : List Byte} (hcheck : unpackCheck s = none) (hsyms : unpackSymbols s = .ok out) :
    exec .unpack s =
      .next (doneState { s with mem := writeBytes s.mem s.dstBase.toNat out, outPtr := s.decSyms }) := by
  have hrun : runOf .unpack s = .ok (unpackEffect s out) := atStage_eq_ok.2 (unpackRule_eq_ok hcheck hsyms)
  rw [exec_of_ok hrun, completeOk_eq_doneState, unpackEffect_eq]

/-- Settles O49: the checks pass, the loop takes the codes of `out` off the payload because the table is prefix-free, and
stops there since DEC_SYMS symbols are out; the effect writes them from DST offset 0 on and sets OUT_PTR. -/
theorem unpackDecodesThePayload : Obligations.UnpackDecodesThePayload := by
  unfold Obligations.UnpackDecodesThePayload
  intro s out hcodes hhdr hwin htable hsrc hdst hlen hcoded hpre
  obtain ⟨-, -, hprefixFree⟩ := htable
  have hcheck : unpackCheck s = none := (unpackCheck_eq_none s).2 ⟨⟨hcodes, hhdr⟩, hwin, hsrc, hdst⟩
  have hsyms : unpackSymbols s = .ok out := unpackSymbols_ok hprefixFree hcoded hlen hpre
  exact ⟨_, exec_unpack hcheck hsyms, rfl, dstHolds_of_mem_eq_writeBytes (s := s) rfl rfl,
    sameBytesOutside_of_mem_eq_writeBytes rfl⟩

end Sys2Proof.Machine
end

section
/-! Proofs about the composites (47_composite.md), first the table of a byte sequence: its histogram, and that the codes of
its tree are prefix-free, for exactly the bytes that occur (41_histogram.md R143, 43_codes.md R164). -/

namespace Sys2Proof.Machine

/-! ### The histogram of a byte sequence (R143) -/

theorem tableGet_histogramOf (input : List Byte) (sym : Byte) :
    tableGet (histogramOf input) sym = BitVec.ofNat 32 (input.count sym) := by
  simp [tableGet, histogramOf]

theorem toNat_tableGet_histogramOf {input : List Byte} (hlen : input.length ≤ Config.maxCount) (sym : Byte) :
    (tableGet (histogramOf input) sym).toNat = input.count sym := by
  have hcount := input.count_le_length (a := sym)
  have hmax : Config.maxCount = 4294967295 := rfl
  rw [tableGet_histogramOf, BitVec.toNat_ofNat, Nat.mod_eq_of_lt (by omega)]

/-- Counting every byte from the zero histogram on gives the sequence's histogram. -/
theorem foldl_countSymbol_eq_histogramOf {input : List Byte} (hlen : input.length ≤ Config.maxCount) :
    input.foldl countSymbol (tableFill 0#32) = histogramOf input := by
  obtain ⟨hcount, -⟩ := foldl_countSymbol input (tableFill 0#32) (by simpa using hlen)
  refine table_ext fun sym => BitVec.eq_of_toNat_eq ?_
  simpa [toNat_tableGet_histogramOf hlen] using hcount sym

theorem histTotal_histogramOf {input : List Byte} (hlen : input.length ≤ Config.maxCount) :
    histTotal (histogramOf input) = input.length := by
  obtain ⟨-, htotal⟩ := foldl_countSymbol input (tableFill 0#32) (by simpa using hlen)
  simpa [foldl_countSymbol_eq_histogramOf hlen] using htotal

theorem histogramOf_ne_zero_iff {input : List Byte} (hlen : input.length ≤ Config.maxCount) {sym : Byte} :
    tableGet (histogramOf input) sym ≠ 0#32 ↔ sym ∈ input := by
  rw [← List.count_pos_iff, ← toNat_tableGet_histogramOf hlen sym, Nat.pos_iff_ne_zero, ne_eq, ne_eq, ← BitVec.toNat_inj]
  rfl

theorem countedSymbols_histogramOf_ne_nil {input : List Byte} (hlen : input.length ≤ Config.maxCount)
    (hne : input ≠ []) : countedSymbols (histogramOf input) ≠ [] := by
  obtain ⟨sym, hsym⟩ := List.exists_mem_of_ne_nil input hne
  exact List.ne_nil_of_mem (mem_countedSymbols.2 ((histogramOf_ne_zero_iff hlen).2 hsym))

/-- Summing over the symbols with their numbers of occurrences is summing over the sequence. -/
theorem sum_count_mul (input : List Byte) (f : Byte → Nat) :
    (allSymbols.map fun sym => input.count sym * f sym).sum = (input.map f).sum := by
  induction input with
  | nil => simp
  | cons b rest ih =>
    have hupdate := sum_map_update allSymbols (fun sym => rest.count sym * f sym)
      (fun sym => (b :: rest).count sym * f sym) b nodup_allSymbols (mem_allSymbols b) fun sym _ hne => by
        rw [List.count_cons_of_ne hne.symm]
    simp only [List.count_cons_self, Nat.succ_mul] at hupdate
    rw [List.map_cons, List.sum_cons]
    omega

/-! ### The codes of a tree are prefix-free (43_codes.md R164) -/

/-- Below a leaf there is no slot: a path that goes on from one ends there. -/
theorem follow_append_of_leaf {nodes : List Node} {i k m : Nat} {p rest : Bits} {sym : Byte} {w : Word}
    (hp : follow nodes i p = some k) (hk : nodes[k]? = some (.leaf sym w)) (h : follow nodes i (p ++ rest) = some m) :
    rest = [] := by
  induction p generalizing i with
  | nil =>
    cases hp
    cases rest with
    | nil => rfl
    | cons bit rest =>
      obtain ⟨j, ⟨w', l, r, hnode, -⟩, -⟩ := follow_cons_eq_some.1 h
      cases hk.symm.trans hnode
  | cons bit p ih =>
    obtain ⟨j, hj, hp⟩ := follow_cons_eq_some.1 hp
    obtain ⟨j', hj', h⟩ := follow_cons_eq_some.1 h
    obtain ⟨w₁, l₁, r₁, hnode₁, rfl⟩ := hj
    obtain ⟨w₂, l₂, r₂, hnode₂, rfl⟩ := hj'
    cases hnode₁.symm.trans hnode₂
    exact ih hp h

/-- A path to a leaf begins no path to another leaf. -/
theorem leadsToLeaf_of_prefix {nodes : List Node} {root : Nat} {p q : Bits} {a b : Byte}
    (hp : leadsToLeaf nodes root p a) (hq : leadsToLeaf nodes root q b) (hpre : p <+: q) : a = b := by
  obtain ⟨rest, rfl⟩ := hpre
  obtain ⟨k, w, hfollow, hk⟩ := hp
  obtain ⟨m, w', hfollow', hm⟩ := hq
  obtain rfl := follow_append_of_leaf hfollow hk hfollow'
  rw [List.append_nil, hfollow] at hfollow'
  cases hfollow'
  cases hk.symm.trans hm
  rfl

theorem countedSymbols_one_or_more {h : Table Word} (hn : countedSymbols h ≠ []) :
    (∃ sym, countedSymbols h = [sym]) ∨ 2 ≤ (countedSymbols h).length := by
  have hpos := List.length_pos_of_ne_nil hn
  rw [← List.length_eq_one_iff]
  omega

/-- A histogram with one symbol has a tree of one leaf, whose symbol gets the code "0" (R162). -/
theorem assignCodes_of_one {h : Table Word} {sym : Byte} (hone : countedSymbols h = [sym])
    (ht : histTotal h ≤ Config.maxCount) :
    assignCodes (buildTree h).1 (buildTree h).2 = tableSet (tableFill []) sym [false] := by
  have hne : countedSymbols h ≠ [] := by simp [hone]
  have hlast := (buildTree_arenaTree hne ht).rootLast
  have hroot : (buildTree h).2 = 0 := by
    rw [length_buildTree h hne, hone] at hlast
    simpa using hlast.symm
  obtain ⟨w, hleaf⟩ := (buildTree_leaf_iff hne ht (k := 0) (sym := sym)).2 (by simp [hone])
  rw [hroot]
  exact assignCodes_leaf hleaf

/-- The code of each symbol with a count is its path, when there are two or more. -/
theorem leadsToLeaf_assignCodes {h : Table Word} (hn : 2 ≤ (countedSymbols h).length)
    (ht : histTotal h ≤ Config.maxCount) {sym : Byte} (hsym : tableGet h sym ≠ 0#32) :
    leadsToLeaf (buildTree h).1 (buildTree h).2 (tableGet (assignCodes (buildTree h).1 (buildTree h).2) sym) sym := by
  obtain ⟨p, hp⟩ := (buildTree_exists_path (List.ne_nil_of_length_pos (by omega)) ht).2 hsym
  rwa [assignCodes_of_path hn ht hp]

/-- The empty path leads to no leaf of a tree with two symbols or more: its root is internal. -/
theorem not_leadsToLeaf_nil {h : Table Word} (hn : 2 ≤ (countedSymbols h).length)
    (ht : histTotal h ≤ Config.maxCount) (sym : Byte) : ¬ leadsToLeaf (buildTree h).1 (buildTree h).2 [] sym := by
  intro hroot
  have hne : countedSymbols h ≠ [] := List.ne_nil_of_length_pos (by omega)
  have hrank := (buildTree_leaf_iff hne ht).1 (leadsToLeaf_nil.1 hroot)
  have := (List.getElem?_eq_some_iff.1 hrank).1
  have := length_buildTree h hne
  have := (buildTree_arenaTree hne ht).rootLast
  omega

/-- The symbols with a code are the symbols with a count. -/
theorem assignCodes_ne_nil_iff {h : Table Word} (hn : countedSymbols h ≠ []) (ht : histTotal h ≤ Config.maxCount)
    {sym : Byte} : tableGet (assignCodes (buildTree h).1 (buildTree h).2) sym ≠ [] ↔ tableGet h sym ≠ 0#32 := by
  rcases countedSymbols_one_or_more hn with ⟨a, ha⟩ | hge
  · rw [assignCodes_of_one ha ht, tableGet_set, tableGet_fill, ← mem_countedSymbols, ha, List.mem_singleton]
    split <;> simp_all
  · refine ⟨fun hcode hzero => hcode (assignCodes_of_no_count hge ht hzero), fun hsym hnil => ?_⟩
    have hpath := leadsToLeaf_assignCodes hge ht hsym
    rw [hnil] at hpath
    exact not_leadsToLeaf_nil hge ht sym hpath

theorem prefixFree_assignCodes {h : Table Word} (hn : countedSymbols h ≠ []) (ht : histTotal h ≤ Config.maxCount) :
    prefixFree (assignCodes (buildTree h).1 (buildTree h).2) := by
  intro a b hab ha hb hpre
  rw [assignCodes_ne_nil_iff hn ht] at ha hb
  rcases countedSymbols_one_or_more hn with ⟨c, hc⟩ | hge
  · rw [← mem_countedSymbols, hc, List.mem_singleton] at ha hb
    exact hab (ha.trans hb.symm)
  · exact hab (leadsToLeaf_of_prefix (leadsToLeaf_assignCodes hge ht ha) (leadsToLeaf_assignCodes hge ht hb) hpre)

/-! ### The table of a byte sequence -/

section
variable {input : List Byte} (hlen : input.length ≤ Config.maxCount) (hne : input ≠ [])
include hlen hne

theorem tableFor_ne_nil_iff {sym : Byte} : tableGet (tableFor input) sym ≠ [] ↔ sym ∈ input := by
  rw [tableFor, assignCodes_ne_nil_iff (countedSymbols_histogramOf_ne_nil hlen hne)
    ((histTotal_histogramOf hlen).trans_le hlen), histogramOf_ne_zero_iff hlen]

theorem prefixFree_tableFor : prefixFree (tableFor input) :=
  prefixFree_assignCodes (countedSymbols_histogramOf_ne_nil hlen hne) ((histTotal_histogramOf hlen).trans_le hlen)

end

end Sys2Proof.Machine
end

section
/-! Proofs about the composites, second DECODE (47_composite.md R201): what it leaves of a SRC window that holds a good
container, and that the bytes of a header and of a packed code stream make one (46_container.md R190 to R195). -/

namespace Sys2Proof.Machine

/-! ### Bytes in memory -/

/-- The bytes of a list stand in memory from address a on. -/
def memHolds (m : Memory) (a : Nat) (bytes : List Byte) : Prop := ∀ k, ∀ h : k < bytes.length, readByte m (a + k) = bytes[k]

theorem dstHolds_iff_memHolds {s : State} {o : Nat} {bytes : List Byte} :
    dstHolds s o bytes ↔ memHolds s.mem (s.dstBase.toNat + o) bytes := by
  simp only [dstHolds, memHolds, dstByte, Nat.add_assoc]

theorem memHolds_append {m : Memory} {a : Nat} {xs ys : List Byte} :
    memHolds m a (xs ++ ys) ↔ memHolds m a xs ∧ memHolds m (a + xs.length) ys := by
  refine ⟨fun h => ⟨fun k hk => ?_, fun k hk => ?_⟩, fun ⟨hx, hy⟩ k hk => ?_⟩
  · rw [h k (by rw [List.length_append]; omega), List.getElem_append_left hk]
  · rw [Nat.add_assoc, h (xs.length + k) (by rw [List.length_append]; omega),
      List.getElem_append_right (Nat.le_add_right _ _)]
    simp only [Nat.add_sub_cancel_left]
  · rcases Nat.lt_or_ge k xs.length with hlt | hge
    · rw [List.getElem_append_left hlt, hx k hlt]
    · rw [List.length_append] at hk
      rw [List.getElem_append_right hge, ← hy (k - xs.length) (by omega), Nat.add_assoc, Nat.add_sub_cancel' hge]

theorem memHolds_cons {m : Memory} {a : Nat} {b : Byte} {bytes : List Byte} :
    memHolds m a (b :: bytes) ↔ readByte m a = b ∧ memHolds m (a + 1) bytes := by
  rw [← List.singleton_append, memHolds_append]
  simp [memHolds]

/-- A word read where its four bytes stand (46_container.md R191). -/
theorem get32_of_memHolds {s : State} {o : Nat} {w : Word} (h : memHolds s.mem (s.srcBase.toNat + o) (bytesOf32 w)) :
    get32 s o = w := by
  simp only [bytesOf32, memHolds_cons, Nat.add_assoc] at h
  obtain ⟨h0, h1, h2, h3, -⟩ := h
  rw [← be32_bytesOf32 w, get32, srcByte, srcByte, srcByte, srcByte, h0, h1, h2, h3]

theorem get32_eq_ofNat (s : State) (o : Nat) : get32 s o = BitVec.ofNat 32 (srcWord s o) := by
  rw [← get32_toNat, BitVec.ofNat_toNat, BitVec.setWidth_eq]

theorem srcWord_of_memHolds {s : State} {o n : Nat} (hn : n < 2 ^ 32)
    (h : memHolds s.mem (s.srcBase.toNat + o) (bytesOf32 (BitVec.ofNat 32 n))) : srcWord s o = n := by
  rw [← get32_toNat, get32_of_memHolds h, BitVec.toNat_ofNat, Nat.mod_eq_of_lt hn]

theorem memHolds_entry {m : Memory} {a : Nat} {es : List (Byte × Bits)} (h : memHolds m a (es.flatMap entryBytes))
    (i : Nat) (hi : i < es.length) : memHolds m (a + 5 * i) (entryBytes es[i]) := by
  induction es generalizing a i with
  | nil => cases hi
  | cons e rest ih =>
    obtain ⟨hfirst, hrest⟩ := memHolds_append.1 (List.flatMap_cons ▸ h)
    cases i with
    | zero => exact hfirst
    | succ i =>
      have hnext := ih hrest i (by simpa using hi)
      rwa [show a + (entryBytes e).length + 5 * i = a + 5 * (i + 1) by simp [entryBytes]; omega] at hnext

/-! ### The header of a table -/

/-- The entries of a usable table pass the checks of HDR_READ among themselves (R193). -/
theorem pairwise_tableEntries {ct : Table Bits} (h : prefixFree ct) :
    (tableEntries ct).Pairwise fun e f => e.1 ≠ f.1 ∧ ¬ (e.2 <+: f.2) ∧ ¬ (f.2 <+: e.2) := by
  rw [tableEntries_eq, List.pairwise_map]
  refine (pairwise_codedSymbols ct).imp_of_mem fun {a b} ha hb hlt => ?_
  rw [mem_codedSymbols] at ha hb
  have hab : a ≠ b := fun he => absurd (he ▸ hlt) (Nat.lt_irrefl _)
  exact ⟨hab, h a b hab ha hb, h b a hab.symm hb ha⟩

theorem tableIs_tableEntries (ct : Table Bits) : tableIs ct (tableEntries ct) := by
  rw [tableEntries_eq]
  constructor
  · intro e he
    obtain ⟨sym, -, rfl⟩ := List.mem_map.1 he
    rfl
  · intro sym hsym
    by_contra hcode
    exact hsym (sym, tableGet ct sym) (List.mem_map.2 ⟨sym, (mem_codedSymbols ct sym).2 hcode, rfl⟩) rfl

/-- Reading back the entries of a usable table gives the table. -/
theorem tableOfEntries_tableEntries {ct : Table Bits} (h : prefixFree ct) : tableOfEntries (tableEntries ct) = ct :=
  tableIs_unique (tableIs_tableOfEntries ((pairwise_tableEntries h).imp And.left)) (tableIs_tableEntries ct)

theorem length_of_mem_tableEntries {ct : Table Bits} (hlen : ∀ sym, (tableGet ct sym).length ≤ 23) {e : Byte × Bits}
    (he : e ∈ tableEntries ct) : 1 ≤ e.2.length ∧ e.2.length ≤ 23 := by
  rw [tableEntries_eq] at he
  obtain ⟨sym, hsym, rfl⟩ := List.mem_map.1 he
  exact ⟨List.length_pos_of_ne_nil ((mem_codedSymbols ct sym).1 hsym), hlen sym⟩

theorem length_flatMap_entryBytes (es : List (Byte × Bits)) : (es.flatMap entryBytes).length = 5 * es.length := by
  simp [List.length_flatMap, entryBytes, Nat.mul_comm]

/-- Where the fields of a header stand (30_encoding.md R112). -/
theorem memHolds_headerBytes {m : Memory} {a symbolCount payload : Nat} {ct : Table Bits}
    (h : memHolds m a (headerBytes ct symbolCount payload)) :
    readByte m a = 0x1F#8 ∧ readByte m (a + 1) = 0xA0#8 ∧
    memHolds m (a + 2) (bytesOf32 (BitVec.ofNat 32 (tableEntries ct).length)) ∧
    memHolds m (a + 6) ((tableEntries ct).flatMap entryBytes) ∧
    memHolds m (a + (6 + 5 * (tableEntries ct).length)) (bytesOf32 (BitVec.ofNat 32 symbolCount)) ∧
    memHolds m (a + (10 + 5 * (tableEntries ct).length)) (bytesOf32 (BitVec.ofNat 32 payload)) := by
  simp only [headerBytes, memHolds_append, memHolds_cons, List.length_append, List.length_cons, List.length_nil,
    length_bytesOf32, length_flatMap_entryBytes] at h
  obtain ⟨⟨⟨⟨⟨hsig0, hsig1, -⟩, hsize⟩, hentries⟩, hcount⟩, hbytes⟩ := h
  refine ⟨hsig0, hsig1, hsize, hentries, hcount, ?_⟩
  rwa [show 10 + 5 * (tableEntries ct).length = 0 + 1 + 1 + 4 + 5 * (tableEntries ct).length + 4 by omega]

/-- A SRC window that begins with the header of a usable table holds its fields, all good (R190 to R193). -/
theorem srcFields_of_headerBytes {s : State} {ct : Table Bits} {symbolCount payload : Nat} (hct : tableUsable ct)
    (hsyms : symbolCount < 2 ^ 32) (hpay : payload < 2 ^ 32)
    (h : memHolds s.mem s.srcBase.toNat (headerBytes ct symbolCount payload)) :
    srcFields s (tableEntries ct) symbolCount payload := by
  obtain ⟨⟨sym, hsym⟩, hlen, hfree⟩ := hct
  obtain ⟨hsig0, hsig1, hsize, hentries, hcount, hbytes⟩ := memHolds_headerBytes h
  have hpos : 1 ≤ (tableEntries ct).length := by
    rw [length_tableEntries]
    exact List.length_pos_of_mem ((mem_codedSymbols ct sym).2 hsym)
  have hle : (tableEntries ct).length ≤ 256 := length_tableEntries ct ▸ codedSymbols_length_le ct
  refine ⟨hsig0, hsig1, srcWord_of_memHolds (by omega) hsize, hpos, hle, fun i hi => ?entry, pairwise_tableEntries hfree,
    srcWord_of_memHolds hsyms hcount, srcWord_of_memHolds hpay hbytes⟩
  obtain ⟨hpos, hle⟩ := length_of_mem_tableEntries hlen (List.getElem_mem hi)
  obtain ⟨hbyte, hword⟩ := memHolds_cons.1 (memHolds_entry hentries i hi)
  have hget : BitVec.ofNat 32 (srcWord s (7 + 5 * i)) = codeWord (tableEntries ct)[i].2 := by
    rw [← get32_eq_ofNat, get32_of_memHolds]
    rwa [show s.srcBase.toNat + (7 + 5 * i) = s.srcBase.toNat + 6 + 5 * i + 1 by omega]
  rw [hget, srcByte, ← Nat.add_assoc]
  exact ⟨hbyte, wordLen_codeWord _ hle, wordCode_codeWord _ hle, hpos, hle⟩

/-! ### The payload -/

theorem length_packedBytes (stream : Bits) : (packedBytes stream).length = (stream.length + 7) / 8 := by simp [packedBytes]

/-- Packed bytes in the payload's place are read back as the stream, with the padding bits after it (45_unpacker.md R181). -/
theorem stream_prefix_payloadBits {s : State} {stream : Bits} (hlen : (packedBytes stream).length = s.decPbytes.toNat)
    (h : memHolds s.mem (s.srcBase.toNat + s.inPtr.toNat) (packedBytes stream)) : stream <+: payloadBits s := by
  have hbytes := length_packedBytes stream
  rw [List.prefix_iff_getElem]
  refine ⟨by rw [length_payloadBits]; omega, fun i hi => ?_⟩
  have hbyte : srcByte s (s.inPtr.toNat + i / 8) = streamByte stream (i / 8) := by
    rw [srcByte, ← Nat.add_assoc, h (i / 8) (by omega)]
    simp [packedBytes]
  rw [getElem_payloadBits, getBit, hbyte, streamByte_getLsbD _ _ _ (Nat.mod_lt _ (by omega)), Nat.div_add_mod,
    List.getD_eq_getElem _ _ hi]

/-! ### HDR_READ and DECODE (46_container.md R191, 47_composite.md R201) -/

/-- The state HDR_READ leaves of a header with these entries, symbol count and payload length (R191). -/
def withHeader (s : State) (entries : List (Byte × Bits)) (symbolCount payload : Nat) : State :=
  { s with
    ct := tableOfEntries entries, decSyms := BitVec.ofNat 32 symbolCount, decPbytes := BitVec.ofNat 32 payload,
    inPtr := BitVec.ofNat 32 (14 + 5 * entries.length), treeValid := false, codesValid := true, hdrValid := true }

theorem srcWord_lt (s : State) (o : Nat) : srcWord s o < 2 ^ 32 := get32_toNat s o ▸ (get32 s o).isLt

/-- HDR_READ takes a good header. -/
theorem hdrReadRule_of_header {s : State} {entries : List (Byte × Bits)} {symbolCount payload : Nat}
    (hsrc : srcUsable s) (h : srcHeader s entries symbolCount payload) :
    hdrReadRule s = .ok (withHeader s entries symbolCount payload) := by
  obtain ⟨⟨hsig0, hsig1, hsize, hpos, hle, hentries, hpair, hcount, hpay⟩, hfit⟩ := h
  have hn : hdrTableSize s = entries.length := (get32_toNat s 2).trans hsize
  have hp : hdrPayloadBytes s = BitVec.ofNat 32 payload := by rw [hdrPayloadBytes, get32_eq_ofNat, hn, hpay]
  have hc : hdrSymbolCount s = BitVec.ofNat 32 symbolCount := by rw [hdrSymbolCount, get32_eq_ofNat, hn, hcount]
  have hcheck : hdrReadCheck s = none := by
    simp only [hdrReadCheck, Option.or_eq_none_iff, srcCheck_eq_none, truncatedCheck_eq_none, raiseIf_eq_none, hn, hdrLen,
      Config.tableMax, hsig0, hsig1, Config.signature0, Config.signature1]
    exact ⟨hsrc, by omega, by simp, by omega, by omega, by omega⟩
  have hread : readEntries s entries.length 0 [] = .ok entries := by
    refine readEntries_ok entries [] 0 0 (fun k hk => ?_) hpair
    obtain ⟨hsym, hlen, hcode, h1, h23⟩ := hentries k hk
    rw [Nat.zero_add, get32_eq_ofNat, hlen]
    exact ⟨hsym, hcode, h1, h23⟩
  have htrunc : truncatedCheck s (hdrLen entries.length + (BitVec.ofNat 32 payload).toNat) = none := by
    rwa [BitVec.toNat_ofNat, Nat.mod_eq_of_lt (hpay ▸ srcWord_lt s _), truncatedCheck_eq_none]
  have heffect : hdrReadEffect s entries = withHeader s entries symbolCount payload := by
    rw [hdrReadEffect, hc, hp, hn, hdrLen, withHeader]
  simp only [hdrReadRule, hcheck, hn, hread, hp, htrunc, heffect]

/-- The table of a header whose entries pass the checks is prefix-free. -/
theorem prefixFree_of_srcFields {s : State} {entries : List (Byte × Bits)} {symbolCount payload : Nat}
    (h : srcFields s entries symbolCount payload) : prefixFree (tableOfEntries entries) := by
  obtain ⟨-, -, -, hpos, -, hentries, hpair, -, -⟩ := h
  have hlen : ∀ e ∈ entries, 1 ≤ e.2.length ∧ e.2.length ≤ 23 := by
    intro e he
    obtain ⟨i, hi, rfl⟩ := List.getElem_of_mem he
    obtain ⟨-, -, -, hbounds⟩ := hentries i hi
    exact hbounds
  exact (tableUsable_of_entries (tableIs_tableOfEntries (hpair.imp And.left)) (List.ne_nil_of_length_pos hpos) hlen
    hpair).2.2

/-- All that DECODE does to a good container whose payload begins with the codes of `out`. -/
theorem decodeRun_of_container {s : State} {entries : List (Byte × Bits)} {out : List Byte} {payload : Nat}
    (hwin : bothUsable s) (h : srcHeader s entries out.length payload) (hcap : out.length ≤ s.dstCap.toNat)
    (hcoded : ∀ b ∈ out, tableGet (tableOfEntries entries) b ≠ [])
    (hpre : codeStream (tableOfEntries entries) out <+: payloadBits (withHeader s entries out.length payload)) :
    decodeRun s = .ok (unpackEffect (withHeader s entries out.length payload) out) := by
  have hsrc : srcUsable s := hwin.1
  refine decodeRun_eq_ok.2 ⟨hwin, _, hdrReadRule_of_header hsrc h, ?_⟩
  obtain ⟨hfields, hfit⟩ := h
  have hsrcLen := s.srcLen.isLt
  have hdstCap := s.dstCap.isLt
  have hsyms : (BitVec.ofNat 32 out.length).toNat = out.length := Nat.mod_eq_of_lt (by omega)
  refine unpackRule_eq_ok ((unpackCheck_eq_none _).2 ⟨⟨rfl, rfl⟩, hwin, ?source, hsyms.trans_le hcap⟩)
    (unpackSymbols_ok (prefixFree_of_srcFields hfields) hcoded hsyms.symm hpre)
  case source =>
    simp only [withHeader, BitVec.toNat_ofNat]
    rwa [Nat.mod_eq_of_lt (by omega), Nat.mod_eq_of_lt (by omega)]

end Sys2Proof.Machine
end

section
/-! Proofs about the composites, third ENCODE (47_composite.md R200): what a success leaves, and with it the round trip (R204)
and that the container is a function of the input alone (R205). -/

namespace Sys2Proof.Machine

/-! ### The container (30_encoding.md R112 to R121) -/

theorem field32_eq_bytesOf32 (v : Nat) : field32 v = bytesOf32 (BitVec.ofNat 32 v) := by
  have hbyte (k : Nat) (hk : k ≤ 24) : BitVec.ofNat 8 (v / 2 ^ k) = (BitVec.ofNat 32 v).extractLsb' k 8 := by
    refine BitVec.eq_of_getLsbD_eq fun i hi => ?_
    have hi32 : k + i < 32 := by omega
    rw [BitVec.getLsbD_extractLsb', BitVec.getLsbD_ofNat, BitVec.getLsbD_ofNat, Nat.testBit_div_two_pow]
    simp [hi32, hi, Nat.add_comm]
  have h0 := hbyte 0 (by omega)
  rw [pow_zero, Nat.div_one] at h0
  rw [field32, bytesOf32, hbyte 24 (by omega), hbyte 16 (by omega), hbyte 8 (by omega), h0]

theorem tableField_eq (ct : Table Bits) : tableField ct = (tableEntries ct).flatMap entryBytes := by
  rw [tableField, tableEntries_eq, List.flatMap_map]
  simp only [entryBytes, field32_eq_bytesOf32, BitVec.ofNat_toNat, BitVec.setWidth_eq]

/-- The header of a table with a sequence's counts, and the sequence's codes packed after it. -/
def containerWith (ct : Table Bits) (input : List Byte) : List Byte :=
  headerBytes ct input.length (packedBytes (codeStream ct input)).length ++ packedBytes (codeStream ct input)

/-- A sequence's container is that of its own table. -/
theorem containerOf_eq (input : List Byte) : containerOf input = containerWith (tableFor input) input := by
  simp only [containerOf, containerWith, headerBytes, tableField_eq, field32_eq_bytesOf32, length_tableEntries,
    Config.signature0, Config.signature1]

theorem streamBytes_flushed (stream : Bits) : streamBytes stream.length true = (packedBytes stream).length := by
  rw [length_packedBytes, streamBytes]
  by_cases hwhole : stream.length % 8 = 0
  · simp only [hwhole, ne_eq, not_true_eq_false, and_false, if_false]
    omega
  · simp only [hwhole, ne_eq, not_false_eq_true, and_self, if_true]
    omega

/-! ### The steps of ENCODE -/

/-- What the first four steps of ENCODE leave: the histogram, the tree and the table of the SRC bytes. -/
def withTableFor (s : State) : State :=
  { s with
    hist := histogramOf (srcBytes s), nodes := (buildTree (histogramOf (srcBytes s))).1,
    root := BitVec.ofNat 9 (buildTree (histogramOf (srcBytes s))).2, ct := tableFor (srcBytes s),
    treeValid := true, codesValid := true }

@[simp] theorem withTableFor_hist (s : State) : (withTableFor s).hist = histogramOf (srcBytes s) := rfl

@[simp] theorem withTableFor_ct (s : State) : (withTableFor s).ct = tableFor (srcBytes s) := by
  rw [withTableFor]

@[simp] theorem srcBytes_withTableFor (s : State) : srcBytes (withTableFor s) = srcBytes s := rfl

theorem length_srcBytes_le (s : State) : (srcBytes s).length ≤ Config.maxCount := by
  rw [length_srcBytes]
  exact Nat.le_of_lt_succ s.srcLen.isLt

theorem srcBytes_ne_nil {s : State} : srcBytes s ≠ [] ↔ s.srcLen ≠ 0#32 := by
  rw [ne_eq, ne_eq, ← List.length_eq_zero_iff, length_srcBytes, ← BitVec.toNat_inj]
  rfl

/-- The root of a histogram's tree fits ROOT (10_state.md R44). -/
theorem toNat_root_buildTree {h : Table Word} (hn : countedSymbols h ≠ []) (ht : histTotal h ≤ Config.maxCount) :
    (BitVec.ofNat 9 (buildTree h).2).toNat = (buildTree h).2 := by
  obtain ⟨a, hroot, hinv⟩ := buildTree_mergeInv hn ht
  rw [hroot, BitVec.toNat_ofNat, Nat.mod_eq_of_lt (hinv.index_lt_512 (a := a) (by simp))]

/-- HIST_CLEAR, HIST_ACCUM, TREE_BUILD and CODE_ASSIGN one after the other leave the table of the SRC bytes, and succeed only when
no code is longer than 23 bits. -/
theorem tableSteps_ok {s s1 s2 s3 s4 : State} (hne : s.srcLen ≠ 0#32) (h1 : histClearRule s = .ok s1)
    (h2 : histAccumRule s1 = .ok s2) (h3 : treeBuildRule s2 = .ok s3) (h4 : codeAssignRule s3 = .ok s4) :
    s4 = withTableFor s ∧ ∀ sym, (tableGet (tableFor (srcBytes s)) sym).length ≤ 23 := by
  have hlen := length_srcBytes_le s
  have hroot := toNat_root_buildTree (countedSymbols_histogramOf_ne_nil hlen (srcBytes_ne_nil.2 hne))
    ((histTotal_histogramOf hlen).trans_le hlen)
  cases h1
  obtain ⟨-, rfl⟩ := guarded_eq_ok.1 h2
  have hhist : histAccumEffect (withHist s (tableFill 0#32)) = withHist s (histogramOf (srcBytes s)) :=
    congrArg (withHist s) (foldl_countSymbol_eq_histogramOf hlen)
  rw [hhist] at h3
  obtain ⟨-, rfl⟩ := guarded_eq_ok.1 h3
  obtain ⟨hcheck, rfl⟩ := guarded_eq_ok.1 h4
  obtain ⟨-, hshort⟩ := Option.or_eq_none_iff.1 hcheck
  simp only [treeBuildEffect, withHist_hist, hroot, tooLongCheck_eq_none] at hshort
  refine ⟨?_, hshort⟩
  simp only [codeAssignEffect, treeBuildEffect, withHist, withTableFor, hroot, tableFor]

/-- Every occurrence of a symbol takes its code's bits (46_container.md R190). -/
theorem histCodeBits_of_hist {s : State} {input : List Byte} (hlen : input.length ≤ Config.maxCount)
    (h : s.hist = histogramOf input) : histCodeBits s = (codeStream s.ct input).length := by
  rw [histCodeBits, codeStream, List.length_flatMap, tableRows_eq, List.map_map, h]
  simp only [Function.comp_def, toNat_tableGet_histogramOf hlen]
  exact sum_count_mul input fun sym => (tableGet s.ct sym).length

/-- All that a successful HDR_WRITE does: the header's bytes and OUT_PTR. -/
theorem hdrWriteRule_ok {s t : State} (h : hdrWriteRule s = .ok t) :
    hdrLen (codedSymbols s.ct).length ≤ s.dstCap.toNat ∧
    t = { s with
      mem := writeBytes s.mem s.dstBase.toNat (headerBytes s.ct (histTotal s.hist) (ceil8 (histCodeBits s))),
      outPtr := BitVec.ofNat 32 (hdrLen (codedSymbols s.ct).length) } := by
  obtain ⟨hcheck, rfl⟩ := guarded_eq_ok.1 h
  simp only [hdrWriteCheck, Option.or_eq_none_iff, dstFullCheck_eq_none, length_tableEntries] at hcheck
  obtain ⟨-, -, -, -, hfit⟩ := hcheck
  refine ⟨hfit, ?_⟩
  rw [hdrWriteEffect, dstWriteAll_eq, length_tableEntries]
  rfl

theorem packNeeds_eq (s : State) (nbits : Nat) (last : Bool) :
    packNeeds s nbits last = s.outPtr.toNat + streamBytes (s.pwCur.toNat + nbits) last := rfl

/-- All that a successful PACK_BLOCK does to a clean writer. -/
theorem packBlockRule_ok {s t : State} {last : Bool} (hclean : writerClean s) (h : packBlockRule last s = .ok t) :
    s.outPtr.toNat + streamBytes (s.pwCur.toNat + (codeStream s.ct (srcBytes s)).length) last ≤ s.dstCap.toNat ∧
    packedOnto s t (codeStream s.ct (srcBytes s)) last ∧ sameButWriter s t := by
  obtain ⟨hcheck, rfl⟩ := guarded_eq_ok.1 h
  simp only [packBlockCheck, Option.or_eq_none_iff, dstFullCheck_eq_none, srcCodeBits_eq, packNeeds_eq] at hcheck
  obtain ⟨-, -, -, -, hfit⟩ := hcheck
  have hcap := s.dstCap.isLt
  have hsame := foldl_packOne_same s (srcBytes s)
  have hd : ((srcBytes s).foldl packOne s).dstBase = s.dstBase := by rw [hsame]
  have hpacked : packedOnto s ((srcBytes s).foldl packOne s) (codeStream s.ct (srcBytes s)) false := by
    refine foldl_packOne_packedOnto _ hclean ?_
    simp only [streamBytes, Bool.false_eq_true, false_and, if_false] at hfit ⊢
    omega
  exact ⟨hfit, flushIf_packedOnto last hd hpacked (by omega), hsame.trans (flushIf_same last _).writer⟩

/-! ### What ENCODE leaves (R200) -/

/-- A write inside the DST window leaves the SRC bytes as they were, once the windows are apart (20_memory.md R75). -/
theorem srcBytes_of_dst_write {s t : State} {bytes : List Byte} (hb : t.srcBase = s.srcBase) (hl : t.srcLen = s.srcLen)
    (hm : t.mem = writeBytes s.mem s.dstBase.toNat bytes) (hfit : bytes.length ≤ s.dstCap.toNat) (hapart : windowsApart s) :
    srcBytes t = srcBytes s := by
  rw [srcBytes, srcBytes, hl]
  refine List.map_congr_left fun o ho => ?_
  rw [List.mem_range] at ho
  rw [srcByte, srcByte, hb, hm, readByte_writeBytes_outside]
  rcases hapart with h | h | h | h
  · simp [h] at ho
  · have hnone : s.dstCap.toNat = 0 := by rw [h]; rfl
    omega
  · omega
  · omega

/-- Packing after a header that ends at OUT_PTR, from an empty writer, puts the packed codes behind it. -/
theorem packBlockRule_after_header {s t : State} {header : List Byte} (hptr : s.outPtr.toNat = header.length)
    (hheader : dstHolds s 0 header) (hcur : s.pwCur = 0#3) (hbyte : s.pwByte = 0#8) (h : packBlockRule true s = .ok t) :
    (header ++ packedBytes (codeStream s.ct (srcBytes s))).length ≤ s.dstCap.toNat ∧
    dstHolds t 0 (header ++ packedBytes (codeStream s.ct (srcBytes s))) ∧
    t.outPtr.toNat = (header ++ packedBytes (codeStream s.ct (srcBytes s))).length ∧ sameButWriter s t := by
  have hclean : writerClean s := fun k _ => by simp [hbyte]
  obtain ⟨hfit, hpacked, hsame⟩ := packBlockRule_ok hclean h
  have hpending : pendingBits s = [] := by simp [pendingBits, hcur]
  have hcur0 : s.pwCur.toNat = 0 := by rw [hcur]; rfl
  have hd : t.dstBase = s.dstBase := by rw [hsame]
  simp only [packedOnto, hpending, List.nil_append, streamBytes_flushed] at hpacked
  rw [hcur0, Nat.zero_add, streamBytes_flushed] at hfit
  obtain ⟨hout, hbytes, hother, -, -⟩ := hpacked
  rw [List.length_append]
  refine ⟨hptr ▸ hfit, ?_, hptr ▸ hout, hsame⟩
  simp only [dstHolds_iff_memHolds, memHolds_append, Nat.add_zero] at hheader ⊢
  refine ⟨fun k hk => ?_, fun k hk => ?_⟩
  · rw [hd, hother _ (by omega), hheader k hk]
  · rw [Nat.add_assoc, ← hptr]
    refine (hbytes k hk).trans ?_
    simp [packedBytes]

/-- The last three steps of ENCODE, from a histogram of the SRC bytes: they write the container of the table. -/
theorem containerSteps_ok {s s5 s6 t : State} (hhist : s.hist = histogramOf (srcBytes s)) (hapart : windowsApart s)
    (h5 : hdrWriteRule s = .ok s5) (h6 : packResetRule s5 = .ok s6) (h7 : packBlockRule true s6 = .ok t) :
    (containerWith s.ct (srcBytes s)).length ≤ s.dstCap.toNat ∧ dstHolds t 0 (containerWith s.ct (srcBytes s)) ∧
    t.outPtr.toNat = (containerWith s.ct (srcBytes s)).length ∧ sameButWriter s t := by
  have hbytes : ceil8 (histCodeBits s) = (packedBytes (codeStream s.ct (srcBytes s))).length := by
    rw [histCodeBits_of_hist (length_srcBytes_le s) hhist, length_packedBytes, ceil8]
  have htotal : histTotal s.hist = (srcBytes s).length := hhist ▸ histTotal_histogramOf (length_srcBytes_le s)
  have hheader := length_headerBytes s.ct (srcBytes s).length (packedBytes (codeStream s.ct (srcBytes s))).length
  obtain ⟨hhdr, hs5⟩ := hdrWriteRule_ok h5
  rw [hbytes, htotal, ← hheader] at hs5
  rw [← hheader] at hhdr
  have hs6 : s6 = { s5 with pwByte := 0#8, pwCur := 0#3, pwSyms := 0#32 } := by cases h6; rfl
  have hframe : sameButWriter s s6 := by rw [hs6, hs5]; rfl
  have hmem : s6.mem = writeBytes s.mem s.dstBase.toNat
      (headerBytes s.ct (srcBytes s).length (packedBytes (codeStream s.ct (srcBytes s))).length) := by rw [hs6, hs5]
  have hptr : s6.outPtr.toNat =
      (headerBytes s.ct (srcBytes s).length (packedBytes (codeStream s.ct (srcBytes s))).length).length := by
    rw [hs6, hs5]
    exact Nat.mod_eq_of_lt (hhdr.trans_lt s.dstCap.isLt)
  have hsrc : srcBytes s6 = srcBytes s := srcBytes_of_dst_write (by rw [hframe]) (by rw [hframe]) hmem hhdr hapart
  obtain ⟨hfit, hholds, hout, hsame⟩ := packBlockRule_after_header hptr
    (dstHolds_of_mem_eq_writeBytes (by rw [hframe]) hmem) (by rw [hs6]) (by rw [hs6]) h7
  have hct : s6.ct = s.ct := by rw [hframe]
  have hdc : s6.dstCap = s.dstCap := by rw [hframe]
  rw [hsrc, hct] at hfit hholds hout
  exact ⟨hdc ▸ hfit, hholds, hout, hframe.trans hsame⟩

/-- What a successful ENCODE of an input that is not empty leaves: the container in the DST window, with a table that can be read
back, and its length in OUT_PTR. -/
structure EncodedFrom (s t : State) : Prop where
  usable      : bothUsable s
  programming : sameProgramming s t
  table       : tableUsable (tableFor (srcBytes s))
  fits        : (containerOf (srcBytes s)).length ≤ s.dstCap.toNat
  holds       : dstHolds t 0 (containerOf (srcBytes s))
  outPtr      : t.outPtr.toNat = (containerOf (srcBytes s)).length

theorem tableUsable_tableFor {input : List Byte} (hlen : input.length ≤ Config.maxCount) (hne : input ≠ [])
    (hshort : ∀ sym, (tableGet (tableFor input) sym).length ≤ 23) : tableUsable (tableFor input) := by
  obtain ⟨sym, hsym⟩ := List.exists_mem_of_ne_nil input hne
  exact ⟨⟨sym, (tableFor_ne_nil_iff hlen hne).2 hsym⟩, hshort, prefixFree_tableFor hlen hne⟩

theorem encodedFrom_of_runsOk {s t : State} (hne : s.srcLen ≠ 0#32) (h : runsOk .encode s t) : EncodedFrom s t := by
  obtain ⟨v, hv, rfl⟩ := runsOk_iff.1 h
  obtain ⟨husable, s1, s2, s3, s4, s5, s6, h1, h2, h3, h4, h5, h6, h7⟩ := (encodeRun_eq_ok hne).1 hv
  obtain ⟨rfl, hshort⟩ := tableSteps_ok hne h1 h2 h3 h4
  have hhist : (withTableFor s).hist = histogramOf (srcBytes (withTableFor s)) := rfl
  obtain ⟨hfit, hholds, hout, hsame⟩ := containerSteps_ok hhist husable.2.2 h5 h6 h7
  rw [withTableFor_ct, srcBytes_withTableFor] at hfit hholds hout
  rw [← containerOf_eq] at hfit hholds hout
  exact {
    usable := husable
    programming := hsame.programming
    table := tableUsable_tableFor (length_srcBytes_le s) (srcBytes_ne_nil.2 hne) hshort
    fits := hfit
    holds := hholds
    outPtr := hout }

/-- Settles O56: either run leaves the container of its SRC bytes, its length in OUT_PTR, and the SRC bytes are equal. -/
theorem encodeIsBitExact : Obligations.EncodeIsBitExact := by
  unfold Obligations.EncodeIsBitExact
  intro s t s' t' hsrc hne hs hs'
  have hne' : s'.srcLen ≠ 0#32 := by rwa [← srcBytes_ne_nil, ← hsrc, srcBytes_ne_nil]
  obtain ⟨-, -, -, -, hholds, hout⟩ := encodedFrom_of_runsOk hne hs
  obtain ⟨-, -, -, -, hholds', hout'⟩ := encodedFrom_of_runsOk hne' hs'
  rw [← hsrc] at hholds' hout'
  refine ⟨BitVec.eq_of_toNat_eq (hout.trans hout'.symm), fun o ho => ?_⟩
  have hbyte := hholds o (hout ▸ ho)
  have hbyte' := hholds' o (hout ▸ ho)
  rw [Nat.zero_add] at hbyte hbyte'
  exact hbyte.trans hbyte'.symm

/-! ### DECODE of what ENCODE wrote (R204) -/

/-- A container in the SRC window is one DECODE takes, whose payload begins with the codes of the input. -/
theorem decodeRun_of_containerWith {s : State} {ct : Table Bits} {input : List Byte} (hwin : bothUsable s)
    (hct : tableUsable ct) (hcoded : ∀ b ∈ input, tableGet ct b ≠ []) (hcap : input.length ≤ s.dstCap.toNat)
    (hlen : s.srcLen.toNat = (containerWith ct input).length)
    (h : memHolds s.mem s.srcBase.toNat (containerWith ct input)) :
    decodeRun s = .ok (unpackEffect
      (withHeader s (tableEntries ct) input.length (packedBytes (codeStream ct input)).length) input) := by
  obtain ⟨hheader, hpayload⟩ := memHolds_append.1 h
  rw [containerWith, List.length_append, length_headerBytes, ← length_tableEntries, hdrLen] at hlen
  rw [length_headerBytes, ← length_tableEntries, hdrLen] at hpayload
  have hsrcLen := s.srcLen.isLt
  have hdstCap := s.dstCap.isLt
  have hfields := srcFields_of_headerBytes hct (by omega) (by omega) hheader
  have htable : tableOfEntries (tableEntries ct) = ct := tableOfEntries_tableEntries hct.2.2
  refine decodeRun_of_container hwin ⟨hfields, hlen.ge⟩ hcap (htable.symm ▸ hcoded) (htable.symm ▸ ?_)
  refine stream_prefix_payloadBits ?length ?bytes
  case length => exact (Nat.mod_eq_of_lt (by omega)).symm
  case bytes =>
    simp only [withHeader, BitVec.toNat_ofNat]
    rwa [Nat.mod_eq_of_lt (by omega)]

/-- The part of the DST window that a command filled makes a usable SRC window. -/
theorem srcUsable_of_dstUsable {s u : State} (h : dstUsable s) (hb : u.srcBase = s.dstBase)
    (hl : u.srcLen.toNat ≤ s.dstCap.toNat) (hu : u.unbacked = s.unbacked) : srcUsable u := by
  obtain ⟨hspace, hbacked⟩ := h
  refine ⟨?_, fun a hlo hhi => ?_⟩
  · unfold windowInSpace at hspace ⊢
    rw [hb]
    omega
  · rw [hb] at hlo hhi
    simpa only [memBacked, hu] using hbacked a hlo (by omega)

/-- Settles O55: ENCODE left a container whose table is prefix-free and has a code for every input byte, so DECODE reads the
table back and takes the input's codes off the payload. -/
theorem roundTrip : Obligations.RoundTrip := by
  unfold Obligations.RoundTrip
  intro s t base cap hne h hcap u hdst hapart
  obtain ⟨⟨-, hdstS, -⟩, hprog, htable, hfit, hholds, hout⟩ := encodedFrom_of_runsOk hne h
  obtain ⟨-, -, -, -, -, hdstBase, -, -, -, -, hunbacked, -⟩ := hprog
  have hlen := length_srcBytes_le s
  have hwin : bothUsable u := ⟨srcUsable_of_dstUsable hdstS hdstBase (hout.trans_le hfit) hunbacked, hdst, hapart⟩
  rw [dstHolds_iff_memHolds] at hholds
  rw [containerOf_eq] at hholds hout
  have hrun := decodeRun_of_containerWith (s := u) hwin htable
    (fun b => (tableFor_ne_nil_iff hlen (srcBytes_ne_nil.2 hne)).2) ((length_srcBytes s).trans_le hcap) hout hholds
  rw [unpackEffect_eq] at hrun
  refine ⟨_, exec_of_ok (i := .decode) hrun, ⟨rfl, rfl, rfl, rfl, rfl⟩, ?outPtr, ?holds⟩
  case outPtr =>
    rw [length_srcBytes]
    exact BitVec.ofNat_toNat _ _
  case holds => exact dstHolds_of_mem_eq_writeBytes (s := u) rfl rfl

end Sys2Proof.Machine
end

section
/-! Proofs about the exceptions (60_exceptions.md): what a completion does to the interrupt level, and which steps change DONE
(R217). -/

namespace Sys2Proof.Machine

/-! ### A command keeps the host's programming (30_encoding.md R108) -/

theorem sameProgramming.trans {s t u : State} (h1 : sameProgramming s t) (h2 : sameProgramming t u) : sameProgramming s u := by
  unfold sameProgramming at h1 h2 ⊢
  simp only [h1, h2, and_self]

theorem sameProgramming_of_runSteps_ok {steps : List (Byte × Rule)} (hsteps : ∀ p ∈ steps, isUnitStep p) {s t : State}
    (h : runSteps steps s = .ok t) : sameProgramming s t := by
  induction steps generalizing s with
  | nil =>
    cases h
    exact .refl _
  | cons p rest ih =>
    obtain ⟨u, hu, hrest⟩ := runSteps_cons_ok.1 h
    obtain ⟨⟨i, hi, hrun⟩, hsteps⟩ := List.forall_mem_cons.1 hsteps
    have hok : runOf i s = .ok u := (hrun s).trans (atStage_eq_ok.2 hu)
    exact (sameProgramming_of_unit_ok hi hok).trans (ih hsteps hrest)

theorem runSteps_of_runComposite_ok {i : Instr} {steps : List (Byte × Rule)} {s t : State}
    (h : runComposite i steps s = .ok t) : runSteps steps s = .ok t := by
  unfold runComposite at h
  split at h
  · cases h
  · exact h

/-- What a rule leaves keeps the host's programming, the composites' by their steps. -/
theorem sameProgramming_of_runOf_ok {i : Instr} {s t : State} (h : runOf i s = .ok t) : sameProgramming s t := by
  cases i with
  | encode =>
    simp only [runOf, encodeRun] at h
    split at h
    · cases h
      exact .refl s
    · exact sameProgramming_of_runSteps_ok encodeSteps_isUnitStep (runSteps_of_runComposite_ok h)
  | decode => exact sameProgramming_of_runSteps_ok decodeSteps_isUnitStep (runSteps_of_runComposite_ok h)
  | _ => exact sameProgramming_of_unit_ok (by simp [isUnit]) h

/-- Every completion, successful or failed, keeps the host's programming. -/
theorem sameProgramming_of_exec {i : Instr} {s t : State} (h : exec i s = .next t) : sameProgramming s t := by
  rcases exec_cases h with ⟨e, -, rfl⟩ | ⟨u, hu, rfl⟩
  · exact .refl s
  · exact (sameProgramming_of_runOf_ok hu).trans (.refl u)

theorem done_of_exec {i : Instr} {s t : State} (h : exec i s = .next t) : t.done = true := by
  rcases exec_cases h with ⟨e, -, rfl⟩ | ⟨u, -, rfl⟩ <;> rfl

/-! ### The interrupt level -/

theorem irq_eq_true_iff (s : State) : irq s = true ↔ s.done = true ∧ s.doneIe = true := Bool.and_eq_true_iff

theorem irq_of_done {s : State} (h : s.done = true) : irq s = s.doneIe := by simp [irq, h]

theorem irq_of_not_done {s : State} (h : s.done = false) : irq s = false := by simp [irq, h]

/-- A completion sets DONE and keeps DONE_IE. -/
theorem irq_of_exec {i : Instr} {s t : State} (h : exec i s = .next t) : irq t = s.doneIe := by
  obtain ⟨-, -, hie, -⟩ := sameProgramming_of_exec h
  rw [irq_of_done (done_of_exec h), hie]

/-! ### Only a completion sets DONE -/

theorem writeIfIdle_not_done {s t : State} (hs : s.done = false) (ht : t.done = false) :
    (writeIfIdle s t).done = false := by
  unfold writeIfIdle
  split
  · exact hs
  · exact ht

/-- No host register write sets DONE: CMD and ACK can only clear it, and the other registers leave it. -/
theorem regStore_not_done {s : State} (hd : s.done = false) (o : Nat) (v : Word) : (regStore s o v).done = false := by
  unfold regStore
  split
  case h_1 =>
    unfold writeCmd
    split
    · exact hd
    · rfl
  case h_3 => simp [writeAck, hd]
  case h_4 | h_5 | h_6 | h_7 | h_8 | h_9 => exact writeIfIdle_not_done hd hd
  all_goals exact hd

/-- A step that turns DONE on is the core's, while BUSY. -/
theorem step_sets_done {s t : State} (h : step s = .next t) (hs : s.done = false) (ht : t.done = true) :
    s.busy = true ∧ (s.turns = [] ∨ ∃ rest, s.turns = .core :: rest) := by
  have absurd_of_not_done {p : Prop} (hf : t.done = false) : p := absurd (hf.symm.trans ht) Bool.false_ne_true
  obtain ⟨rest, -, ⟨hcore, hturn⟩ | ⟨rfl, -⟩ | ⟨v, rfl⟩ | ⟨addr, o, v, rfl, -⟩ | ⟨addr, v, rfl, -⟩⟩ := step_cases h
  · refine ⟨?_, hturn.imp_right fun hr => ⟨rest, hr⟩⟩
    rcases coreStep_cases hcore with ⟨-, rfl⟩ | ⟨hb, -⟩ | ⟨hb, -⟩
    · exact absurd_of_not_done hs
    · exact hb
    · exact hb
  · exact absurd_of_not_done rfl
  · exact absurd_of_not_done hs
  · exact absurd_of_not_done (regStore_not_done (s := { s with turns := rest }) hs o v)
  · exact absurd_of_not_done hs

/-! ### What clears the level, and the mask -/

section

variable {s : State} {addr v : Word} {rest : List Turn} (hturn : s.turns = .regWrite addr v :: rest)
include hturn

/-- ACK with bit 0 clears DONE, and the level with it. -/
theorem step_ack_clears_irq (ha : addressesReg s addr 0x18) (hv : v.getLsbD 0 = true) :
    ∃ t, step s = .next t ∧ t.done = false ∧ irq t = false := by
  obtain ⟨hstep, -⟩ := ackClearsDoneAndOverrun s addr v rest hturn ha
  exact ⟨_, hstep, if_pos hv, irq_of_not_done (if_pos hv)⟩

/-- The acceptance of a command clears DONE, and the level with it. -/
theorem step_accept_clears_irq (ha : addressesReg s addr 0x04) (hb : s.busy = false) :
    ∃ t, step s = .next t ∧ t.done = false ∧ irq t = false := by
  obtain ⟨hidle, -⟩ := cmdWriteIsAcceptedOrDropped s addr v rest hturn ha
  exact ⟨_, hidle hb, rfl, irq_of_not_done rfl⟩

/-- IRQ_EN takes bit 0 of the value and leaves DONE, so the level is DONE under the new mask. -/
theorem step_irqEn_masks_irq (ha : addressesReg s addr 0x14) :
    ∃ t, step s = .next t ∧ t.done = s.done ∧ irq t = (s.done && v.getLsbD 0) :=
  ⟨_, step_regWrite_at hturn ha (by decide) (by decide), rfl, rfl⟩

end

/-- Settles O13: a completion sets DONE and keeps DONE_IE, no other step sets DONE, and the three host writes clear DONE or mask
the level. -/
theorem interruptLevel : Obligations.InterruptLevel := by
  unfold Obligations.InterruptLevel
  refine ⟨rfl, fun s => ⟨irq_eq_true_iff s, fun _ _ => irq_of_exec, fun _ => step_sets_done, fun addr v rest hturn =>
    ⟨step_ack_clears_irq hturn, step_accept_clears_irq hturn, fun ha hv => ?masked, fun ha hv => ?enabled⟩⟩⟩
  case masked => simpa only [hv, Bool.and_false] using step_irqEn_masks_irq hturn ha
  case enabled => simpa only [hv, Bool.and_true] using step_irqEn_masks_irq hturn ha

end Sys2Proof.Machine
end

section
/-! Proofs about the command word (30_encoding.md): the decoder reads the fields the encoder puts there, and the words it
takes are those that pass the checks of R105. -/

namespace Sys2Proof

/-! ### The decoder reads the encoder's fields (R100, R106, R109) -/

theorem decodePlain_eq_ok {f : CmdFields} {i j : Instr} :
    decodePlain f i = .ok j ↔ f.operand = 0 ∧ f.last = false ∧ i = j := by
  unfold decodePlain
  split_ifs <;> simp_all

theorem decodeHistByte_eq_ok {f : CmdFields} {j : Instr} :
    decodeHistByte f = .ok j ↔ f.last = false ∧ .histByte f.operand = j := by
  unfold decodeHistByte
  split_ifs <;> simp_all

theorem decodePackBlock_eq_ok {f : CmdFields} {j : Instr} :
    decodePackBlock f = .ok j ↔ f.operand = 0 ∧ .packBlock f.last = j := by
  unfold decodePackBlock
  split_ifs <;> simp_all

/-- The fields hold the opcode and the operands of the command (R109). -/
def CmdFields.carries (f : CmdFields) (i : Instr) : Prop :=
  f.opcode = opcodeOf i ∧ f.operand = symOf i ∧ f.last = lastOf i

theorem of_ite_eq_ok {c p : Prop} [Decidable c] {x y : Except Reject Instr} {i : Instr}
    (h : (if c then x else y) = .ok i) (hx : c → x = .ok i → p) (hy : y = .ok i → p) : p := by
  split_ifs at h with hc
  · exact hx hc h
  · exact hy h

/-- A row of the opcode map that decodes gives the command the fields carry, row by row (R106). -/
theorem carries_of_decodeOpcode {f : CmdFields} {i : Instr} (h : decodeOpcode f = .ok i) : f.carries i := by
  have plain (j : Instr) (hsym : symOf j = 0#8) (hlast : lastOf j = false) (hop : f.opcode = opcodeOf j)
      (h : decodePlain f j = .ok i) : f.carries i := by
    obtain ⟨hs, hl, rfl⟩ := decodePlain_eq_ok.1 h
    exact ⟨hop, hs.trans hsym.symm, hl.trans hlast.symm⟩
  have histByte (hop : f.opcode = 0x12#8) (h : decodeHistByte f = .ok i) : f.carries i := by
    obtain ⟨hl, rfl⟩ := decodeHistByte_eq_ok.1 h
    exact ⟨hop, rfl, hl⟩
  have packSym (hop : f.opcode = 0x41#8) (h : .ok (.packSym f.operand f.last) = (.ok i : Except Reject Instr)) :
      f.carries i := by
    cases h
    exact ⟨hop, rfl, rfl⟩
  have packBlock (hop : f.opcode = 0x42#8) (h : decodePackBlock f = .ok i) : f.carries i := by
    obtain ⟨hs, rfl⟩ := decodePackBlock_eq_ok.1 h
    exact ⟨hop, hs, rfl⟩
  exact of_ite_eq_ok h (plain .nop rfl rfl) fun h => of_ite_eq_ok h (plain .sreset rfl rfl) fun h =>
    of_ite_eq_ok h (plain .histClear rfl rfl) fun h => of_ite_eq_ok h (plain .histAccum rfl rfl) fun h =>
    of_ite_eq_ok h histByte fun h => of_ite_eq_ok h (plain .treeBuild rfl rfl) fun h =>
    of_ite_eq_ok h (plain .codeAssign rfl rfl) fun h => of_ite_eq_ok h (plain .hdrWrite rfl rfl) fun h =>
    of_ite_eq_ok h (plain .hdrRead rfl rfl) fun h => of_ite_eq_ok h (plain .packReset rfl rfl) fun h =>
    of_ite_eq_ok h packSym fun h => of_ite_eq_ok h packBlock fun h =>
    of_ite_eq_ok h (plain .packFlush rfl rfl) fun h => of_ite_eq_ok h (plain .unpack rfl rfl) fun h =>
    of_ite_eq_ok h (plain .encode rfl rfl) fun h => of_ite_eq_ok h (plain .decode rfl rfl) nofun

theorem decodeOpcode_of_fields (i : Instr) : decodeOpcode ⟨opcodeOf i, symOf i, lastOf i, 0#15⟩ = .ok i := by
  cases i <;> rfl

theorem decode_encode (i : Instr) : decode (encode i) = .ok i := by
  rw [decode, fieldsOf_encode]
  exact decodeOpcode_of_fields i

/-- The four fields hold every bit of the word (R100). -/
theorem fieldsOf_injective {w v : Word} (h : fieldsOf w = fieldsOf v) : w = v := by
  simp only [fieldsOf, CmdFields.mk.injEq] at h
  obtain ⟨hop, hoperand, hlast, hrsvd⟩ := h
  have hop := congrArg BitVec.toNat hop
  have hoperand := congrArg BitVec.toNat hoperand
  have hrsvd := congrArg BitVec.toNat hrsvd
  simp only [BitVec.extractLsb'_toNat, Nat.shiftRight_eq_div_pow] at hop hoperand hrsvd
  simp only [BitVec.getLsbD, Nat.testBit_eq_decide_div_mod_eq, decide_eq_decide] at hlast
  refine BitVec.eq_of_toNat_eq ?_
  omega

theorem fieldsOf_of_decode {w : Word} {i : Instr} (h : decode w = .ok i) :
    fieldsOf w = ⟨opcodeOf i, symOf i, lastOf i, 0#15⟩ := by
  unfold decode at h
  split at h
  · cases h
  · rename_i hrsvd
    obtain ⟨hop, hsym, hlast⟩ := carries_of_decodeOpcode h
    simp only [← hop, ← hsym, ← hlast, ← show (fieldsOf w).rsvd = 0#15 from not_ne_iff.1 hrsvd]

/-- Settles O2: the word of a command decodes to it, and a word that decodes has the fields of the command's word, so it is
that word. -/
theorem decodeIsTheInverseOfEncode : Obligations.DecodeIsTheInverseOfEncode := by
  unfold Obligations.DecodeIsTheInverseOfEncode
  refine fun w i => ⟨fun h => fieldsOf_injective ?_, fun h => h ▸ decode_encode i⟩
  rw [fieldsOf_of_decode h, fieldsOf_encode]

/-! ### Legality (R105) -/

/-- The sixteen opcodes of the map (R106), as numbers. -/
def opcodeNumbers : List Nat :=
  [0x00, 0x01, 0x10, 0x11, 0x12, 0x20, 0x21, 0x30, 0x31, 0x40, 0x41, 0x42, 0x43, 0x50, 0x60, 0x61]

theorem opcodeDefined_iff (f : CmdFields) : f.opcodeDefined = true ↔ f.opcode.toNat ∈ opcodeNumbers := by
  have hnumbers : opcodeNumbers = opcodeMap.map fun r => r.opcode.toNat := rfl
  simp only [CmdFields.opcodeDefined, hnumbers, List.any_eq_true, List.mem_map, beq_iff_eq, BitVec.toNat_inj]

theorem operandAllowed_iff (f : CmdFields) :
    f.operandAllowed = true ↔ f.operand = 0 ∨ f.opcode = 0x12#8 ∨ f.opcode = 0x41#8 := by
  simp [CmdFields.operandAllowed, opcodeMap, @eq_comm _ f.opcode]

theorem lastAllowed_iff (f : CmdFields) :
    f.lastAllowed = true ↔ f.last = false ∨ f.opcode = 0x41#8 ∨ f.opcode = 0x42#8 := by
  simp [CmdFields.lastAllowed, opcodeMap, @eq_comm _ f.opcode]

/-- The four conditions of R105. -/
theorem wellFormed_iff (f : CmdFields) : f.wellFormed = true ↔ f.opcode.toNat ∈ opcodeNumbers ∧ f.rsvd = 0 ∧
    (f.operand = 0 ∨ f.opcode = 0x12#8 ∨ f.opcode = 0x41#8) ∧
    (f.last = false ∨ f.opcode = 0x41#8 ∨ f.opcode = 0x42#8) := by
  simp only [CmdFields.wellFormed, Bool.and_eq_true, opcodeDefined_iff, operandAllowed_iff, lastAllowed_iff,
    CmdFields.rsvdZero, beq_iff_eq, and_assoc]

theorem wellFormed_encode (i : Instr) : (fieldsOf (encode i)).wellFormed = true := by
  cases i with
  | nop => exact Laws.LegalEncoding.nop
  | sreset => exact Laws.LegalEncoding.sreset
  | histClear => exact Laws.LegalEncoding.histClear
  | histAccum => exact Laws.LegalEncoding.histAccum
  | histByte sym => exact Laws.LegalEncoding.histByte sym
  | treeBuild => exact Laws.LegalEncoding.treeBuild
  | codeAssign => exact Laws.LegalEncoding.codeAssign
  | hdrWrite => exact Laws.LegalEncoding.hdrWrite
  | hdrRead => exact Laws.LegalEncoding.hdrRead
  | packReset => exact Laws.LegalEncoding.packReset
  | packSym sym last => exact Laws.LegalEncoding.packSym sym last
  | packBlock last => exact Laws.LegalEncoding.packBlock last
  | packFlush => exact Laws.LegalEncoding.packFlush
  | unpack => exact Laws.LegalEncoding.unpack
  | encode => exact Laws.LegalEncoding.encode
  | decode => exact Laws.LegalEncoding.decode

/-- Well-formed fields are those some command carries: each opcode of the map has one. -/
theorem exists_carries_of_wellFormed {f : CmdFields} (h : f.wellFormed = true) : ∃ i, f.carries i := by
  obtain ⟨hop, -, hoperand, hlast⟩ := (wellFormed_iff f).1 h
  have opcode {n : Nat} (hn : f.opcode.toNat = n) : f.opcode = BitVec.ofNat 8 n := by
    rw [← hn, BitVec.ofNat_toNat, BitVec.setWidth_eq]
  have plain (j : Instr) (hsym : symOf j = 0#8) (hl : lastOf j = false)
      (huses : opcodeOf j ≠ 0x12#8 ∧ opcodeOf j ≠ 0x41#8 ∧ opcodeOf j ≠ 0x42#8) (hj : f.opcode = opcodeOf j) :
      ∃ i, f.carries i := by
    rw [hj] at hoperand hlast
    exact ⟨j, hj, (hoperand.resolve_right (by tauto)).trans hsym.symm, (hlast.resolve_right (by tauto)).trans hl.symm⟩
  simp only [opcodeNumbers, List.mem_cons, List.not_mem_nil, or_false] at hop
  obtain hn | hn | hn | hn | hn | hn | hn | hn | hn | hn | hn | hn | hn | hn | hn | hn := hop
  · exact plain .nop rfl rfl (by decide) (opcode hn)
  · exact plain .sreset rfl rfl (by decide) (opcode hn)
  · exact plain .histClear rfl rfl (by decide) (opcode hn)
  · exact plain .histAccum rfl rfl (by decide) (opcode hn)
  · have h12 : f.opcode = 0x12#8 := opcode hn
    exact ⟨.histByte f.operand, h12, rfl, hlast.resolve_right (by simp [h12])⟩
  · exact plain .treeBuild rfl rfl (by decide) (opcode hn)
  · exact plain .codeAssign rfl rfl (by decide) (opcode hn)
  · exact plain .hdrWrite rfl rfl (by decide) (opcode hn)
  · exact plain .hdrRead rfl rfl (by decide) (opcode hn)
  · exact plain .packReset rfl rfl (by decide) (opcode hn)
  · exact ⟨.packSym f.operand f.last, opcode hn, rfl, rfl⟩
  · have h42 : f.opcode = 0x42#8 := opcode hn
    exact ⟨.packBlock f.last, h42, hoperand.resolve_right (by simp [h42]), rfl⟩
  · exact plain .packFlush rfl rfl (by decide) (opcode hn)
  · exact plain .unpack rfl rfl (by decide) (opcode hn)
  · exact plain .encode rfl rfl (by decide) (opcode hn)
  · exact plain .decode rfl rfl (by decide) (opcode hn)

/-- The decoder takes the words the check of R105 passes. -/
theorem exists_decode_iff_wellFormed (w : Word) : (∃ i, decode w = .ok i) ↔ (fieldsOf w).wellFormed = true := by
  constructor
  · rintro ⟨i, h⟩
    rw [fieldsOf_of_decode h, ← fieldsOf_encode]
    exact wellFormed_encode i
  · intro h
    obtain ⟨i, hop, hsym, hlast⟩ := exists_carries_of_wellFormed h
    obtain ⟨-, hrsvd, -⟩ := (wellFormed_iff _).1 h
    have hfields : fieldsOf w = ⟨opcodeOf i, symOf i, lastOf i, 0#15⟩ := by
      rw [← hop, ← hsym, ← hlast, ← show (fieldsOf w).rsvd = 0#15 from hrsvd]
    exact ⟨i, fieldsOf_injective (hfields.trans (fieldsOf_encode i).symm) ▸ decode_encode i⟩

/-- Settles O1: each of the twelve words is the encoding of its command. -/
theorem specWordsDecode : Obligations.SpecWordsDecode := by
  unfold Obligations.SpecWordsDecode
  exact ⟨decode_encode .nop, decode_encode .sreset, decode_encode (.histByte 0x61#8), decode_encode .treeBuild,
    decode_encode .codeAssign, decode_encode .hdrRead, decode_encode (.packSym 0x62#8 true),
    decode_encode (.packSym 0x61#8 false), decode_encode (.packBlock true), decode_encode .unpack, decode_encode .encode,
    decode_encode .decode⟩

end Sys2Proof

namespace Sys2Proof.Machine

/-! ### The completion of an illegal word (40_control.md R136) -/

theorem coreStep_illegal {s : State} (hb : s.busy = true) (h : ¬ ∃ i, decode s.cmdLast = .ok i) :
    coreStep s = .next (failedState s (s.cmdLast.extractLsb' 0 8) 0x01#8 s.cmdLast) := by
  cases hd : decode s.cmdLast with
  | ok i => exact absurd ⟨i, hd⟩ h
  | error e =>
    rw [coreStep_busy hb, completion_illegal hd]
    rfl

/-- Settles O3: the words that decode are the well-formed ones, whose checks are the four conditions; an illegal word takes the
core's step to the error's completion. -/
theorem illegalWordsRaiseIllegalCmd : Obligations.IllegalWordsRaiseIllegalCmd := by
  unfold Obligations.IllegalWordsRaiseIllegalCmd
  refine fun w => ⟨(exists_decode_iff_wellFormed w).trans (wellFormed_iff _), exists_decode_iff_wellFormed w,
    fun s hb hw hillegal => ?_⟩
  subst hw
  refine ⟨fun ht => ?_, fun rest ht => ?_⟩
  · rw [step_noTurns ht, coreStep_illegal hb hillegal]
  · rw [step_core ht, coreStep_illegal (s := { s with turns := rest }) hb hillegal]

end Sys2Proof.Machine
end

section
/-! Proofs about the register file and the steps of the two agents (10_state.md, 20_memory.md R83 to R87, 40_control.md R130 to
R134): the core's turn, register writes and reads, the host's memory accesses. -/

namespace Sys2Proof.Machine

/-! ### The core's turn (40_control.md R134) -/

theorem withFetchWord_encode (s : State) (i : Instr) :
    s.withFetchWord 32 (encode i).toNat = placeCommand s (encode i) := by
  rw [State.withFetchWord, Nat.mod_eq_of_lt (encode i).isLt, BitVec.ofNat_toNat, BitVec.setWidth_eq]

theorem step_placeCommand (s : State) (w : Word) :
    step (placeCommand s w) = coreStep { s with cmdLast := w, busy := true, done := false } := step_core rfl

/-- Settles O4: the core's turn while BUSY completes the decoded command, and the placed word decodes to its command. -/
theorem stepRunsTheDecodedCommand : Obligations.StepRunsTheDecodedCommand := by
  unfold Obligations.StepRunsTheDecodedCommand
  refine fun s i => ⟨fun hidle => ⟨fun ht => ?_, fun rest ht => ?_⟩, fun hb hd => ⟨fun ht => ?_, fun rest ht => ?_⟩, ?_⟩
  · rw [step_noTurns ht, coreStep_idle hidle]
  · rw [step_core ht, coreStep_idle (s := { s with turns := rest }) hidle]
  · rw [step_noTurns ht, coreStep_busy hb, completion_legal hd]
  · rw [step_core ht, coreStep_busy (s := { s with turns := rest }) hb,
      completion_legal (s := { s with turns := rest }) hd]
  · rw [withFetchWord_encode, step_placeCommand, coreStep_busy rfl, completion_legal (s := { s with
      cmdLast := encode i, busy := true, done := false }) (decode_encode i)]

/-! ### Register writes while idle (10_state.md R22 to R46) -/

theorem writeIfIdle_idle {s : State} (hb : s.busy = false) (t : State) : writeIfIdle s t = t := by
  simp [writeIfIdle, hb]

/-- A mask of the n low bits takes an n-bit field. -/
theorem and_mask_toNat {mask : Word} (n : Nat) (hm : mask.toNat = 2 ^ n - 1) (v : Word) :
    (v &&& mask).toNat = v.toNat % 2 ^ n := by
  rw [BitVec.toNat_and, hm, Nat.and_two_pow_sub_one_eq_mod]

theorem setWidth_field_eq_and (v : Word) {mask : Word} (n : Nat) (hn : n ≤ 32) (hm : mask.toNat = 2 ^ n - 1) :
    (v.extractLsb' 0 n).setWidth 32 = v &&& mask := by
  refine BitVec.eq_of_toNat_eq ?_
  have hlt : v.toNat % 2 ^ n < 2 ^ 32 :=
    (Nat.mod_lt _ (Nat.two_pow_pos n)).trans_le (Nat.pow_le_pow_right (by omega) hn)
  rw [and_mask_toNat n hm, BitVec.toNat_setWidth, BitVec.extractLsb'_toNat, Nat.shiftRight_zero, Nat.mod_eq_of_lt hlt]

theorem and_allOnes_word (v : Word) : v = v &&& 0xFFFFFFFF#32 := (BitVec.and_allOnes (x := v)).symm

theorem flagBit_getLsbD_zero (v : Word) : flagBit (v.getLsbD 0) 0 = v &&& 0x1#32 := by
  refine BitVec.eq_of_toNat_eq ?_
  rw [and_mask_toNat 1 rfl, BitVec.getLsbD, Nat.testBit_zero, flagBit]
  rcases Nat.mod_two_eq_zero_or_one v.toNat with h | h <;> simp [h]

/-- Settles O7: while idle a store sets the register of its offset alone, and reading it back masks the bits outside its
field. -/
theorem registerWriteIsReadBackWhileIdle : Obligations.RegisterWriteIsReadBackWhileIdle := by
  unfold Obligations.RegisterWriteIsReadBackWhileIdle
  intro s addr v rest o ht ha hb
  have store {q : State} (hq : o < 256 ∧ o % 4 = 0) (h : regStore { s with turns := rest } o v = q) : step s = .next q := by
    rw [step_regWrite_at ht ha hq.1 hq.2, h]
  have idle (q : State) : writeIfIdle { s with turns := rest } q = q :=
    writeIfIdle_idle (s := { s with turns := rest }) hb q
  have irqEn (ho : o = 0x14) : step s = .next { s with turns := rest, doneIe := v.getLsbD 0 } :=
    store (by simp [ho]) (by rw [ho, regStore_irqEn])
  have srcBase (ho : o = 0x1C) : step s = .next { s with turns := rest, srcBase := v } :=
    store (by simp [ho]) (by subst ho; exact idle _)
  have srcLen (ho : o = 0x20) : step s = .next { s with turns := rest, srcLen := v } :=
    store (by simp [ho]) (by subst ho; exact idle _)
  have dstBase (ho : o = 0x24) : step s = .next { s with turns := rest, dstBase := v } :=
    store (by simp [ho]) (by subst ho; exact idle _)
  have dstCap (ho : o = 0x28) : step s = .next { s with turns := rest, dstCap := v } :=
    store (by simp [ho]) (by subst ho; exact idle _)
  have inPtr (ho : o = 0x2C) : step s = .next { s with turns := rest, inPtr := v } :=
    store (by simp [ho]) (by subst ho; exact idle _)
  have outPtr (ho : o = 0x30) : step s = .next { s with turns := rest, outPtr := v } :=
    store (by simp [ho]) (by subst ho; exact idle _)
  have histSel (ho : o = 0x3C) : step s = .next { s with turns := rest, histSel := v.extractLsb' 0 8 } :=
    store (by simp [ho]) (by rw [ho, regStore_histSel])
  have nodeSel (ho : o = 0x44) : step s = .next { s with turns := rest, nodeSel := v.extractLsb' 0 9 } :=
    store (by simp [ho]) (by rw [ho, regStore_nodeSel])
  have codeSel (ho : o = 0x58) : step s = .next { s with turns := rest, codeSel := v.extractLsb' 0 8 } :=
    store (by simp [ho]) (by rw [ho, regStore_codeSel])
  refine ⟨irqEn, srcBase, srcLen, dstBase, dstCap, inPtr, outPtr, histSel, nodeSel, codeSel, fun mask hmask => ?readBack⟩
  simp only [List.mem_cons, Prod.mk.injEq, List.not_mem_nil, or_false] at hmask
  obtain ⟨ho, rfl⟩ | ⟨ho, rfl⟩ | ⟨ho, rfl⟩ | ⟨ho, rfl⟩ | ⟨ho, rfl⟩ | ⟨ho, rfl⟩ | ⟨ho, rfl⟩ | ⟨ho, rfl⟩ | ⟨ho, rfl⟩ |
    ⟨ho, rfl⟩ := hmask
  · exact ⟨_, irqEn ho, ho ▸ flagBit_getLsbD_zero v⟩
  · exact ⟨_, srcBase ho, by subst ho; exact and_allOnes_word v⟩
  · exact ⟨_, srcLen ho, by subst ho; exact and_allOnes_word v⟩
  · exact ⟨_, dstBase ho, by subst ho; exact and_allOnes_word v⟩
  · exact ⟨_, dstCap ho, by subst ho; exact and_allOnes_word v⟩
  · exact ⟨_, inPtr ho, by subst ho; exact and_allOnes_word v⟩
  · exact ⟨_, outPtr ho, by subst ho; exact and_allOnes_word v⟩
  · exact ⟨_, histSel ho, ho ▸ setWidth_field_eq_and v 8 (by omega) rfl⟩
  · exact ⟨_, nodeSel ho, ho ▸ setWidth_field_eq_and v 9 (by omega) rfl⟩
  · exact ⟨_, codeSel ho, ho ▸ setWidth_field_eq_and v 8 (by omega) rfl⟩

/-! ### Register reads (10_state.md R22) -/

/-- Settles O9: an address inside the window reaches its register, whose value is read; one outside stops the run. -/
theorem registerReadHasNoSideEffect : Obligations.RegisterReadHasNoSideEffect := by
  unfold Obligations.RegisterReadHasNoSideEffect
  exact fun s addr rest => ⟨fun ht => ⟨fun o ho h4 ha => step_regRead ht (regOffset_of_addressesReg ha ho h4),
    step_regRead_missed ht⟩, fun v ht => step_regWrite_missed ht⟩

/-! ### STATUS (10_state.md R26) -/

theorem getLsbD_flagBit (b : Bool) (j k : Nat) (hj : j < 32) : (flagBit b j).getLsbD k = (b && decide (k = j)) := by
  cases b with
  | false => simp [flagBit]
  | true =>
    rw [flagBit, if_pos rfl, ← BitVec.twoPow_eq, BitVec.getLsbD_twoPow]
    simp [hj, eq_comm]

theorem getLsbD_statusWord (s : State) (k : Nat) :
    (regValue s 0x08).getLsbD k = (s.busy && decide (k = 0) || s.done && decide (k = 1) ||
      statusError s && decide (k = 2) || s.overrun && decide (k = 3) || s.treeValid && decide (k = 4) ||
      s.codesValid && decide (k = 5) || s.hdrValid && decide (k = 6)) := by
  simp only [regValue_status, statusWord, BitVec.getLsbD_or]
  rw [getLsbD_flagBit _ 0, getLsbD_flagBit _ 1, getLsbD_flagBit _ 2, getLsbD_flagBit _ 3, getLsbD_flagBit _ 4,
    getLsbD_flagBit _ 5, getLsbD_flagBit _ 6] <;> decide

/-- Settles O12: each flag stands at its own bit of STATUS. -/
theorem statusBitsAreTheFlags : Obligations.StatusBitsAreTheFlags := by
  unfold Obligations.StatusBitsAreTheFlags
  intro s
  simp only [getLsbD_statusWord]
  refine ⟨by simp, by simp, by simp [statusError], by simp, by simp, by simp, by simp, fun k hk => ?_⟩
  have hne (j : Nat) (hj : j < 7) : decide (k = j) = false := decide_eq_false (by omega)
  simp [hne]

/-! ### The host's memory accesses (20_memory.md R83, R87) -/

theorem hostMayRead_iff (s : State) (addr : Word) :
    hostMayRead s addr = true ↔ ¬ (s.busy = true ∧ inWindow s.dstBase s.dstCap addr.toNat = true) := by
  simp [hostMayRead, imp_iff_not_or]

theorem hostMayWrite_iff (s : State) (addr : Word) :
    hostMayWrite s addr = true ↔ ¬ (s.busy = true ∧ (inWindow s.srcBase s.srcLen addr.toNat = true ∨
      inWindow s.dstBase s.dstCap addr.toNat = true)) := by
  simp [hostMayWrite, imp_iff_not_or]

section
variable {s : State} {addr : Word} {rest : List Turn}

theorem step_memRead_unbacked (ht : s.turns = .memRead addr :: rest) (h : memBacked s addr.toNat = false) :
    step s = .fault (.hostAccessUnbacked addr) := by
  have h : memBacked { s with turns := rest } addr.toNat = false := h
  simp [step, ht, hostMemRead, h]

theorem step_memWrite_unbacked {v : Byte} (ht : s.turns = .memWrite addr v :: rest) (h : memBacked s addr.toNat = false) :
    step s = .fault (.hostAccessUnbacked addr) := by
  have h : memBacked { s with turns := rest } addr.toNat = false := h
  simp [step, ht, hostMemWrite, h]

theorem step_memRead_forbidden (ht : s.turns = .memRead addr :: rest) (hb : memBacked s addr.toNat = true)
    (hm : hostMayRead s addr = false) : step s = .fault (.hostWindowAccessWhileBusy addr) := by
  have hb : memBacked { s with turns := rest } addr.toNat = true := hb
  have hm : hostMayRead { s with turns := rest } addr = false := hm
  simp [step, ht, hostMemRead, hb, hm]

theorem step_memWrite_forbidden {v : Byte} (ht : s.turns = .memWrite addr v :: rest) (hb : memBacked s addr.toNat = true)
    (hm : hostMayWrite s addr = false) : step s = .fault (.hostWindowAccessWhileBusy addr) := by
  have hb : memBacked { s with turns := rest } addr.toNat = true := hb
  have hm : hostMayWrite { s with turns := rest } addr = false := hm
  simp [step, ht, hostMemWrite, hb, hm]

end

/-- Settles O14: backing given, the host duty of R87 alone decides whether the access stops; a byte written reads back, and no
other byte changes. -/
theorem hostWindowAccessWhileBusyFaults : Obligations.HostWindowAccessWhileBusyFaults := by
  unfold Obligations.HostWindowAccessWhileBusyFaults
  refine fun s addr rest hb => ⟨fun ht => ⟨fun h => ?_, fun h => ?_⟩, fun v ht => ⟨fun h => ?_, fun h => ?_⟩⟩
  · exact step_memRead_forbidden ht hb (Bool.eq_false_iff.2 fun hm => (hostMayRead_iff s addr).1 hm h)
  · exact step_memRead ht hb ((hostMayRead_iff s addr).2 h)
  · exact step_memWrite_forbidden ht hb (Bool.eq_false_iff.2 fun hm => (hostMayWrite_iff s addr).1 hm h)
  · exact ⟨_, step_memWrite ht hb ((hostMayWrite_iff s addr).2 h), rfl, readByte_writeByte_same _ _ _,
      fun a ha => readByte_writeByte_ne _ _ ha⟩

/-- Settles O15: the backing of the address is checked before anything else. -/
theorem hostAccessWithoutMemoryFaults : Obligations.HostAccessWithoutMemoryFaults := by
  unfold Obligations.HostAccessWithoutMemoryFaults
  exact fun s addr rest h => ⟨fun ht => step_memRead_unbacked ht h, fun v ht => step_memWrite_unbacked ht h⟩

/-! ### The values registers read (10_state.md R23 to R52) -/

/-- Two fields of a register side by side, the lower one a byte. -/
theorem toNat_fields (a : Byte) {m : Nat} (b : BitVec m) (hm : m ≤ 24) :
    (a.setWidth 32 ||| b.setWidth 32 <<< 8).toNat = a.toNat + 256 * b.toNat := by
  have ha := a.isLt
  have hb : b.toNat < 2 ^ 24 := b.isLt.trans_le (Nat.pow_le_pow_right (by omega) hm)
  rw [BitVec.toNat_or, BitVec.toNat_shiftLeft, BitVec.toNat_setWidth, BitVec.toNat_setWidth, Nat.mod_eq_of_lt (by omega),
    Nat.mod_eq_of_lt (a := b.toNat) (by omega), Nat.shiftLeft_eq, Nat.mod_eq_of_lt (by omega), ← Nat.shiftLeft_eq,
    Nat.or_comm, ← Nat.shiftLeft_add_eq_or_of_lt ha, Nat.shiftLeft_eq]
  omega

theorem toNat_setWidth_32 {n : Nat} (x : BitVec n) (hn : n ≤ 32) : (x.setWidth 32).toNat = x.toNat := by
  rw [BitVec.toNat_setWidth, Nat.mod_eq_of_lt (x.isLt.trans_le (Nat.pow_le_pow_right (by omega) hn))]

theorem toNat_flagBit_zero (b : Bool) : (flagBit b 0).toNat = b.toNat := by cases b <;> rfl

/-- NDIST counts the symbols with a count (R38). -/
theorem histDistinct_eq (h : Table Word) : histDistinct h = (countedSymbols h).length := by
  simp [histDistinct, countedSymbols, toList_eq_map, List.filter_map, Function.comp_def]

theorem toNat_nodeInfo_leaf (sym : Byte) (w : Word) : (nodeInfo (.leaf sym w)).toNat = 2 ^ 31 + sym.toNat := by
  have h := sym.isLt
  rw [nodeInfo, BitVec.toNat_or, toNat_setWidth_32 sym (by omega)]
  exact (Nat.shiftLeft_add_eq_or_of_lt (i := 31) (h.trans (by decide)) 1).symm

theorem toNat_nodeInfo_internal (w : Word) (l r : BitVec 9) :
    (nodeInfo (.internal w l r)).toNat = 2 ^ 31 + 2 ^ 30 + 512 * r.toNat + l.toNat := by
  have hl : l.toNat < 2 ^ 9 := l.isLt
  have hr : r.toNat < 2 ^ 9 := r.isLt
  have hshift : r.toNat <<< 9 % 2 ^ 32 = r.toNat <<< 9 := by
    rw [Nat.shiftLeft_eq]
    omega
  have hhigh : (1#32 <<< 31).toNat ||| (1#32 <<< 30).toNat = 3 <<< 30 := by decide
  have hmiddle : 3 <<< 30 ||| r.toNat <<< 9 = (3 <<< 21 + r.toNat) <<< 9 := by
    rw [← Nat.shiftLeft_add_eq_or_of_lt (by rw [Nat.shiftLeft_eq]; omega)]
    simp only [Nat.shiftLeft_eq]
    omega
  rw [nodeInfo, BitVec.toNat_or, BitVec.toNat_or, BitVec.toNat_or, BitVec.toNat_shiftLeft (x := r.setWidth 32),
    toNat_setWidth_32 r (by omega), toNat_setWidth_32 l (by omega), hshift, hhigh, hmiddle,
    ← Nat.shiftLeft_add_eq_or_of_lt hl]
  simp only [Nat.shiftLeft_eq]
  omega

theorem regValue_above {o : Nat} (ho : 0x70 < o) (s : State) : regValue s o = 0#32 := by
  unfold regValue
  split
  case h_29 => rfl
  all_goals exact absurd ho (by decide)

/-- Settles O10: the fields of a register do not touch, and each count fits its register. -/
theorem registerMapReadsTheState : Obligations.RegisterMapReadsTheState := by
  unfold Obligations.RegisterMapReadsTheState
  intro s
  refine ⟨rfl, rfl, toNat_fields _ _ (by omega), rfl, toNat_flagBit_zero _, rfl, rfl, rfl, rfl, rfl, rfl, rfl, fun ht => ?total,
    ?ndist, toNat_setWidth_32 _ (by omega), toNat_setWidth_32 _ (by omega), toNat_setWidth_32 _ (by omega), rfl,
    fun h => ?noSlot, fun sym w h => ?leaf, fun w l r h => ?internal, toNat_setWidth_32 _ (by omega), fun h => ?nnodes, rfl,
    toNat_fields _ _ (by omega), rfl, rfl, rfl, fun o ho => regValue_above ho s⟩
  case total =>
    rw [regValue_total, BitVec.toNat_ofNat]
    omega
  case ndist =>
    have := length_countedSymbols_le s.hist
    rw [regValue_ndist, histDistinct_eq, BitVec.toNat_ofNat]
    omega
  case noSlot => simp [nodeInfoReg, nodeWeightReg, List.getElem?_eq_none h]
  case leaf =>
    simp only [regValue_nodeInfo, regValue_nodeWeight, nodeInfoReg, nodeWeightReg, h]
    exact ⟨toNat_nodeInfo_leaf sym w, rfl⟩
  case internal =>
    simp only [regValue_nodeInfo, regValue_nodeWeight, nodeInfoReg, nodeWeightReg, h]
    exact ⟨toNat_nodeInfo_internal w l r, rfl⟩
  case nnodes =>
    rw [regValue_nnodes, BitVec.toNat_ofNat]
    omega

/-! ### Hardware reset (70_reset_and_hazards.md R240, R241) -/

/-- After a reset every register but ID reads 0, whatever the platform's fields. -/
theorem regValue_hardwareReset (s : State) {o : Nat} (ho : o ≠ 0x00) : regValue (hardwareReset s) o = 0#32 := by
  by_cases hderived : o ∈ derivedOffsets
  · exact regValue_derived_of_emptyArrays rfl rfl rfl hderived
  · unfold regValue
    split
    case h_1 => exact absurd rfl ho
    case h_13 | h_14 | h_16 | h_18 | h_19 | h_21 | h_23 | h_24 => exact absurd (by decide) hderived
    case h_3 | h_4 | h_25 => simp [statusWord, statusError, flagBit, hardwareReset, State.reset]
    all_goals rfl

/-- Settles O16: the reset state is what the reset input leaves of it; with empty arrays the selectors do not matter. -/
theorem resetStateOfEveryRegister : Obligations.ResetStateOfEveryRegister := by
  unfold Obligations.ResetStateOfEveryRegister
  exact ⟨rfl, fun o ho => regValue_hardwareReset State.reset ho,
    fun sel => regValue_derived_of_emptyArrays rfl rfl rfl (by decide),
    fun sel => regValue_derived_of_emptyArrays rfl rfl rfl (by decide),
    fun sel => regValue_derived_of_emptyArrays rfl rfl rfl (by decide), rfl, rfl⟩

/-- Settles O17: the step is the reset input's, which leaves memory and the fields that are not the core's. -/
theorem hardwareResetKeepsOnlyMemory : Obligations.HardwareResetKeepsOnlyMemory := by
  unfold Obligations.HardwareResetKeepsOnlyMemory
  exact fun s rest ht => ⟨_, step_reset ht, rfl, rfl, rfl, rfl, rfl, rfl, rfl, rfl, rfl,
    fun o ho => regValue_hardwareReset _ ho, tableGet_fill 0#32, rfl, tableGet_fill []⟩

end Sys2Proof.Machine
end

section
/-! Proofs about the completion of a command in general (40_control.md R134 to R136, 60_exceptions.md R210 to R214): that it
always comes, which stage an error reports, and that a missing flag is reported first. -/

namespace Sys2Proof.Machine

/-! ### Every command completes (40_control.md R134 to R136) -/

/-- Settles O18: a rule answers an error or a state, and either completion does the bookkeeping; no error has number 0. -/
theorem everyCommandCompletes : Obligations.EveryCommandCompletes := by
  unfold Obligations.EveryCommandCompletes
  intro i s
  cases hr : runOf i s with
  | error e => exact ⟨_, exec_of_error hr, rfl, rfl, fun h => absurd h (errByte_ne_zero _)⟩
  | ok u => exact ⟨_, exec_of_ok hr, rfl, rfl, fun _ => ⟨rfl, rfl⟩⟩

/-- The core's turn keeps the accepted word (R25). -/
theorem coreStep_cmdLast {s t : State} (h : coreStep s = .next t) : t.cmdLast = s.cmdLast := by
  rcases coreStep_cases h with ⟨-, rfl⟩ | ⟨-, e, rfl⟩ | ⟨-, i, u, -, hu, rfl⟩
  · rfl
  · rfl
  · obtain ⟨hlast, -⟩ := sameProgramming_of_runOf_ok hu
    exact hlast

/-- Until a step k, which completes it, the command accepted in s stays accepted. -/
def completesAt (s : State) (k : Nat) : Prop :=
  (∀ j < k, ∃ w : State, Sys2Proof.core.run j s = .next w ∧ w.busy = true ∧ w.cmdLast = s.cmdLast) ∧
    ∃ v : State, Sys2Proof.core.run k s = .next v ∧ v.busy = false ∧ v.done = true ∧ v.cmdLast = s.cmdLast

theorem completesAt_one {s q t : State} (hb : s.busy = true) (hq : q.busy = true ∧ q.cmdLast = s.cmdLast)
    (hcore : step s = coreStep q) (h : step s = .next t) : completesAt s 1 := by
  have hcomplete : coreStep q = .next t := hcore.symm.trans h
  obtain ⟨hbusy, hdone⟩ := coreStep_completes hq.1 hcomplete
  refine ⟨fun j hj => ⟨s, ?_, hb, rfl⟩, t, (core_run_succ 0 s t).2 ⟨t, h, rfl⟩, hbusy, hdone,
    (coreStep_cmdLast hcomplete).trans hq.2⟩
  obtain rfl : j = 0 := by omega
  rfl

theorem completesAt_succ {s t : State} {k : Nat} (hb : s.busy = true) (h : step s = .next t)
    (hlast : t.cmdLast = s.cmdLast) (hk : completesAt t k) : completesAt s (k + 1) := by
  obtain ⟨hbefore, v, hv, hbusy, hdone, hvlast⟩ := hk
  refine ⟨fun j hj => ?_, v, (core_run_succ k s v).2 ⟨t, h, hv⟩, hbusy, hdone, hvlast.trans hlast⟩
  cases j with
  | zero => exact ⟨s, rfl, hb, rfl⟩
  | succ j =>
    obtain ⟨w, hw, hwb, hwlast⟩ := hbefore j (by omega)
    exact ⟨w, (core_run_succ j s w).2 ⟨t, h, hw⟩, hwb, hwlast.trans hlast⟩

/-- A host step leaves the command accepted and takes one step off; the first core step completes it. -/
theorem exists_completesAt {s u : State} (hb : s.busy = true) (hreset : .reset ∉ s.turns)
    (hrun : Sys2Proof.core.run (s.turns.length + 1) s = .next u) : ∃ k ≤ s.turns.length + 1, completesAt s k := by
  generalize hturns : s.turns = turns at hreset hrun ⊢
  induction turns generalizing s with
  | nil =>
    obtain ⟨t, ht, -⟩ := (core_run_succ _ s u).1 hrun
    exact ⟨1, by simp, completesAt_one hb ⟨hb, rfl⟩ (step_noTurns hturns) ht⟩
  | cons turn rest ih =>
    obtain ⟨t, ht, hrest⟩ := (core_run_succ _ s u).1 hrun
    by_cases hcore : turn = .core
    · subst hcore
      exact ⟨1, by simp, completesAt_one (q := { s with turns := rest }) hb ⟨hb, rfl⟩ (step_core hturns) ht⟩
    · obtain ⟨hnotReset, hreset⟩ := not_or.1 (List.mem_cons.not.1 hreset)
      obtain ⟨htb, hlast, htturns⟩ := step_host_busy hb hturns hcore (Ne.symm hnotReset) ht
      obtain ⟨k, hk, hcompletes⟩ := ih htb htturns hreset hrest
      exact ⟨k + 1, by rw [List.length_cons]; omega, completesAt_succ hb ht hlast hcompletes⟩

/-- Settles O24: by induction on the steps still to come, each of the host's taking one of them off; at the latest the one after
the last is the core's. -/
theorem acceptedCommandCompletes : Obligations.AcceptedCommandCompletes := by
  unfold Obligations.AcceptedCommandCompletes
  intro s u hb hreset hrun
  obtain ⟨k, hk, hcompletes⟩ := exists_completesAt hb hreset hrun
  exact ⟨k, hk, hcompletes⟩

/-! ### The stage and the code of an error (60_exceptions.md R211, R212) -/

/-- A step of the list raised the error, at its stage. -/
theorem exists_step_of_runSteps_error {steps : List (Byte × Rule)} {s : State} {e : Raised}
    (h : runSteps steps s = .error e) : ∃ p ∈ steps, p.1 = e.stage ∧ ∃ u, p.2 u = .error e.err := by
  induction steps generalizing s with
  | nil => cases h
  | cons p rest ih =>
    rcases runSteps_cons_error.1 h with ⟨c, hc, rfl⟩ | ⟨u, -, hrest⟩
    · exact ⟨p, by simp, rfl, s, hc⟩
    · obtain ⟨q, hq, hstage⟩ := ih hrest
      exact ⟨q, by simp [hq], hstage⟩

theorem stage_of_unit_error {i : Instr} {s : State} {e : Raised} (hi : isUnit i) (h : runOf i s = .error e) :
    e.stage = opcodeOf i := by
  cases i with
  | encode => exact absurd rfl hi.1
  | decode => exact absurd rfl hi.2
  | nop | sreset | histClear | packReset => cases h
  | _ =>
    obtain ⟨c, -, rfl⟩ := atStage_eq_error.1 h
    rfl

theorem stage_of_composite_error {i : Instr} {steps : List (Byte × Rule)} {s : State} {e : Raised}
    (h : runComposite i steps s = .error e) :
    e.stage = opcodeOf i ∨ ∃ p ∈ steps, p.1 = e.stage ∧ ∃ u, p.2 u = .error e.err := by
  unfold runComposite at h
  split at h
  · cases h
    exact .inl rfl
  · exact .inr (exists_step_of_runSteps_error h)

/-- ENCODE's own stage and those of its steps that can fail: HIST_CLEAR cannot. -/
theorem stage_of_encode_error {s : State} {e : Raised} (h : runOf .encode s = .error e) :
    e.stage.toNat ∈ [0x60, 0x11, 0x20, 0x21, 0x30, 0x40, 0x42] := by
  simp only [runOf, encodeRun] at h
  split at h
  · cases h
  rcases stage_of_composite_error h with hown | ⟨p, hp, hstage, u, hu⟩
  · rw [hown]
    decide
  · rw [← hstage]
    simp only [encodeSteps, List.mem_cons, List.not_mem_nil, or_false] at hp
    obtain rfl | rfl | rfl | rfl | rfl | rfl | rfl := hp
    · cases hu
    all_goals decide

theorem stage_of_decode_error {s : State} {e : Raised} (h : runOf .decode s = .error e) :
    e.stage.toNat ∈ [0x61, 0x31, 0x50] := by
  rcases stage_of_composite_error h with hown | ⟨p, hp, hstage, -⟩
  · rw [hown]
    decide
  · rw [← hstage]
    simp only [decodeSteps, List.mem_cons, List.not_mem_nil, or_false] at hp
    obtain rfl | rfl := hp <;> decide

/-- Settles O19: a completion whose code is not 0 took an error, so it is `takeError`, at a stage of the command. -/
theorem failedCommandChangesOnlyBookkeeping : Obligations.FailedCommandChangesOnlyBookkeeping := by
  unfold Obligations.FailedCommandChangesOnlyBookkeeping
  intro i s t h hcode
  rcases exec_cases h with ⟨e, he, rfl⟩ | ⟨u, -, rfl⟩
  · refine ⟨rfl, bne_iff_ne.2 hcode, (errByte_bounds _).2, fun h1 h2 => ?unit, ?encode, ?decode⟩
    case unit => rw [opcode_encode, takeError_errStage, stage_of_unit_error ⟨h1, h2⟩ he]
    case encode =>
      rintro rfl
      exact stage_of_encode_error he
    case decode =>
      rintro rfl
      exact stage_of_decode_error he
  · exact absurd rfl hcode

/-! ### A missing flag (60_exceptions.md R211, R213) -/

theorem sequenceCheck_of_ne {missing : Word} (h : missing ≠ 0#32) : sequenceCheck missing = some ⟨.sequence, missing⟩ :=
  raiseIf_pos _ _ h

theorem needTree_eq (s : State) : needTree s = sequenceCheck (missingFlags .codeAssign s) := by
  cases h : s.treeValid <;> simp [needTree, missingFlags, flagBit, h]

theorem needCodes_eq (s : State) : needCodes s = sequenceCheck (missingFlags .hdrWrite s) := by
  cases h : s.codesValid <;> simp [needCodes, missingFlags, flagBit, h]

theorem needCodesAndHdr_eq (s : State) : needCodesAndHdr s = sequenceCheck (missingFlags .unpack s) := by
  cases h : s.codesValid <;> cases h' : s.hdrValid <;> simp [needCodesAndHdr, missingFlags, flagBit, h, h']

/-- Settles O20: the check on the flags is the first of each command that needs one. -/
theorem missingFlagsRaiseSequence : Obligations.MissingFlagsRaiseSequence := by
  unfold Obligations.MissingFlagsRaiseSequence
  intro i s hmissing
  have hcheck := sequenceCheck_of_ne hmissing
  suffices hrun : runOf i s = .error ⟨opcodeOf i, ⟨.sequence, missingFlags i s⟩⟩ by
    rw [opcode_encode]
    exact exec_of_error hrun
  cases i with
  | codeAssign =>
    have hneed : needTree s = some _ := (needTree_eq s).trans hcheck
    simp [runOf, codeAssignRule, codeAssignCheck, hneed]
  | hdrWrite =>
    have hneed : needCodes s = some _ := (needCodes_eq s).trans hcheck
    simp [runOf, hdrWriteRule, hdrWriteCheck, hneed]
  | packSym sym last =>
    have hneed : needCodes s = some _ := (needCodes_eq s).trans hcheck
    simp [runOf, packSymRule, packSymCheck, hneed]
  | packBlock last =>
    have hneed : needCodes s = some _ := (needCodes_eq s).trans hcheck
    simp [runOf, packBlockRule, packBlockCheck, hneed]
  | unpack =>
    have hneed : needCodesAndHdr s = some _ := (needCodesAndHdr_eq s).trans hcheck
    simp [runOf, unpackRule, unpackCheck, hneed]
  | nop | sreset | histClear | histAccum | histByte _ | treeBuild | hdrRead | packReset | packFlush | encode | decode =>
    exact absurd rfl hmissing

end Sys2Proof.Machine
end

section
/-! Proofs about what a command may change (30_encoding.md R108, 20_memory.md R72): the registers and arrays of its row, and the
bytes of the DST window. -/

namespace Sys2Proof.Machine

/-! ### The registers and arrays of a command's row (R108) -/

/-- What a command that succeeds may write, by the "writes" column of its row: every other field is that of s. -/
def writesOnly (i : Instr) (s t : State) : Prop :=
  match i with
  | .nop => t = s
  | .sreset => t = sresetEffect s
  | .histClear | .histAccum | .histByte _ => ∃ h, t = withHist s h
  | .treeBuild => ∃ nodes root, t = { s with nodes := nodes, root := root, treeValid := true, codesValid := false }
  | .codeAssign => ∃ ct, t = { s with ct := ct, codesValid := true }
  | .hdrWrite | .unpack => ∃ m p, t = { s with mem := m, outPtr := p }
  | .hdrRead => ∃ ct syms bytes p, t = { s with
      ct := ct, decSyms := syms, decPbytes := bytes, inPtr := p, treeValid := false, codesValid := true, hdrValid := true }
  | .packReset => t = { s with pwByte := 0#8, pwCur := 0#3, pwSyms := 0#32 }
  | .packSym _ _ | .packBlock _ => ∃ m p byte cur syms, t = { s with
      mem := m, outPtr := p, pwByte := byte, pwCur := cur, pwSyms := syms }
  | .packFlush => ∃ m p byte cur, t = { s with mem := m, outPtr := p, pwByte := byte, pwCur := cur }
  | .encode => (s.srcLen = 0#32 ∧ t = { s with outPtr := 0#32 }) ∨
      (s.srcLen ≠ 0#32 ∧ ∃ h nodes root ct m p byte cur syms, t = { s with
        hist := h, nodes := nodes, root := root, ct := ct, mem := m, outPtr := p, pwByte := byte, pwCur := cur, pwSyms := syms,
        treeValid := true, codesValid := true })
  | .decode => ∃ ct syms bytes q m p, t = { s with
      ct := ct, decSyms := syms, decPbytes := bytes, inPtr := q, mem := m, outPtr := p, treeValid := false,
      codesValid := true, hdrValid := true }

theorem writesOnly_of_unit_ok {i : Instr} {s t : State} (hi : isUnit i) (h : runOf i s = .ok t) : writesOnly i s t := by
  cases i with
  | encode => exact absurd rfl hi.1
  | decode => exact absurd rfl hi.2
  | nop | sreset | packReset =>
    cases h
    rfl
  | histClear =>
    cases h
    exact ⟨_, rfl⟩
  | histByte _ | histAccum | codeAssign =>
    obtain ⟨-, rfl⟩ := guarded_eq_ok.1 (atStage_eq_ok.1 h)
    exact ⟨_, rfl⟩
  | treeBuild =>
    obtain ⟨-, rfl⟩ := guarded_eq_ok.1 (atStage_eq_ok.1 h)
    exact ⟨_, _, rfl⟩
  | hdrWrite => exact ⟨_, _, (hdrWriteRule_ok (atStage_eq_ok.1 h)).2⟩
  | hdrRead =>
    obtain ⟨es, rfl⟩ := hdrReadRule_ok_effect (atStage_eq_ok.1 h)
    exact ⟨_, _, _, _, rfl⟩
  | packSym sym last =>
    obtain ⟨-, rfl⟩ := guarded_eq_ok.1 (atStage_eq_ok.1 h)
    exact ⟨_, _, _, _, _, (packOne_same s sym).trans (flushIf_same last _).writer⟩
  | packBlock last =>
    obtain ⟨-, rfl⟩ := guarded_eq_ok.1 (atStage_eq_ok.1 h)
    exact ⟨_, _, _, _, _, (foldl_packOne_same s _).trans (flushIf_same last _).writer⟩
  | packFlush =>
    obtain ⟨-, rfl⟩ := guarded_eq_ok.1 (atStage_eq_ok.1 h)
    exact ⟨_, _, _, _, flush_same s⟩
  | unpack =>
    obtain ⟨out, rfl⟩ := unpackRule_ok_effect (atStage_eq_ok.1 h)
    exact ⟨_, _, unpackEffect_eq s out⟩

/-- A command that succeeds writes its row's registers and arrays only; a composite writes those of its steps. -/
theorem writesOnly_of_runOf_ok {i : Instr} {s t : State} (h : runOf i s = .ok t) : writesOnly i s t := by
  have unit {i : Instr} {s t : State} {r : Except CmdError State} (hr : r = .ok t) (hi : isUnit i)
      (hrun : runOf i s = atStage (opcodeOf i) r) : writesOnly i s t :=
    writesOnly_of_unit_ok hi (hrun.trans (atStage_eq_ok.2 hr))
  by_cases he : i = .encode
  · subst he
    by_cases hlen : s.srcLen = 0#32
    · exact .inl ⟨hlen, Except.ok.inj (h.symm.trans (encodeRun_of_empty hlen))⟩
    · obtain ⟨-, s1, s2, s3, s4, s5, s6, h1, h2, h3, h4, h5, h6, h7⟩ := (encodeRun_eq_ok hlen).1 h
      obtain ⟨_, rfl⟩ := unit (i := .histClear) h1 (by simp [isUnit]) rfl
      obtain ⟨_, rfl⟩ := unit (i := .histAccum) h2 (by simp [isUnit]) rfl
      obtain ⟨_, _, rfl⟩ := unit (i := .treeBuild) h3 (by simp [isUnit]) rfl
      obtain ⟨_, rfl⟩ := unit (i := .codeAssign) h4 (by simp [isUnit]) rfl
      obtain ⟨_, _, rfl⟩ := unit (i := .hdrWrite) h5 (by simp [isUnit]) rfl
      obtain rfl := unit (i := .packReset) h6 (by simp [isUnit]) rfl
      obtain ⟨_, _, _, _, _, rfl⟩ := unit (i := .packBlock true) h7 (by simp [isUnit]) rfl
      exact .inr ⟨hlen, _, _, _, _, _, _, _, _, _, rfl⟩
  by_cases hd : i = .decode
  · subst hd
    obtain ⟨-, s1, h1, h2⟩ := decodeRun_eq_ok.1 h
    obtain ⟨_, _, _, _, rfl⟩ := unit (i := .hdrRead) h1 (by simp [isUnit]) rfl
    obtain ⟨_, _, rfl⟩ := unit (i := .unpack) h2 (by simp [isUnit]) rfl
    exact ⟨_, _, _, _, _, _, rfl⟩
  · exact writesOnly_of_unit_ok ⟨he, hd⟩ h

/-- Settles O23: an error changes the bookkeeping alone, and a success the fields of the command's row. -/
theorem commandsChangeOnlyWhatTheyWrite : Obligations.CommandsChangeOnlyWhatTheyWrite := by
  unfold Obligations.CommandsChangeOnlyWhatTheyWrite
  intro i s t h
  refine ⟨sameProgramming_of_exec h, ?_⟩
  rcases exec_cases h with ⟨e, -, rfl⟩ | ⟨u, hu, rfl⟩
  · exact ⟨fun _ _ => rfl, fun _ => ⟨rfl, rfl⟩, fun _ => rfl, fun _ _ => ⟨rfl, rfl, rfl⟩, fun _ => rfl,
      fun _ => ⟨rfl, rfl, rfl⟩, fun _ _ => rfl, fun _ _ => ⟨rfl, rfl, rfl⟩, fun _ => rfl⟩
  have hrow := writesOnly_of_runOf_ok hu
  simp only [sameArena, sameWriter, sameDecodeSide, sameFlags]
  cases i with
  | nop | sreset | packReset =>
    obtain rfl := hrow
    simp
  | histClear | histAccum | histByte _ | codeAssign =>
    obtain ⟨_, rfl⟩ := hrow
    simp
  | treeBuild | hdrWrite | unpack =>
    obtain ⟨_, _, rfl⟩ := hrow
    simp
  | hdrRead | packFlush =>
    obtain ⟨_, _, _, _, rfl⟩ := hrow
    simp
  | packSym sym last =>
    obtain ⟨_, _, _, _, _, rfl⟩ := hrow
    simp
  | packBlock last =>
    obtain ⟨_, _, _, _, _, rfl⟩ := hrow
    cases last <;> simp
  | encode =>
    obtain ⟨-, rfl⟩ | ⟨-, _, _, _, _, _, _, _, _, _, rfl⟩ := hrow <;> simp
  | decode =>
    obtain ⟨_, _, _, _, _, _, rfl⟩ := hrow
    simp

/-! ### The bytes a packing command writes (44_packer.md R170 to R172) -/

/-- From s to t the writer took n bits, whatever its partial byte held: it wrote the bytes they make whole from OUT_PTR on. -/
structure TookBits (s t : State) (n : Nat) : Prop where
  base  : t.dstBase = s.dstBase
  cur   : t.pwCur.toNat = (s.pwCur.toNat + n) % 8
  ptr   : t.outPtr.toNat = s.outPtr.toNat + (s.pwCur.toNat + n) / 8
  bytes : ∃ bytes : List Byte, bytes.length = (s.pwCur.toNat + n) / 8 ∧
    t.mem = writeBytes s.mem (s.dstBase.toNat + s.outPtr.toNat) bytes

theorem TookBits.zero (s : State) : TookBits s s 0 where
  base := rfl
  cur := (Nat.mod_eq_of_lt s.pwCur.isLt).symm
  ptr := by
    have hcur := s.pwCur.isLt
    omega
  bytes := by
    have hcur := s.pwCur.isLt
    exact ⟨[], by rw [List.length_nil]; omega, rfl⟩

theorem TookBits.trans {s t u : State} {n k : Nat} (h1 : TookBits s t n) (h2 : TookBits t u k) : TookBits s u (n + k) where
  base := h2.base.trans h1.base
  cur := by rw [h2.cur, h1.cur, Nat.mod_add_mod, Nat.add_assoc]
  ptr := by
    rw [h2.ptr, h1.ptr, h1.cur]
    omega
  bytes := by
    obtain ⟨xs, hxs, hm1⟩ := h1.bytes
    obtain ⟨ys, hys, hm2⟩ := h2.bytes
    refine ⟨xs ++ ys, ?_, ?_⟩
    · rw [List.length_append, hxs, hys, h1.cur]
      omega
    · rw [hm2, hm1, h1.base, h1.ptr, writeBytes_append, hxs, Nat.add_assoc]

theorem tookBits_putBit (s : State) (b : Bool) (ho : s.outPtr.toNat + (s.pwCur.toNat + 1) / 8 < 2 ^ 32) :
    TookBits s (putBit s b) 1 := by
  have hcur := s.pwCur.isLt
  unfold putBit
  dsimp only
  split
  · rename_i h8
    have hptr : (s.outPtr + 1#32).toNat = s.outPtr.toNat + 1 := by
      rw [BitVec.toNat_add, Nat.mod_eq_of_lt (by rw [h8] at ho; simpa using ho)]
      rfl
    exact ⟨rfl, by simp [h8], by simp [h8, hptr], [_], by simp [h8], rfl⟩
  · rename_i h8
    have hlt : s.pwCur.toNat + 1 < 8 := by omega
    refine ⟨rfl, ?_, ?_, [], ?_, rfl⟩
    · simp only [BitVec.toNat_add]
      rfl
    · simp only
      omega
    · rw [List.length_nil]
      omega

theorem tookBits_putCode (s : State) (c : Bits) (ho : s.outPtr.toNat + (s.pwCur.toNat + c.length) / 8 < 2 ^ 32) :
    TookBits s (putCode s c) c.length := by
  induction c generalizing s with
  | nil => exact .zero s
  | cons b rest ih =>
    rw [List.length_cons] at ho ⊢
    have hbit := tookBits_putBit s b (by omega)
    rw [Nat.add_comm]
    refine hbit.trans (ih (putBit s b) ?_)
    rw [hbit.ptr, hbit.cur]
    omega

theorem tookBits_packOne (s : State) (sym : Byte)
    (ho : s.outPtr.toNat + (s.pwCur.toNat + (tableGet s.ct sym).length) / 8 < 2 ^ 32) :
    TookBits s (packOne s sym) (tableGet s.ct sym).length :=
  have h := tookBits_putCode s (tableGet s.ct sym) ho
  ⟨h.base, h.cur, h.ptr, h.bytes⟩

theorem tookBits_foldl_packOne (s : State) (syms : List Byte)
    (ho : s.outPtr.toNat + (s.pwCur.toNat + (codeStream s.ct syms).length) / 8 < 2 ^ 32) :
    TookBits s (syms.foldl packOne s) (codeStream s.ct syms).length := by
  induction syms generalizing s with
  | nil => exact .zero s
  | cons b rest ih =>
    have hstream : (codeStream s.ct (b :: rest)).length = (tableGet s.ct b).length + (codeStream s.ct rest).length := by
      simp [codeStream]
    rw [hstream] at ho ⊢
    have hone := tookBits_packOne s b (by omega)
    have hct : (packOne s b).ct = s.ct := by rw [packOne_same s b]
    have hrest := ih (packOne s b) (by rw [hct, hone.ptr, hone.cur]; omega)
    rw [hct] at hrest
    exact hone.trans hrest

/-! ### The bytes of the DST window (20_memory.md R72) -/

/-- From s to t a usable DST window was written inside it, from some offset on, and no other byte. -/
def writesInDst (s t : State) : Prop :=
  dstUsable s ∧ ∃ o bytes, o + bytes.length ≤ s.dstCap.toNat ∧ t.mem = writeBytes s.mem (s.dstBase.toNat + o) bytes

theorem ptr_lt_of_packNeeds {s : State} {n : Nat} {last : Bool} (h : packNeeds s n last ≤ s.dstCap.toNat) :
    s.outPtr.toNat + (s.pwCur.toNat + n) / 8 < 2 ^ 32 := by
  have hcap := s.dstCap.isLt
  simp only [packNeeds, newBytes] at h
  omega

theorem writesInDst_of_tookBits {s t : State} {n : Nat} (last : Bool) (hd : dstUsable s) (h : TookBits s t n)
    (hfit : packNeeds s n last ≤ s.dstCap.toNat) : writesInDst s (flushIf last t) := by
  obtain ⟨bytes, hlen, hm⟩ := h.bytes
  simp only [packNeeds, newBytes] at hfit
  have whole (hflush : flushIf last t = t) : writesInDst s (flushIf last t) := by
    rw [hflush]
    exact ⟨hd, s.outPtr.toNat, bytes, by omega, hm⟩
  cases last with
  | false => exact whole rfl
  | true =>
    by_cases hcur : t.pwCur = 0#3
    · exact whole (by simp [flushIf, flush, hcur])
    · have hpartial : (s.pwCur.toNat + n) % 8 ≠ 0 := fun h0 => hcur (BitVec.eq_of_toNat_eq (h.cur.trans h0))
      have hflush : flushIf true t = emitByte t := by simp [flushIf, flush, hcur]
      rw [if_pos ⟨rfl, hpartial⟩] at hfit
      refine ⟨hd, s.outPtr.toNat, bytes ++ [t.pwByte], ?_, ?_⟩
      · rw [List.length_append, List.length_singleton]
        omega
      · rw [hflush, writeBytes_append, ← hm, emitByte_mem, h.base, h.ptr, hlen, Nat.add_assoc]
        rfl

/-- UNPACK writes no more symbols than DEC_SYMS says. -/
theorem length_unpackLoop_le {s : State} {nbits want lo hi fuel pos : Nat} {cand : Bits} {out out' : List Byte}
    (hw : out.length ≤ want) (h : unpackLoop s nbits want lo hi fuel pos cand out = .ok out') : out'.length ≤ want := by
  induction fuel generalizing pos cand out with
  | zero => cases h
  | succ fuel ih =>
    unfold unpackLoop at h
    dsimp only at h
    split at h
    · cases h
      exact hw
    split at h
    · cases h
    split at h
    · exact ih (by rw [List.length_append, List.length_singleton]; omega) h
    split at h
    · cases h
    · exact ih hw h

theorem unpackRule_ok_cases {s t : State} (h : unpackRule s = .ok t) :
    unpackCheck s = none ∧ ∃ out, unpackSymbols s = .ok out ∧ t = unpackEffect s out := by
  unfold unpackRule at h
  split at h
  · cases h
  · rename_i hcheck
    split at h
    · cases h
    · rename_i out hout
      cases h
      exact ⟨hcheck, out, hout, rfl⟩

/-- A unit command that uses the DST window and succeeds found it usable and wrote inside it. -/
theorem writesInDst_of_unit_ok {i : Instr} {s t : State} (hi : isUnit i) (huses : usesDst i = true)
    (h : runOf i s = .ok t) : writesInDst s t := by
  cases i with
  | encode => exact absurd rfl hi.1
  | decode => exact absurd rfl hi.2
  | hdrWrite =>
    obtain ⟨hcheck, -⟩ := guarded_eq_ok.1 (atStage_eq_ok.1 h)
    simp only [hdrWriteCheck, Option.or_eq_none_iff, dstCheck_eq_none] at hcheck
    obtain ⟨-, hd, -⟩ := hcheck
    obtain ⟨hfit, rfl⟩ := hdrWriteRule_ok (atStage_eq_ok.1 h)
    exact ⟨hd, 0, _, by rwa [length_headerBytes, Nat.zero_add], rfl⟩
  | packSym sym last =>
    obtain ⟨hcheck, rfl⟩ := guarded_eq_ok.1 (atStage_eq_ok.1 h)
    simp only [packSymCheck, Option.or_eq_none_iff, dstCheck_eq_none, dstFullCheck_eq_none] at hcheck
    obtain ⟨-, hd, -, -, hfit⟩ := hcheck
    exact writesInDst_of_tookBits last hd (tookBits_packOne s sym (ptr_lt_of_packNeeds hfit)) hfit
  | packBlock last =>
    obtain ⟨hcheck, rfl⟩ := guarded_eq_ok.1 (atStage_eq_ok.1 h)
    simp only [packBlockCheck, Option.or_eq_none_iff, windowsCheck_eq_none, dstFullCheck_eq_none, srcCodeBits_eq] at hcheck
    obtain ⟨-, ⟨-, hd, -⟩, -, -, hfit⟩ := hcheck
    exact writesInDst_of_tookBits last hd (tookBits_foldl_packOne s _ (ptr_lt_of_packNeeds hfit)) hfit
  | packFlush =>
    obtain ⟨hcheck, rfl⟩ := guarded_eq_ok.1 (atStage_eq_ok.1 h)
    simp only [packFlushCheck, Option.or_eq_none_iff, dstCheck_eq_none, dstFullCheck_eq_none] at hcheck
    obtain ⟨hd, hfit⟩ := hcheck
    exact writesInDst_of_tookBits true hd (.zero s) hfit
  | unpack =>
    obtain ⟨hcheck, out, hout, rfl⟩ := unpackRule_ok_cases (atStage_eq_ok.1 h)
    obtain ⟨-, ⟨-, hd, -⟩, -, hfit⟩ := (unpackCheck_eq_none s).1 hcheck
    have hlen : out.length ≤ s.decSyms.toNat := length_unpackLoop_le (Nat.zero_le _) hout
    exact ⟨hd, 0, out, by omega, by rw [unpackEffect_eq]; rfl⟩
  | nop | sreset | histClear | histAccum | histByte _ | treeBuild | codeAssign | hdrRead | packReset => cases huses

/-- A command that does not use the DST window leaves memory as it was. -/
theorem mem_of_writesOnly {i : Instr} {s t : State} (hi : usesDst i = false) (h : writesOnly i s t) : t.mem = s.mem := by
  cases i with
  | nop | sreset | packReset =>
    obtain rfl := h
    rfl
  | histClear | histAccum | histByte _ | codeAssign =>
    obtain ⟨_, rfl⟩ := h
    rfl
  | treeBuild =>
    obtain ⟨_, _, rfl⟩ := h
    rfl
  | hdrRead =>
    obtain ⟨_, _, _, _, rfl⟩ := h
    rfl
  | hdrWrite | packSym _ _ | packBlock _ | packFlush | unpack | encode | decode => cases hi

/-- From s to t no byte outside the DST window changed, and memory kept its canonical form. -/
def dstOnly (s t : State) : Prop :=
  (∀ a, ¬ (s.dstBase.toNat ≤ a ∧ a < s.dstBase.toNat + s.dstCap.toNat) → readByte t.mem a = readByte s.mem a) ∧
    (Memory.wf s.mem → Memory.wf t.mem)

theorem dstOnly_of_mem_eq {s t : State} (h : t.mem = s.mem) : dstOnly s t :=
  ⟨fun _ _ => by rw [h], fun hwf => h ▸ hwf⟩

theorem writesInDst.dstOnly {s t : State} (h : writesInDst s t) : dstOnly s t := by
  obtain ⟨⟨hspace, -⟩, o, bytes, hfit, hm⟩ := h
  rw [windowInSpace] at hspace
  refine ⟨fun a ha => ?_, fun hwf => ?_⟩
  · rw [hm, readByte_writeBytes_outside _ _ _ _ (by omega)]
  · rw [hm]
    exact wf_writeBytes hwf (by rw [Config.addrSpace]; omega)

theorem dstOnly.trans {s t u : State} (hprog : sameProgramming s t) (h1 : dstOnly s t) (h2 : dstOnly t u) : dstOnly s u := by
  obtain ⟨-, -, -, -, -, hbase, hcap, -⟩ := hprog
  obtain ⟨h2, hwf2⟩ := h2
  rw [hbase, hcap] at h2
  exact ⟨fun a ha => (h2 a ha).trans (h1.1 a ha), hwf2 ∘ h1.2⟩

theorem dstOnly_of_unit_ok {i : Instr} {s t : State} (hi : isUnit i) (h : runOf i s = .ok t) : dstOnly s t := by
  cases huses : usesDst i with
  | false => exact dstOnly_of_mem_eq (mem_of_writesOnly huses (writesOnly_of_unit_ok hi h))
  | true => exact (writesInDst_of_unit_ok hi huses h).dstOnly

/-- A relation that every unit command's success meets, and that chains, holds over the steps of a composite. -/
theorem rel_of_runSteps_ok {R : State → State → Prop} (hrefl : ∀ s, R s s)
    (htrans : ∀ s t u, sameProgramming s t → R s t → R t u → R s u)
    (hunit : ∀ i s t, isUnit i → runOf i s = .ok t → R s t) {steps : List (Byte × Rule)}
    (hsteps : ∀ p ∈ steps, isUnitStep p) {s t : State} (h : runSteps steps s = .ok t) : R s t := by
  induction steps generalizing s with
  | nil =>
    cases h
    exact hrefl _
  | cons p rest ih =>
    obtain ⟨u, hu, hrest⟩ := runSteps_cons_ok.1 h
    obtain ⟨⟨i, hi, hrun⟩, hsteps⟩ := List.forall_mem_cons.1 hsteps
    have hok : runOf i s = .ok u := (hrun s).trans (atStage_eq_ok.2 hu)
    exact htrans _ _ _ (sameProgramming_of_unit_ok hi hok) (hunit _ _ _ hi hok) (ih hsteps hrest)

/-- A relation that every unit command's success meets, that chains, and that holds when OUT_PTR alone is set, holds of every
command's success. -/
theorem rel_of_runOf_ok {R : State → State → Prop} (hptr : ∀ s : State, R s { s with outPtr := 0#32 }) (hrefl : ∀ s, R s s)
    (htrans : ∀ s t u, sameProgramming s t → R s t → R t u → R s u)
    (hunit : ∀ i s t, isUnit i → runOf i s = .ok t → R s t) {i : Instr} {s t : State} (h : runOf i s = .ok t) : R s t := by
  by_cases he : i = .encode
  · subst he
    simp only [runOf, encodeRun] at h
    split at h
    · cases h
      exact hptr s
    · exact rel_of_runSteps_ok hrefl htrans hunit encodeSteps_isUnitStep (runSteps_of_runComposite_ok h)
  by_cases hd : i = .decode
  · subst hd
    exact rel_of_runSteps_ok hrefl htrans hunit decodeSteps_isUnitStep (runSteps_of_runComposite_ok h)
  · exact hunit i s t ⟨he, hd⟩ h

theorem dstOnly_of_runOf_ok {i : Instr} {s t : State} (h : runOf i s = .ok t) : dstOnly s t :=
  rel_of_runOf_ok (fun _ => dstOnly_of_mem_eq rfl) (fun _ => dstOnly_of_mem_eq rfl) (fun _ _ _ => dstOnly.trans)
    (fun _ _ _ => dstOnly_of_unit_ok) h

/-- Settles O22: an error leaves memory; a success wrote inside the DST window, a composite's step by step. -/
theorem commandsWriteOnlyTheDstWindow : Obligations.CommandsWriteOnlyTheDstWindow := by
  unfold Obligations.CommandsWriteOnlyTheDstWindow
  intro i s t h
  rcases exec_cases h with ⟨e, -, rfl⟩ | ⟨u, hu, rfl⟩
  · exact ⟨fun _ => rfl, fun _ _ => rfl⟩
  · have hrow := writesOnly_of_runOf_ok hu
    obtain ⟨houtside, -⟩ := dstOnly_of_runOf_ok hu
    exact ⟨fun hi => (mem_of_writesOnly hi hrow : u.mem = s.mem), houtside⟩

end Sys2Proof.Machine
end

section
/-! Proofs about the histogram accumulator and the tree builder, second part (41_histogram.md R141, R142, 42_tree.md R153). -/

namespace Sys2Proof.Machine

/-! ### HIST_BYTE (R142) and HIST_ACCUM (R141) -/

/-- Settles O28: the check leaves room for one count more, which the rule adds to its symbol. -/
theorem histByteCountsOne : Obligations.HistByteCountsOne := by
  unfold Obligations.HistByteCountsOne
  intro sym s
  constructor
  · intro ht
    have hcheck : histByteCheck s = none := raiseIf_neg _ _ (ne_of_lt ht)
    have hrun : runOf (.histByte sym) s = .ok (withHist s (countSymbol s.hist sym)) :=
      atStage_eq_ok.2 (guarded_eq_ok.2 ⟨hcheck, rfl⟩)
    exact ⟨_, exec_of_ok hrun, rfl, fun b => countSymbol_get s.hist sym b ht, countSymbol_total s.hist sym ht⟩
  · intro ht
    have hcheck : histByteCheck s = some ⟨.countOverflow, 0#32⟩ := raiseIf_pos _ _ ht
    have hrun : runOf (.histByte sym) s = .error ⟨0x12#8, .countOverflow, 0#32⟩ :=
      atStage_eq_error.2 ⟨_, guarded_eq_error.2 hcheck, rfl⟩
    exact exec_of_error hrun

/-- Settles O29: the checks leave room for every byte of the window, and counting them one by one adds their occurrences. -/
theorem histAccumCountsTheWindow : Obligations.HistAccumCountsTheWindow := by
  unfold Obligations.HistAccumCountsTheWindow
  intro s hsrc
  have hwindow := (srcCheck_eq_none s).2 hsrc
  constructor
  · intro ht
    have hcheck : histAccumCheck s = none := Option.or_eq_none_iff.2 ⟨hwindow, raiseIf_neg _ _ (not_lt.2 ht)⟩
    have hrun : runOf .histAccum s = .ok (histAccumEffect s) := atStage_eq_ok.2 (guarded_eq_ok.2 ⟨hcheck, rfl⟩)
    obtain ⟨hcount, htotal⟩ := foldl_countSymbol (srcBytes s) s.hist ((length_srcBytes s).symm ▸ ht)
    rw [length_srcBytes] at htotal
    exact ⟨_, exec_of_ok hrun, rfl, hcount, htotal⟩
  · intro ht
    have hcheck : histAccumCheck s = some ⟨.countOverflow, 0#32⟩ := by
      rw [histAccumCheck, hwindow, Option.none_or]
      exact raiseIf_pos _ _ ht
    have hrun : runOf .histAccum s = .error ⟨0x11#8, .countOverflow, 0#32⟩ :=
      atStage_eq_error.2 ⟨_, guarded_eq_error.2 hcheck, rfl⟩
    exact exec_of_error hrun

/-! ### The arena of TREE_BUILD (R153) -/

/-- Every internal slot of the arena took two different slots that no node before it had taken. -/
def TakesActive (nodes : List Node) : Prop :=
  ∀ (k : Nat) (w : Word) (l r : BitVec 9), nodes[k]? = some (.internal w l r) →
    l ≠ r ∧ activeBefore nodes k l.toNat ∧ activeBefore nodes k r.toNat

theorem takesActive_leavesOf (h : Table Word) : TakesActive (leavesOf h) := by
  intro k w l r hk
  exact absurd ⟨w, l, r, hk, .inl rfl⟩ (not_childOf_leavesOf h l.toNat k)

theorem TakesActive.merge {nodes : List Node} {a b : Active} {others : List Active} (h : TakesActive nodes)
    (hshape : ArenaShape nodes (a :: b :: others)) : TakesActive (nodes ++ [mergeNode a b]) := by
  intro k w l r hk
  have hlt := (List.getElem?_eq_some_iff.1 hk).1
  rw [List.length_append, List.length_singleton, Nat.lt_succ_iff] at hlt
  rw [activeBefore_append _ _ hlt, activeBefore_append _ _ hlt]
  rcases hlt.eq_or_lt with rfl | hlt
  · rw [List.getElem?_concat_length] at hk
    injection hk with hk
    have hnode : Node.internal _ (BitVec.ofNat 9 a.index) (BitVec.ofNat 9 b.index) = .internal w l r := hk
    injection hnode with _ hl hr
    have hla : l.toNat = a.index := by
      rw [← hl]
      exact Nat.mod_eq_of_lt (hshape.index_lt_512 (by simp))
    have hrb : r.toNat = b.index := by
      rw [← hr]
      exact Nat.mod_eq_of_lt (hshape.index_lt_512 (by simp))
    have hne : a.index ≠ b.index := by
      have hnodup := hshape.nodup
      simp only [List.map_cons, List.nodup_cons, List.mem_cons, not_or] at hnodup
      exact hnodup.1.1
    rw [hla, hrb]
    refine ⟨fun hlr => hne ?_, hshape.activeBefore_of_mem (by simp), hshape.activeBefore_of_mem (by simp)⟩
    rw [← hla, ← hrb, hlr]
  · rw [List.getElem?_append_left hlt] at hk
    exact h k w l r hk

/-- The merge loop keeps the shape, whatever the weights, until one active node, the root, is left. -/
theorem mergeLoop_shape (fuel : Nat) (nodes : List Node) (active : List Active) (h : ArenaShape nodes active)
    (ht : TakesActive nodes) (hf : active.length ≤ fuel) (hp : 1 ≤ active.length) :
    ∃ a, (mergeLoop fuel nodes active).2 = a.index ∧ ArenaShape (mergeLoop fuel nodes active).1 [a] ∧
      TakesActive (mergeLoop fuel nodes active).1 := by
  induction fuel generalizing nodes active with
  | zero => omega
  | succ fuel ih =>
    rcases Nat.lt_or_ge active.length 2 with hlt | hge
    · obtain ⟨a, rfl⟩ := List.length_eq_one_iff.1 (by omega : active.length = 1)
      rw [mergeLoop_one]
      exact ⟨a, rfl, h, ht⟩
    · obtain ⟨a, b, rest, others, ha, hb, hl, he⟩ := mergeLoop_cases fuel nodes active hge
      obtain ⟨hperm, -, -⟩ := select_two_spec ha hb
      have hsel := h.perm hperm
      rw [he]
      exact ih _ _ (hsel.merge _) (ht.merge hsel) (by simp; omega) (by simp)

theorem buildTree_shape {h : Table Word} (hn : countedSymbols h ≠ []) :
    ∃ a, (buildTree h).2 = a.index ∧ ArenaShape (buildTree h).1 [a] ∧ TakesActive (buildTree h).1 :=
  mergeLoop_shape _ _ _ (mergeInv_leaves h).toArenaShape (takesActive_leavesOf h) (by simp)
    (by simpa [Nat.one_le_iff_ne_zero] using hn)

theorem TakesActive.parent_unique {nodes : List Node} (h : TakesActive nodes) {i j k : Nat} (hj : childOf nodes i j)
    (hk : childOf nodes i k) : j = k := by
  have taken {k : Nat} (hc : childOf nodes i k) : activeBefore nodes k i := by
    obtain ⟨w, l, r, hnode, rfl | rfl⟩ := hc
    · exact (h k w l r hnode).2.1
    · exact (h k w l r hnode).2.2
  obtain ⟨-, hjfree⟩ := taken hj
  obtain ⟨-, hkfree⟩ := taken hk
  rcases lt_trichotomy j k with hlt | heq | hlt
  · exact absurd hj (hkfree j hlt)
  · exact heq
  · exact absurd hk (hjfree k hlt)

theorem treeBuildRule_ok {s t : State} (h : treeBuildRule s = .ok t) :
    countedSymbols s.hist ≠ [] ∧ t = treeBuildEffect s := by
  obtain ⟨hcheck, rfl⟩ := guarded_eq_ok.1 h
  rw [treeBuildCheck, raiseIf_eq_none, leavesOf_eq_nil] at hcheck
  exact ⟨hcheck, rfl⟩

/-- Settles O31: the shape of the arena does not depend on the weights. No slot but the root's is left active, so each is a child;
each merge took active slots, so of one node only. -/
theorem treeNodesHaveOneParent : Obligations.TreeNodesHaveOneParent := by
  unfold Obligations.TreeNodesHaveOneParent
  intro s t h
  obtain ⟨u, hu, rfl⟩ := runsOk_iff.1 h
  obtain ⟨hn, rfl⟩ := treeBuildRule_ok (atStage_eq_ok.1 hu)
  obtain ⟨a, hroot, hshape, htakes⟩ := buildTree_shape hn
  have hfits : (BitVec.ofNat 9 (buildTree s.hist).2).toNat = a.index := by
    rw [hroot]
    exact Nat.mod_eq_of_lt (hshape.index_lt_512 (by simp))
  have hactive (i : Nat) : activeBefore (buildTree s.hist).1 (buildTree s.hist).1.length i ↔ i = a.index := by
    rw [← hshape.indices i, List.map_singleton, List.mem_singleton]
  simp only [completeOk_nodes, completeOk_root, treeBuildEffect, hfits]
  refine ⟨hshape.below, fun i hi hne => ?parent, fun k w l r hk => (htakes k w l r hk).1, fun k hc => ?root⟩
  case parent =>
    have hchild : ∃ k, childOf (buildTree s.hist).1 i k := by
      by_contra hnone
      exact hne ((hactive i).1 ⟨hi, fun k _ hc => hnone ⟨k, hc⟩⟩)
    obtain ⟨k, hk⟩ := hchild
    exact ⟨k, hk, fun j hj => htakes.parent_unique hj hk⟩
  case root =>
    obtain ⟨-, hfree⟩ := (hactive a.index).2 rfl
    exact hfree k (lt_length_of_childOf hc) hc

end Sys2Proof.Machine
end

section
/-! Proofs about the code generator, second part (43_codes.md R163, R164): the error of a code too long, and that the codes are
prefix-free and complete. -/

namespace Sys2Proof.Machine

/-! ### The first symbol of a table that has an error -/

/-- A scan of the rows of a table reports the error of the smallest symbol that has one. -/
theorem findSome?_tableRows {α : Type} {t : Table α} {f : Byte × α → Option CmdError} {sym : Byte} {e : CmdError}
    (h : f (sym, tableGet t sym) = some e) (hbefore : ∀ b : Byte, b.toNat < sym.toNat → f (b, tableGet t b) = none) :
    (tableRows t).findSome? f = some e := by
  have hlen : sym.toNat < (tableRows t).length := by simp [tableRows_eq, length_allSymbols, sym.isLt]
  refine findSome?_first sym.toNat hlen (by simpa [tableRows_eq] using h) fun k hk => ?_
  have hk256 : k < 256 := hk.trans sym.isLt
  have := hbefore (BitVec.ofNat 8 k) (by rw [BitVec.toNat_ofNat, Nat.mod_eq_of_lt hk256]; exact hk)
  simpa [tableRows_eq] using this

/-! ### A code too long (R163) -/

theorem tooLongCheck_first {ct : Table Bits} {sym : Byte} (h : 23 < (tableGet ct sym).length)
    (hbefore : ∀ b : Byte, b.toNat < sym.toNat → (tableGet ct b).length ≤ 23) :
    tooLongCheck ct = some ⟨.codeTooLong, BitVec.ofNat 32 ((tableGet ct sym).length * 256 + sym.toNat)⟩ := by
  have hinfo : (tableGet ct sym).length * 256 + sym.toNat = (tableGet ct sym).length <<< 8 ||| sym.toNat := by
    rw [← Nat.shiftLeft_add_eq_or_of_lt sym.isLt, Nat.shiftLeft_eq]
  rw [hinfo]
  exact findSome?_tableRows (sym := sym) (raiseIf_pos _ _ h) fun b hb => raiseIf_neg _ _ (not_lt.2 (hbefore b hb))

/-- A tree of one leaf has no path but the empty one. -/
theorem two_le_of_path {h : Table Word} (hn : countedSymbols h ≠ []) (ht : histTotal h ≤ Config.maxCount) {sym : Byte}
    {p : Bits} (hp : leadsToLeaf (buildTree h).1 (buildTree h).2 p sym) (hne : p ≠ []) : 2 ≤ (countedSymbols h).length := by
  rcases countedSymbols_one_or_more hn with ⟨a, ha⟩ | hge
  · have hlast := (buildTree_arenaTree hn ht).rootLast
    have hroot : (buildTree h).2 = 0 := by
      rw [length_buildTree h hn, ha] at hlast
      simpa using hlast.symm
    obtain ⟨bit, rest, rfl⟩ := List.exists_cons_of_ne_nil hne
    obtain ⟨j, hj, -⟩ := leadsToLeaf_cons.1 hp
    have := (buildTree_arenaTree hn ht).below _ _ hj.childOf
    omega
  · exact hge

theorem codeAssign_error {s : State} {e : CmdError} (ht : s.treeValid = true)
    (h : tooLongCheck (assignCodes s.nodes s.root.toNat) = some e) : codeAssignRule s = .error e := by
  refine guarded_eq_error.2 ?_
  rw [codeAssignCheck, (needTree_eq_none s).2 ht, Option.none_or, h]

/-- Settles O34: the path is the code the traversal stores, and no smaller symbol has one longer than 23 bits. -/
theorem longCodesRaiseCodeTooLong : Obligations.LongCodesRaiseCodeTooLong := by
  unfold Obligations.LongCodesRaiseCodeTooLong
  intro s sym path hinv hvalid hpath hlong hleast
  obtain ⟨hne, hnodes, hroot⟩ := hinv.tree hvalid
  have hn : 2 ≤ (countedSymbols s.hist).length := by
    rw [hnodes, hroot] at hpath
    exact two_le_of_path hne hinv.total hpath (List.ne_nil_of_length_pos (by omega))
  have hcode {b : Byte} {p : Bits} (hp : leadsToLeaf s.nodes s.root.toNat p b) :
      tableGet (assignCodes s.nodes s.root.toNat) b = p := by
    rw [hnodes, hroot] at hp ⊢
    exact assignCodes_of_path hn hinv.total hp
  have hshort (b : Byte) (hb : b.toNat < sym.toNat) : (tableGet (assignCodes s.nodes s.root.toNat) b).length ≤ 23 := by
    by_cases hcount : tableGet s.hist b = 0#32
    · rw [hnodes, hroot, assignCodes_of_no_count hn hinv.total hcount]
      exact Nat.zero_le _
    · obtain ⟨p, hp⟩ := (buildTree_exists_path hne hinv.total).2 hcount
      rw [← hnodes, ← hroot] at hp
      rw [hcode hp]
      by_contra hlt
      exact absurd (hleast b p hp (not_le.1 hlt)) (not_le.2 hb)
  have hcheck := tooLongCheck_first (sym := sym) (by rwa [hcode hpath]) hshort
  rw [hcode hpath] at hcheck
  exact exec_of_error (i := .codeAssign) (atStage_eq_error.2 ⟨_, codeAssign_error hvalid hcheck, rfl⟩)

/-! ### The table CODE_ASSIGN leaves (R164) -/

theorem codeAssignRule_ok {s t : State} (h : codeAssignRule s = .ok t) :
    s.treeValid = true ∧ (∀ sym, (tableGet (assignCodes s.nodes s.root.toNat) sym).length ≤ 23) ∧ t = codeAssignEffect s := by
  obtain ⟨hcheck, rfl⟩ := guarded_eq_ok.1 h
  obtain ⟨hflag, hlen⟩ := Option.or_eq_none_iff.1 hcheck
  exact ⟨(needTree_eq_none s).1 hflag, (tooLongCheck_eq_none _).1 hlen, rfl⟩

/-- In a state that keeps the invariant CODE_ASSIGN leaves the codes of the tree of the histogram. -/
theorem codeAssign_table {s t : State} (hinv : Inv s) (h : codeAssignRule s = .ok t) :
    countedSymbols s.hist ≠ [] ∧ t.ct = assignCodes (buildTree s.hist).1 (buildTree s.hist).2 ∧
      ∀ sym, (tableGet t.ct sym).length ≤ 23 := by
  obtain ⟨hvalid, hlen, rfl⟩ := codeAssignRule_ok h
  obtain ⟨hne, hnodes, hroot⟩ := hinv.tree hvalid
  exact ⟨hne, by rw [← hnodes, ← hroot]; rfl, hlen⟩

/-- Settles O35: the table holds the codes of the tree of the histogram, each the path to its leaf. -/
theorem assignedCodesArePrefixFree : Obligations.AssignedCodesArePrefixFree := by
  unfold Obligations.AssignedCodesArePrefixFree
  intro s t hinv h
  obtain ⟨u, hu, rfl⟩ := runsOk_iff.1 h
  obtain ⟨hne, hct, hlen⟩ := codeAssign_table hinv (atStage_eq_ok.1 hu)
  rw [completeOk_ct]
  refine ⟨hct ▸ prefixFree_assignCodes hne hinv.total, fun sym => ⟨?_, hlen sym⟩⟩
  rw [hct]
  exact assignCodes_ne_nil_iff hne hinv.total

/-! ### Kraft's equality (R164) -/

/-- The sum of Kraft's equality over the codes that begin with q, in units of 2^(-23). -/
def kraftSum (ct : Table Bits) (q : Bits) : Nat :=
  (((codedSymbols ct).filter fun sym => q.isPrefixOf (tableGet ct sym)).map fun sym =>
    2 ^ (23 - (tableGet ct sym).length)).sum

theorem kraftSum_nil (ct : Table Bits) :
    kraftSum ct [] = ((codedSymbols ct).map fun sym => 2 ^ (23 - (tableGet ct sym).length)).sum := by
  simp [kraftSum]

/-- A sum over the elements of one kind or the other, never both. -/
theorem sum_filter_of_split {α : Type} (l : List α) (f : α → Nat) {p p0 p1 : α → Bool}
    (hsplit : ∀ x ∈ l, p x = (p0 x || p1 x)) (hapart : ∀ x ∈ l, (p0 x && p1 x) = false) :
    ((l.filter p).map f).sum = ((l.filter p0).map f).sum + ((l.filter p1).map f).sum := by
  induction l with
  | nil => rfl
  | cons x rest ih =>
    have hrest := ih (fun y hy => hsplit y (by simp [hy])) (fun y hy => hapart y (by simp [hy]))
    have hx := hsplit x (by simp)
    have hx' := hapart x (by simp)
    cases h0 : p0 x <;> cases h1 : p1 x <;> simp_all <;> omega

/-- The codes that go on from q go on with a 0 or with a 1. -/
theorem kraftSum_split {ct : Table Bits} {q : Bits} (h : ∀ sym, tableGet ct sym ≠ [] → tableGet ct sym ≠ q) :
    kraftSum ct q = kraftSum ct (q ++ [false]) + kraftSum ct (q ++ [true]) := by
  have next (sym : Byte) (hsym : sym ∈ codedSymbols ct) : q.isPrefixOf (tableGet ct sym) =
      ((q ++ [false]).isPrefixOf (tableGet ct sym) || (q ++ [true]).isPrefixOf (tableGet ct sym)) := by
    have hne := h sym ((mem_codedSymbols ct sym).1 hsym)
    rw [Bool.eq_iff_iff, Bool.or_eq_true, List.isPrefixOf_iff_prefix, List.isPrefixOf_iff_prefix, List.isPrefixOf_iff_prefix]
    constructor
    · rintro ⟨rest, hrest⟩
      cases rest with
      | nil => exact absurd (by simpa using hrest.symm) hne
      | cons bit rest =>
        have hbit : q ++ [bit] <+: tableGet ct sym := ⟨rest, by rw [← hrest, ← List.append_cons]⟩
        cases bit
        · exact .inl hbit
        · exact .inr hbit
    · rintro (hp | hp) <;> exact (List.prefix_append q _).trans hp
  refine sum_filter_of_split _ _ next fun sym _ => ?_
  rw [← Bool.not_eq_true, Bool.and_eq_true, List.isPrefixOf_iff_prefix, List.isPrefixOf_iff_prefix]
  rintro ⟨h0, h1⟩
  have heq := (List.prefix_of_prefix_length_le h0 h1 (by simp)).eq_of_length (by simp)
  simp at heq

theorem kraftSum_of_only {ct : Table Bits} {sym : Byte} (hsym : tableGet ct sym ≠ [])
    (honly : ∀ b, tableGet ct b ≠ [] → tableGet ct sym <+: tableGet ct b → b = sym) :
    kraftSum ct (tableGet ct sym) = 2 ^ (23 - (tableGet ct sym).length) := by
  have hnodup : ((codedSymbols ct).filter fun b => (tableGet ct sym).isPrefixOf (tableGet ct b)).Nodup :=
    (nodup_allSymbols.filter _).filter _
  have hperm : ((codedSymbols ct).filter fun b => (tableGet ct sym).isPrefixOf (tableGet ct b)).Perm [sym] := by
    refine (List.perm_ext_iff_of_nodup hnodup (List.nodup_singleton sym)).2 fun b => ?_
    rw [List.mem_filter, mem_codedSymbols, List.isPrefixOf_iff_prefix, List.mem_singleton]
    refine ⟨fun ⟨hb, hp⟩ => honly b hb hp, ?_⟩
    rintro rfl
    exact ⟨hsym, List.prefix_refl _⟩
  rw [kraftSum, (hperm.map _).sum_eq]
  simp

theorem ArenaTree.follow_le_root {nodes : List Node} {root i : Nat} (h : ArenaTree nodes root) {q : Bits}
    (hq : follow nodes root q = some i) : i ≤ root := by
  induction q using List.reverseRecOn generalizing i with
  | nil =>
    cases hq
    exact Nat.le_refl _
  | append_singleton q bit ih =>
    obtain ⟨j, hj, hc⟩ := follow_concat_eq_some.1 hq
    have := h.below _ _ hc.childOf
    have := ih hj
    omega

/-- Below each slot of the tree the codes share out what the path to the slot leaves: at a leaf there is the one code, at an
internal slot what its two children share. -/
theorem kraftSum_of_path {h : Table Word} (hn : 2 ≤ (countedSymbols h).length) (ht : histTotal h ≤ Config.maxCount)
    (hlen : ∀ sym, (tableGet (assignCodes (buildTree h).1 (buildTree h).2) sym).length ≤ 23) (i : Nat) {q : Bits}
    (hq : follow (buildTree h).1 (buildTree h).2 q = some i) :
    q.length ≤ 23 ∧ kraftSum (assignCodes (buildTree h).1 (buildTree h).2) q = 2 ^ (23 - q.length) := by
  have hne : countedSymbols h ≠ [] := List.ne_nil_of_length_pos (by omega)
  have htree := buildTree_arenaTree hne ht
  induction i using Nat.strong_induction_on generalizing q with
  | _ i ih =>
    have hi : i < (buildTree h).1.length := by
      have := htree.follow_le_root hq
      have := htree.rootLast
      omega
    match hnode : (buildTree h).1[i] with
    | .leaf sym w =>
      have hleaf : leadsToLeaf (buildTree h).1 (buildTree h).2 q sym :=
        ⟨i, w, hq, hnode ▸ List.getElem?_eq_getElem hi⟩
      have hcode := assignCodes_of_path hn ht hleaf
      have hcoded {b : Byte} : tableGet (assignCodes (buildTree h).1 (buildTree h).2) b ≠ [] ↔ tableGet h b ≠ 0#32 :=
        assignCodes_ne_nil_iff hne ht
      have hsym := (buildTree_exists_path hne ht).1 ⟨q, hleaf⟩
      have hsum := kraftSum_of_only (hcoded.2 hsym) fun b hb hp =>
        (leadsToLeaf_of_prefix (hcode.symm ▸ hleaf) (leadsToLeaf_assignCodes hn ht (hcoded.1 hb)) hp).symm
      rw [hcode] at hsum
      exact ⟨hcode ▸ hlen sym, hsum⟩
    | .internal w l r =>
      have hnode : (buildTree h).1[i]? = some (.internal w l r) := hnode ▸ List.getElem?_eq_getElem hi
      have child (bit : Bool) := ih _ (htree.below _ _ (childOn_of_internal hnode bit).childOf)
        (follow_concat_eq_some.2 ⟨i, hq, childOn_of_internal hnode bit⟩)
      obtain ⟨hl, hsuml⟩ := child false
      obtain ⟨-, hsumr⟩ := child true
      rw [List.length_append, List.length_singleton] at hl hsuml hsumr
      have hno (sym : Byte) (hsym : tableGet (assignCodes (buildTree h).1 (buildTree h).2) sym ≠ []) :
          tableGet (assignCodes (buildTree h).1 (buildTree h).2) sym ≠ q := by
        rintro rfl
        obtain ⟨k, w', hk, hleaf⟩ := leadsToLeaf_assignCodes hn ht ((assignCodes_ne_nil_iff hne ht).1 hsym)
        cases hk.symm.trans hq
        cases hleaf.symm.trans hnode
      rw [kraftSum_split hno, hsuml, hsumr, ← two_mul, ← pow_succ', show 23 - (q.length + 1) + 1 = 23 - q.length by omega]
      exact ⟨by omega, rfl⟩

/-- Settles O36: the sum over all codes is the sum below the root, where no bit is spent. -/
theorem assignedCodesAreComplete : Obligations.AssignedCodesAreComplete := by
  unfold Obligations.AssignedCodesAreComplete
  intro s t hinv h hn
  obtain ⟨u, hu, rfl⟩ := runsOk_iff.1 h
  obtain ⟨-, hct, hlen⟩ := codeAssign_table hinv (atStage_eq_ok.1 hu)
  rw [hct] at hlen
  obtain ⟨-, hsum⟩ := kraftSum_of_path hn hinv.total hlen (buildTree s.hist).2 (q := []) rfl
  rwa [completeOk_ct, hct, ← kraftSum_nil]

end Sys2Proof.Machine
end

section
/-! Proofs about the container's header (46_container.md R190 to R195): HDR_WRITE, its bytes and its errors; HDR_READ, what it takes
and what it rejects; and that reading undoes writing. -/

namespace Sys2Proof.Machine

/-! ### The checks of HDR_WRITE (R190) -/

theorem noCodeInHist_eq_none (s : State) :
    noCodeInHist s = none ↔ ∀ sym, tableGet s.hist sym ≠ 0#32 → tableGet s.ct sym ≠ [] := by
  simp [noCodeInHist, tableRows_eq]

theorem noCodeInHist_first {s : State} {sym : Byte} (hcount : tableGet s.hist sym ≠ 0#32) (hcode : tableGet s.ct sym = [])
    (hbefore : ∀ b : Byte, b.toNat < sym.toNat → tableGet s.hist b ≠ 0#32 → tableGet s.ct b ≠ []) :
    noCodeInHist s = some ⟨.noCode, BitVec.ofNat 32 sym.toNat⟩ := by
  rw [BitVec.ofNat_toNat]
  exact findSome?_tableRows (sym := sym) (raiseIf_pos _ _ ⟨hcount, hcode⟩) fun b hb =>
    raiseIf_neg _ _ fun h => hbefore b hb h.1 h.2

theorem hdrWriteCheck_eq_none (s : State) :
    hdrWriteCheck s = none ↔ s.codesValid = true ∧ dstUsable s ∧
      (∀ sym, tableGet s.hist sym ≠ 0#32 → tableGet s.ct sym ≠ []) ∧ (histCodeBits s + 7) / 8 ≤ 4294967295 ∧
      14 + 5 * (codedSymbols s.ct).length ≤ s.dstCap.toNat := by
  simp only [hdrWriteCheck, Option.or_eq_none_iff, needCodes_eq_none, dstCheck_eq_none, noCodeInHist_eq_none, raiseIf_eq_none,
    dstFullCheck_eq_none, length_tableEntries, hdrLen, ceil8, Config.maxCount, gt_iff_lt, not_lt]

/-- A value that 32 bits hold is its own saturation (00_scope.md R12). -/
theorem sat32_of_le {n : Nat} (h : n ≤ 4294967295) : sat32 n = BitVec.ofNat 32 n := by
  rw [sat32, Config.maxCount, Nat.min_eq_left h]

/-- A unit command whose rule raises an error fails with it, at its own stage. -/
theorem fails_of_rule_error {i : Instr} {s : State} {r : Except CmdError State} (code : ErrCode) {info : Word}
    (hrun : runOf i s = atStage (opcodeOf i) r) (h : r = .error ⟨code, info⟩) :
    fails i s (opcodeOf i) (errByte code) info :=
  exec_of_error (hrun.trans (atStage_eq_error.2 ⟨_, h, rfl⟩))

/-- Settles O39: with the flag and the window checked, the three checks of HDR_WRITE report in their order. -/
theorem hdrWriteErrors : Obligations.HdrWriteErrors := by
  unfold Obligations.HdrWriteErrors
  intro s hvalid hdst
  have hcodes := (needCodes_eq_none s).2 hvalid
  have hwindow := (dstCheck_eq_none s).2 hdst
  have rejects (code : ErrCode) {info : Word} (h : hdrWriteCheck s = some ⟨code, info⟩) :
      fails .hdrWrite s 0x30#8 (errByte code) info := fails_of_rule_error code rfl (guarded_eq_error.2 h)
  refine ⟨fun sym hcount hcode hbefore => rejects .noCode ?noCode, fun hcoded => ⟨fun hwide => rejects .countOverflow ?overflow,
    fun hfits hfull => rejects .dstFull ?full⟩⟩
  case noCode => simp [hdrWriteCheck, hcodes, hwindow, noCodeInHist_first hcount hcode hbefore]
  case overflow =>
    have hover : ceil8 (histCodeBits s) > Config.maxCount := hwide
    simp [hdrWriteCheck, hcodes, hwindow, (noCodeInHist_eq_none s).2 hcoded, raiseIf_pos _ _ hover]
  case full =>
    have hle := codedSymbols_length_le s.ct
    have hover : ¬ ceil8 (histCodeBits s) > Config.maxCount := not_lt.2 hfits
    rw [hdrWriteCheck, hcodes, hwindow, (noCodeInHist_eq_none s).2 hcoded, raiseIf_neg _ _ hover, length_tableEntries, hdrLen,
      dstFullCheck_of_lt hfull, sat32_of_le (by omega)]
    rfl

/-! ### The bytes of HDR_WRITE (R190) -/

theorem dstWord_of_memHolds {s : State} {o n : Nat} (hn : n < 2 ^ 32)
    (h : memHolds s.mem (s.dstBase.toNat + o) (bytesOf32 (BitVec.ofNat 32 n))) : dstWord s o = n :=
  srcWord_of_memHolds (s := { s with srcBase := s.dstBase }) hn h

/-- The fields of a header that stands at DST offset 0. -/
theorem dstFields_of_headerBytes {t : State} {ct : Table Bits} {symbolCount payload : Nat} (hsyms : symbolCount < 2 ^ 32)
    (hpay : payload < 2 ^ 32) (h : memHolds t.mem t.dstBase.toNat (headerBytes ct symbolCount payload)) :
    dstByte t 0 = 0x1F#8 ∧ dstByte t 1 = 0xA0#8 ∧ dstWord t 2 = (codedSymbols ct).length ∧
    (∀ i, ∀ h : i < (codedSymbols ct).length, dstByte t (6 + 5 * i) = (codedSymbols ct)[i] ∧
      dstWord t (7 + 5 * i) = (codeWord (tableGet ct (codedSymbols ct)[i])).toNat) ∧
    dstWord t (6 + 5 * (codedSymbols ct).length) = symbolCount ∧
    dstWord t (10 + 5 * (codedSymbols ct).length) = payload := by
  have hle := codedSymbols_length_le ct
  obtain ⟨hsig0, hsig1, hsize, hentries, hcount, hbytes⟩ := memHolds_headerBytes h
  rw [length_tableEntries] at hsize hcount hbytes
  refine ⟨hsig0, hsig1, dstWord_of_memHolds (by omega) hsize, fun i hi => ?entry, dstWord_of_memHolds hsyms hcount,
    dstWord_of_memHolds hpay hbytes⟩
  obtain ⟨hsym, hword⟩ := memHolds_cons.1 (memHolds_entry hentries i (by rwa [length_tableEntries]))
  simp only [tableEntries_eq, List.getElem_map] at hsym hword
  rw [dstByte, ← Nat.add_assoc]
  refine ⟨hsym, dstWord_of_memHolds (codeWord _).isLt ?_⟩
  rw [BitVec.ofNat_toNat, BitVec.setWidth_eq]
  rwa [show t.dstBase.toNat + (7 + 5 * i) = t.dstBase.toNat + 6 + 5 * i + 1 by omega]

/-- The state HDR_WRITE leaves: the header in memory and OUT_PTR behind it. -/
def withHeaderWritten (s : State) : State :=
  { s with
    mem := writeBytes s.mem s.dstBase.toNat (headerBytes s.ct (histTotal s.hist) (ceil8 (histCodeBits s))),
    outPtr := BitVec.ofNat 32 (hdrLen (codedSymbols s.ct).length) }

theorem hdrWriteRule_of_check {s : State} (h : hdrWriteCheck s = none) : hdrWriteRule s = .ok (withHeaderWritten s) := by
  have hrule : hdrWriteRule s = .ok (hdrWriteEffect s) := guarded_eq_ok.2 ⟨h, rfl⟩
  obtain ⟨-, heffect⟩ := hdrWriteRule_ok hrule
  rw [hrule, heffect]
  rfl

theorem memHolds_withHeaderWritten (s : State) : memHolds (withHeaderWritten s).mem (withHeaderWritten s).dstBase.toNat
    (headerBytes s.ct (histTotal s.hist) (ceil8 (histCodeBits s))) :=
  fun k hk => readByte_writeBytes_inside _ _ _ k hk

theorem sameBytesOutside_withHeaderWritten (s : State) :
    sameBytesOutside s (withHeaderWritten s) 0 (14 + 5 * (codedSymbols s.ct).length) := by
  have h := sameBytesOutside_of_mem_eq_writeBytes (s := s) (t := withHeaderWritten s) (o := 0) rfl
  rwa [length_headerBytes] at h

/-- Settles O38: the checks pass, and the effect writes the header's bytes, whose fields are read off memory. -/
theorem hdrWriteWritesTheHeader : Obligations.HdrWriteWritesTheHeader := by
  unfold Obligations.HdrWriteWritesTheHeader
  intro s hvalid hdst hcoded hbits htotal hfit
  have hrule := hdrWriteRule_of_check ((hdrWriteCheck_eq_none s).2 ⟨hvalid, hdst, hcoded, hbits, hfit⟩)
  have hcap := s.dstCap.isLt
  have hbytes : ceil8 (histCodeBits s) < 2 ^ 32 := Nat.lt_succ_of_le hbits
  obtain ⟨hsig0, hsig1, hsize, hentries, hcount, hpayload⟩ :=
    dstFields_of_headerBytes (t := completeOk (withHeaderWritten s)) (by omega) hbytes (memHolds_withHeaderWritten s)
  exact ⟨_, exec_of_ok (i := .hdrWrite) (atStage_eq_ok.2 hrule), rfl, Nat.mod_eq_of_lt (lt_of_le_of_lt hfit hcap), hsig0, hsig1,
    hsize, hentries, hcount, hpayload, sameBytesOutside_withHeaderWritten s⟩

/-! ### HDR_READ (R191 to R193) -/

/-- Settles O40: the header passes the checks, and entries with distinct symbols make the table that holds them. -/
theorem hdrReadAcceptsAGoodHeader : Obligations.HdrReadAcceptsAGoodHeader := by
  unfold Obligations.HdrReadAcceptsAGoodHeader
  intro s entries symbolCount payload hsrc h
  have hrun : runOf .hdrRead s = .ok _ := atStage_eq_ok.2 (hdrReadRule_of_header hsrc h)
  obtain ⟨⟨-, -, -, -, -, -, hpair, -⟩, -⟩ := h
  exact ⟨_, exec_of_ok hrun, rfl, tableIs_tableOfEntries (hpair.imp And.left)⟩

theorem hdrTableSize_eq (s : State) : hdrTableSize s = srcWord s 2 := get32_toNat s 2

theorem hdrReadCheck_eq_none (s : State) :
    hdrReadCheck s = none ↔ srcUsable s ∧ (srcByte s 0 = 0x1F#8 ∧ srcByte s 1 = 0xA0#8) ∧
      (1 ≤ srcWord s 2 ∧ srcWord s 2 ≤ 256) ∧ 14 + 5 * srcWord s 2 ≤ s.srcLen.toNat := by
  simp only [hdrReadCheck, Option.or_eq_none_iff, srcCheck_eq_none, truncatedCheck_eq_none, raiseIf_eq_none]
  simp only [hdrTableSize_eq, hdrLen, Config.tableMax, Config.signature0, Config.signature1, not_or, ne_eq, not_not, gt_iff_lt,
    not_lt, ← Nat.one_le_iff_ne_zero]
  constructor
  · tauto
  · rintro ⟨hsrc, hsig, hn, hlen⟩
    exact ⟨hsrc, by omega, hsig, by omega, hn, hlen⟩

theorem hdrReadRule_of_check_error {s : State} {e : CmdError} (h : hdrReadCheck s = some e) : hdrReadRule s = .error e := by
  simp only [hdrReadRule, h]

/-- A header whose entries are all good passes the checks before the entries, and its entries are read in order. -/
theorem hdrRead_of_fields {s : State} {entries : List (Byte × Bits)} {symbolCount payload : Nat} (hsrc : srcUsable s)
    (h : srcFields s entries symbolCount payload) (hfit : 14 + 5 * entries.length ≤ s.srcLen.toNat) :
    hdrReadCheck s = none ∧ readEntries s (hdrTableSize s) 0 [] = .ok entries ∧
      hdrTableSize s = entries.length ∧ (hdrPayloadBytes s).toNat = payload := by
  obtain ⟨hsig0, hsig1, hsize, hpos, hle, hentries, hpair, -, hpay⟩ := h
  have hn : hdrTableSize s = entries.length := (hdrTableSize_eq s).trans hsize
  refine ⟨(hdrReadCheck_eq_none s).2 ⟨hsrc, ⟨hsig0, hsig1⟩, hsize ▸ ⟨hpos, hle⟩, hsize ▸ hfit⟩, ?entries, hn, ?payload⟩
  case entries =>
    rw [hn]
    refine readEntries_ok entries [] 0 0 (fun k hk => ?_) hpair
    obtain ⟨hsym, hlen, hcode, h1, h23⟩ := hentries k hk
    rw [Nat.zero_add, get32_eq_ofNat, hlen]
    exact ⟨hsym, hcode, h1, h23⟩
  case payload => rw [hdrPayloadBytes, hn, get32_toNat, hpay]

/-- Settles O41: each clause passes the checks before its own, which fails. -/
theorem hdrReadRejectsABadHeader : Obligations.HdrReadRejectsABadHeader := by
  unfold Obligations.HdrReadRejectsABadHeader
  intro s hsrc n good
  have hwindow := (srcCheck_eq_none s).2 hsrc
  have rejects (code : ErrCode) {info : Word} (h : hdrReadCheck s = some ⟨code, info⟩) :
      fails .hdrRead s 0x31#8 (errByte code) info := fails_of_rule_error code rfl (hdrReadRule_of_check_error h)
  have long {k : Nat} (h : k ≤ s.srcLen.toNat) : truncatedCheck s k = none := (truncatedCheck_eq_none s k).2 h
  have signed (h : good) (info : Word) : raiseIf (srcByte s 0 ≠ Config.signature0 ∨ srcByte s 1 ≠ Config.signature1)
      .badSignature info = none := raiseIf_neg _ _ (by rw [not_or, not_not, not_not]; exact h)
  refine ⟨fun h2 => rejects .truncated ?short2, fun h2 hbad => rejects .badSignature ?unsigned,
    fun h2 hgood h6 => rejects .truncated ?short6, fun h6 hgood hn => rejects .badTableSize ?size,
    fun h6 hgood hn hn256 hshort => rejects .truncated ?shortTable,
    fun entries symbolCount payload need hfields hfit hneed hshort => fails_of_rule_error .truncated rfl ?shortPayload⟩
  case short2 => simp [hdrReadCheck, hwindow, truncatedCheck_of_lt h2, sat32_of_le]
  case unsigned =>
    have hinfo : (srcByte s 0).toNat * 256 + (srcByte s 1).toNat = (srcByte s 0).toNat <<< 8 ||| (srcByte s 1).toNat := by
      rw [← Nat.shiftLeft_add_eq_or_of_lt (srcByte s 1).isLt, Nat.shiftLeft_eq]
    have hunsigned : srcByte s 0 ≠ Config.signature0 ∨ srcByte s 1 ≠ Config.signature1 := not_and_or.1 hbad
    rw [hdrReadCheck, hwindow, long h2, raiseIf_pos _ _ hunsigned, hinfo]
    rfl
  case short6 =>
    rw [hdrReadCheck, hwindow, long h2, signed hgood, truncatedCheck_of_lt h6]
    rfl
  case size =>
    have hsize : hdrTableSize s = 0 ∨ hdrTableSize s > Config.tableMax := by rwa [hdrTableSize_eq]
    rw [hdrReadCheck, hwindow, long (by omega), signed hgood, long h6, raiseIf_pos _ _ hsize, get32_eq_ofNat]
    rfl
  case shortTable =>
    have hsize : ¬ (hdrTableSize s = 0 ∨ hdrTableSize s > Config.tableMax) := by
      rw [hdrTableSize_eq, Config.tableMax]
      omega
    rw [hdrReadCheck, hwindow, long (by omega), signed hgood, long h6, raiseIf_neg _ _ hsize, hdrTableSize_eq, hdrLen,
      truncatedCheck_of_lt hshort, sat32_of_le (by omega)]
    rfl
  case shortPayload =>
    obtain ⟨hcheck, hread, hn, hpay⟩ := hdrRead_of_fields hsrc hfields hfit
    subst hneed
    rw [hn] at hread
    simp only [hdrReadRule, hcheck, hread, hn, hpay, hdrLen, truncatedCheck_of_lt hshort]
    rfl

/-- Settles O42: the entries before it are read, and the entry's own check reports the first of its faults. -/
theorem hdrReadRejectsTheFirstBadEntry : Obligations.HdrReadRejectsTheFirstBadEntry := by
  unfold Obligations.HdrReadRejectsTheFirstBadEntry
  intro s before sym w hsrc hsig0 hsig1 hpos hle hlen hlt hgood hpair hsym hword
  have hw : get32 s (7 + 5 * before.length) = w := by rw [get32_eq_ofNat, hword, BitVec.ofNat_toNat, BitVec.setWidth_eq]
  have rejects (code : ErrCode) (h : entryCheck before.length sym w before = some ⟨code, BitVec.ofNat 32 before.length⟩) :
      fails .hdrRead s 0x31#8 (errByte code) (BitVec.ofNat 32 before.length) := by
    have hcheck := (hdrReadCheck_eq_none s).2 ⟨hsrc, ⟨hsig0, hsig1⟩, ⟨hpos, hle⟩, hlen⟩
    have hread : readEntries s (hdrTableSize s) 0 [] = .error ⟨code, BitVec.ofNat 32 before.length⟩ := by
      rw [hdrTableSize_eq, show srcWord s 2 = before.length + (srcWord s 2 - before.length - 1 + 1) by omega]
      refine readEntries_error before [] _ 0 _ (fun k hk => ?_) hpair ?_
      · obtain ⟨hk1, hk2, hk3, hk4⟩ := hgood k hk
        rw [Nat.zero_add, get32_eq_ofNat, hk3]
        exact ⟨hk1, hk2, hk4⟩
      · rw [Nat.zero_add, hsym, hw]
        exact h
    exact fails_of_rule_error code rfl (by simp only [hdrReadRule, hcheck, hread])
  have lenOk (h1 : 1 ≤ wordLen w) (h23 : wordLen w ≤ 23) : ¬ (wordLen w = 0 ∨ wordLen w > Config.maxCodeLen) := by
    rw [Config.maxCodeLen]
    omega
  refine ⟨fun hbad => rejects .badCodeLen ?length, fun h1 h23 hdup => rejects .dupSymbol ?repeated,
    fun h1 h23 hnew hclash => rejects .notPrefixFree ?clash⟩
  case length =>
    have hbad : wordLen w = 0 ∨ wordLen w > Config.maxCodeLen := hbad
    simp [entryCheck, raiseIf_pos _ _ hbad]
  case repeated =>
    have hdup : (before.any fun e => e.1 == sym) = true := by simpa using hdup
    rw [entryCheck, raiseIf_neg _ _ (lenOk h1 h23), raiseIf_pos _ _ hdup]
    rfl
  case clash =>
    have hnew : ¬ (before.any fun e => e.1 == sym) = true := by
      rw [List.any_eq_true]
      rintro ⟨e, he, hes⟩
      exact hnew e he (beq_iff_eq.1 hes)
    have hclash : (before.any fun e => prefixClash (wordCode w) e.2) = true := by
      simpa [prefixClash, or_comm] using hclash
    rw [entryCheck, raiseIf_neg _ _ (lenOk h1 h23), raiseIf_neg _ _ hnew, raiseIf_pos _ _ hclash]
    rfl

/-! ### Reading undoes writing (R195) -/

/-- Settles O43: the header stands where the SRC window now begins, and its entries make the table they were taken from. -/
theorem tableRoundTrip : Obligations.TableRoundTrip := by
  unfold Obligations.TableRoundTrip
  intro s t len hct htotal h hfit hsrc
  obtain ⟨u, hu, rfl⟩ := runsOk_iff.1 h
  have hrule : hdrWriteRule s = .ok u := atStage_eq_ok.1 hu
  obtain ⟨hcheck, -⟩ := guarded_eq_ok.1 hrule
  obtain ⟨-, -, -, hbits, hcap⟩ := (hdrWriteCheck_eq_none s).1 hcheck
  obtain rfl : withHeaderWritten s = u := Except.ok.inj ((hdrWriteRule_of_check hcheck).symm.trans hrule)
  have hbytes : ceil8 (histCodeBits s) < 2 ^ 32 := Nat.lt_succ_of_le hbits
  have hptr : (BitVec.ofNat 32 (14 + 5 * (codedSymbols s.ct).length)).toNat = 14 + 5 * (codedSymbols s.ct).length :=
    Nat.mod_eq_of_lt (hcap.trans_lt s.dstCap.isLt)
  have hfields := srcFields_of_headerBytes
    (s := { completeOk (withHeaderWritten s) with srcBase := (withHeaderWritten s).dstBase, srcLen := len }) hct (by omega) hbytes
    (memHolds_withHeaderWritten s)
  have hroom : 14 + 5 * (tableEntries s.ct).length + ceil8 (histCodeBits s) ≤ len.toNat := by
    rw [length_tableEntries, ← hptr]
    exact hfit
  have hread := hdrReadRule_of_header hsrc ⟨hfields, hroom⟩
  refine ⟨_, exec_of_ok (i := .hdrRead) (atStage_eq_ok.2 hread), ⟨rfl, rfl, rfl, rfl, rfl⟩,
    tableOfEntries_tableEntries hct.2.2, Nat.mod_eq_of_lt (by omega), Nat.mod_eq_of_lt hbytes, ?_⟩
  exact congrArg (fun n => BitVec.ofNat 32 (14 + 5 * n)) (length_tableEntries s.ct)

end Sys2Proof.Machine
end

section
/-! Proofs about the bit packer and the bit unpacker, second part (44_packer.md R170 to R176, 45_unpacker.md R180 to R185): what
the packing commands append, and the errors. -/

namespace Sys2Proof.Machine

/-! ### The checks of the packing commands (R174 to R176) -/

theorem packSymCheck_eq_none (sym : Byte) (last : Bool) (s : State) :
    packSymCheck sym last s = none ↔ s.codesValid = true ∧ dstUsable s ∧ tableGet s.ct sym ≠ [] ∧
      s.pwSyms.toNat + 1 ≤ 4294967295 ∧
      s.outPtr.toNat + streamBytes (s.pwCur.toNat + (tableGet s.ct sym).length) last ≤ s.dstCap.toNat := by
  simp only [packSymCheck, Option.or_eq_none_iff, needCodes_eq_none, dstCheck_eq_none, raiseIf_eq_none, dstFullCheck_eq_none,
    packNeeds_eq, Config.maxCount, gt_iff_lt, not_lt, ne_eq]

theorem packBlockCheck_eq_none (last : Bool) (s : State) :
    packBlockCheck last s = none ↔ s.codesValid = true ∧ bothUsable s ∧ (∀ b ∈ srcBytes s, tableGet s.ct b ≠ []) ∧
      s.pwSyms.toNat + s.srcLen.toNat ≤ 4294967295 ∧
      s.outPtr.toNat + streamBytes (s.pwCur.toNat + (codeStream s.ct (srcBytes s)).length) last ≤ s.dstCap.toNat := by
  simp only [packBlockCheck, Option.or_eq_none_iff, needCodes_eq_none, windowsCheck_eq_none, noCodeInSrc_eq_none,
    raiseIf_eq_none, dstFullCheck_eq_none, srcCodeBits_eq, packNeeds_eq, Config.maxCount, gt_iff_lt, not_lt]

/-! ### What the packing commands append (R170 to R172) -/

theorem sameButWriter.onlyPackerChanged {s t : State} (h : sameButWriter s t) : onlyPackerChanged s (completeOk t) := by
  unfold sameButWriter at h
  rw [h]
  exact ⟨.refl s, rfl, ⟨rfl, rfl⟩, rfl, ⟨rfl, rfl, rfl⟩, rfl, rfl, rfl⟩

theorem flushIf_pwSyms (last : Bool) (s : State) : (flushIf last s).pwSyms = s.pwSyms := by rw [flushIf_same last s]

theorem streamBytes_false_le (n : Nat) (last : Bool) : streamBytes n false ≤ streamBytes n last := by
  simp [streamBytes]

/-- Settles O45: the checks pass, PutCode appends the code to a clean writer's stream, and Flush follows when LAST is set. -/
theorem packSymAppendsTheCode : Obligations.PackSymAppendsTheCode := by
  unfold Obligations.PackSymAppendsTheCode
  intro s sym last hvalid hdst hcode hsyms hclean hfit
  have hrun : runOf (.packSym sym last) s = .ok (flushIf last (packOne s sym)) :=
    atStage_eq_ok.2 (guarded_eq_ok.2 ⟨(packSymCheck_eq_none sym last s).2 ⟨hvalid, hdst, hcode, hsyms, hfit⟩, rfl⟩)
  have hcap := s.dstCap.isLt
  have hle := streamBytes_false_le (s.pwCur.toNat + (tableGet s.ct sym).length) last
  have hsame := packOne_same s sym
  have hpacked : packedOnto s (packOne s sym) (tableGet s.ct sym) false := putCode_packedOnto _ hclean (by omega)
  refine ⟨_, exec_of_ok hrun, ⟨rfl, rfl, rfl, rfl, rfl⟩, flushIf_packedOnto last (by rw [hsame]) hpacked (by omega), ?syms,
    (hsame.trans (flushIf_same last _).writer).onlyPackerChanged⟩
  case syms =>
    rw [completeOk_pwSyms, flushIf_pwSyms, packOne, BitVec.toNat_add, Nat.mod_eq_of_lt (by simpa using by omega)]
    rfl

/-- Settles O46: the checks pass, and packing the SRC bytes one by one appends their codes and counts them. -/
theorem packBlockAppendsTheCodes : Obligations.PackBlockAppendsTheCodes := by
  unfold Obligations.PackBlockAppendsTheCodes
  intro s last hvalid hwin hcoded hsyms hclean hfit
  have hrule : packBlockRule last s = .ok (packBlockEffect last s) :=
    guarded_eq_ok.2 ⟨(packBlockCheck_eq_none last s).2 ⟨hvalid, hwin, hcoded, hsyms, hfit⟩, rfl⟩
  obtain ⟨-, hpacked, hsame⟩ := packBlockRule_ok hclean hrule
  refine ⟨_, exec_of_ok (i := .packBlock last) (atStage_eq_ok.2 hrule), ⟨rfl, rfl, rfl, rfl, rfl⟩, hpacked, ?syms,
    hsame.onlyPackerChanged⟩
  case syms =>
    rw [completeOk_pwSyms, packBlockEffect, flushIf_pwSyms, foldl_packOne_pwSyms, length_srcBytes, BitVec.ofNat_toNat,
      BitVec.setWidth_eq, BitVec.toNat_add, Nat.mod_eq_of_lt (by omega)]

/-- Settles O47: Flush writes the partial byte of a clean writer, and is nothing when no bit is pending. -/
theorem packFlushWritesThePartialByte : Obligations.PackFlushWritesThePartialByte := by
  unfold Obligations.PackFlushWritesThePartialByte
  intro s hdst hclean hfit
  have hcheck : packFlushCheck s = none :=
    Option.or_eq_none_iff.2 ⟨(dstCheck_eq_none s).2 hdst, (dstFullCheck_eq_none _ _).2 hfit⟩
  have hrun : runOf .packFlush s = .ok (flush s) := atStage_eq_ok.2 (guarded_eq_ok.2 ⟨hcheck, rfl⟩)
  have hcap := s.dstCap.isLt
  refine ⟨_, exec_of_ok hrun, ⟨rfl, rfl, rfl, rfl, rfl⟩, flush_packedOnto hclean (by omega), ?syms,
    (flush_same s).writer.onlyPackerChanged, fun hcur => ?nothing⟩
  case syms => exact flushIf_pwSyms true s
  case nothing => rw [completeOk_eq_doneState, flush, if_neg (not_not_intro hcur)]

/-! ### The errors of the packing commands, in order -/

/-- Settles O48: each clause passes the checks before its own, which fails. -/
theorem packErrors : Obligations.PackErrors := by
  unfold Obligations.PackErrors
  refine fun s => ⟨fun sym last hvalid hdst => ?packSym, fun last hvalid hwin => ?packBlock, fun need hdst hneed hfull => ?packFlush⟩
  case packSym =>
    have hcodes := (needCodes_eq_none s).2 hvalid
    have hwindow := (dstCheck_eq_none s).2 hdst
    have rejects (code : ErrCode) {info : Word} (h : packSymCheck sym last s = some ⟨code, info⟩) :
        fails (.packSym sym last) s 0x41#8 (errByte code) info := fails_of_rule_error code rfl (guarded_eq_error.2 h)
    refine ⟨fun hcode => rejects .noCode ?noCode, fun hcode hsyms => rejects .countOverflow ?overflow,
      fun need hcode hsyms hneed hfull => rejects .dstFull ?full⟩
    case noCode =>
      rw [packSymCheck, hcodes, hwindow, raiseIf_pos _ _ hcode, BitVec.ofNat_toNat]
      rfl
    case overflow =>
      have hover : s.pwSyms.toNat + 1 > Config.maxCount := by
        rw [hsyms]
        decide
      rw [packSymCheck, hcodes, hwindow, raiseIf_neg _ _ hcode, raiseIf_pos _ _ hover]
      rfl
    case full =>
      have hover : ¬ s.pwSyms.toNat + 1 > Config.maxCount := by
        have := s.pwSyms.isLt
        have hne : s.pwSyms.toNat ≠ 4294967295 := fun h => hsyms (BitVec.eq_of_toNat_eq h)
        rw [Config.maxCount]
        omega
      subst hneed
      rw [packSymCheck, hcodes, hwindow, raiseIf_neg _ _ hcode, raiseIf_neg _ _ hover, packNeeds_eq, dstFullCheck_of_lt hfull]
      rfl
  case packBlock =>
    have hcodes := (needCodes_eq_none s).2 hvalid
    have hwindow := (windowsCheck_eq_none s).2 hwin
    have rejects (code : ErrCode) {info : Word} (h : packBlockCheck last s = some ⟨code, info⟩) :
        fails (.packBlock last) s 0x42#8 (errByte code) info := fails_of_rule_error code rfl (guarded_eq_error.2 h)
    refine ⟨fun o ho hcode hbefore => rejects .noCode ?noCode, fun hcoded hsyms => rejects .countOverflow ?overflow,
      fun need hcoded hsyms hneed hfull => rejects .dstFull ?full⟩
    case noCode =>
      rw [packBlockCheck, hcodes, hwindow, noCodeInSrc_first o ho hcode hbefore]
      rfl
    case overflow =>
      have hover : s.pwSyms.toNat + s.srcLen.toNat > Config.maxCount := hsyms
      rw [packBlockCheck, hcodes, hwindow, (noCodeInSrc_eq_none s).2 hcoded, raiseIf_pos _ _ hover]
      rfl
    case full =>
      have hover : ¬ s.pwSyms.toNat + s.srcLen.toNat > Config.maxCount := not_lt.2 hsyms
      subst hneed
      rw [packBlockCheck, hcodes, hwindow, (noCodeInSrc_eq_none s).2 hcoded, raiseIf_neg _ _ hover, srcCodeBits_eq,
        packNeeds_eq, dstFullCheck_of_lt hfull]
      rfl
  case packFlush =>
    have hcheck : packFlushCheck s = some ⟨.dstFull, sat32 need⟩ := by
      subst hneed
      rw [packFlushCheck, (dstCheck_eq_none s).2 hdst, packNeeds_eq, Nat.add_zero, dstFullCheck_of_lt hfull]
      rfl
    exact fails_of_rule_error .dstFull rfl (guarded_eq_error.2 hcheck)

/-! ### The errors of UNPACK, in order (R180, R184, R185) -/

theorem unpackRule_of_symbols_error {s : State} {e : CmdError} (hcheck : unpackCheck s = none)
    (h : unpackSymbols s = .error e) : unpackRule s = .error e := by
  simp only [unpackRule, hcheck, h]

/-- Settles O50: the checks before the loop report in their order; after the symbols of `out` the loop meets a rest that no code
begins, and its length decides which of the two errors it is. -/
theorem unpackErrors : Obligations.UnpackErrors := by
  unfold Obligations.UnpackErrors
  intro s hvalid hhdr hwin htable need
  have hflags := (needCodesAndHdr_eq_none s).2 ⟨hvalid, hhdr⟩
  have hwindow := (windowsCheck_eq_none s).2 hwin
  have rejects (code : ErrCode) {info : Word} (h : unpackCheck s = some ⟨code, info⟩) :
      fails .unpack s 0x50#8 (errByte code) info := fails_of_rule_error code rfl (by simp only [unpackRule, h])
  refine ⟨fun hshort => rejects .truncated ?short, fun hlong hfull => rejects .dstFull ?full,
    fun hlong hfit out rest hout hcoded hpay hno => ?symbols⟩
  case short =>
    rw [unpackCheck, hflags, hwindow, truncatedCheck_of_lt hshort]
    rfl
  case full =>
    have hsyms := s.decSyms.isLt
    rw [unpackCheck, hflags, hwindow, (truncatedCheck_eq_none _ _).2 hlong, dstFullCheck_of_lt hfull, sat32_of_le (by omega),
      BitVec.ofNat_toNat, BitVec.setWidth_eq]
    rfl
  case symbols =>
    have hcheck := (unpackCheck_eq_none s).2 ⟨⟨hvalid, hhdr⟩, hwin, hlong, hfit⟩
    have hloop := unpackSymbols_error htable.2.2 htable.1 hcoded hout hpay hno
    refine ⟨fun hrest => ?exhausted, fun hrest => ?unmatched⟩
    case exhausted =>
      rw [if_pos hrest] at hloop
      exact fails_of_rule_error .payloadExhausted rfl (unpackRule_of_symbols_error hcheck hloop)
    case unmatched =>
      rw [if_neg (not_lt.2 hrest)] at hloop
      refine ⟨_, fails_of_rule_error .unmatchedCode rfl (unpackRule_of_symbols_error hcheck hloop), fun hfits => ?_⟩
      exact if_pos (Nat.le_of_lt_succ hfits)

end Sys2Proof.Machine
end

section
/-! Proofs about the composite commands, second part (47_composite.md R200 to R203): what ENCODE and DECODE leave, and ENCODE's
errors. -/

namespace Sys2Proof.Machine

/-! ### ENCODE step by step (R200) -/

theorem runSteps_cons_of_ok {stage : Byte} {rule : Rule} {rest : List (Byte × Rule)} {s u : State} (h : rule s = .ok u) :
    runSteps ((stage, rule) :: rest) s = runSteps rest u := by simp only [runSteps, h]

/-- What the first three steps of ENCODE leave: the histogram and the tree of the SRC bytes. -/
def withTreeFor (s : State) : State := treeBuildEffect (withHist s (histogramOf (srcBytes s)))

section
variable {s : State} (hne : s.srcLen ≠ 0#32)
include hne

theorem countedSymbols_srcBytes_ne_nil : countedSymbols (histogramOf (srcBytes s)) ≠ [] :=
  countedSymbols_histogramOf_ne_nil (length_srcBytes_le s) (srcBytes_ne_nil.2 hne)

theorem toNat_root_withTreeFor : (withTreeFor s).root.toNat = (buildTree (histogramOf (srcBytes s))).2 :=
  toNat_root_buildTree (countedSymbols_srcBytes_ne_nil hne)
    ((histTotal_histogramOf (length_srcBytes_le s)).trans_le (length_srcBytes_le s))

theorem assignCodes_withTreeFor : assignCodes (withTreeFor s).nodes (withTreeFor s).root.toNat = tableFor (srcBytes s) := by
  rw [toNat_root_withTreeFor hne, tableFor, withTreeFor, treeBuildEffect, withHist]

/-- With usable windows the first three steps of ENCODE succeed. -/
theorem encodeRun_from_tree (hwin : bothUsable s) :
    encodeRun s = runSteps (encodeSteps.drop 3) (withTreeFor s) := by
  have hlen := length_srcBytes_le s
  have haccum : histAccumRule (withHist s (tableFill 0#32)) = .ok (withHist s (histogramOf (srcBytes s))) := by
    refine guarded_eq_ok.2 ⟨Option.or_eq_none_iff.2 ⟨(srcCheck_eq_none _).2 hwin.1, raiseIf_neg _ _ ?_⟩,
      congrArg (withHist s) (foldl_countSymbol_eq_histogramOf hlen)⟩
    rw [length_srcBytes] at hlen
    simpa using hlen
  have htree : treeBuildRule (withHist s (histogramOf (srcBytes s))) = .ok (withTreeFor s) :=
    guarded_eq_ok.2 ⟨raiseIf_neg _ _ fun he => countedSymbols_srcBytes_ne_nil hne ((leavesOf_eq_nil _).1 he), rfl⟩
  have hclear : histClearRule s = .ok (withHist s (tableFill 0#32)) := rfl
  rw [encodeRun, if_neg hne, runComposite, (windowsCheck_eq_none s).2 hwin]
  exact (runSteps_cons_of_ok hclear).trans ((runSteps_cons_of_ok haccum).trans (runSteps_cons_of_ok htree))

/-- With no code longer than 23 bits the fourth step succeeds too. -/
theorem encodeRun_from_table (hwin : bothUsable s) (hshort : ∀ sym, (tableGet (tableFor (srcBytes s)) sym).length ≤ 23) :
    encodeRun s = runSteps (encodeSteps.drop 4) (withTableFor s) := by
  have hcodes := assignCodes_withTreeFor hne
  have hassign : codeAssignRule (withTreeFor s) = .ok (withTableFor s) := by
    refine guarded_eq_ok.2 ⟨Option.or_eq_none_iff.2 ⟨(needTree_eq_none _).2 rfl, ?_⟩, ?_⟩
    · rwa [hcodes, tooLongCheck_eq_none]
    · rw [codeAssignEffect, hcodes, withTreeFor, treeBuildEffect, withHist, withTableFor]
  rw [encodeRun_from_tree hne hwin]
  exact runSteps_cons_of_ok hassign

end

/-- The bytes of the payload that HDR_WRITE computes in ENCODE are those of the packed codes. -/
theorem payloadBytes_withTableFor (s : State) : (histCodeBits (withTableFor s) + 7) / 8 =
    (packedBytes (codeStream (tableFor (srcBytes s)) (srcBytes s))).length := by
  rw [histCodeBits_of_hist (length_srcBytes_le s) (withTableFor_hist s), length_packedBytes, withTableFor_ct]

/-- What the first six steps of ENCODE leave: the container's header, and an empty writer. -/
def readyToPack (s : State) : State :=
  { withHeaderWritten (withTableFor s) with pwByte := 0#8, pwCur := 0#3, pwSyms := 0#32 }

theorem readyToPack_mem (s : State) : (readyToPack s).mem = writeBytes s.mem s.dstBase.toNat
    (headerBytes (tableFor (srcBytes s)) (histTotal (withTableFor s).hist) (ceil8 (histCodeBits (withTableFor s)))) := by
  have hmem : (withTableFor s).mem = s.mem := rfl
  have hbase : (withTableFor s).dstBase = s.dstBase := rfl
  rw [readyToPack, withHeaderWritten, withTableFor_ct, hmem, hbase]

theorem readyToPack_ct (s : State) : (readyToPack s).ct = tableFor (srcBytes s) := by
  rw [readyToPack, withHeaderWritten, withTableFor_ct]

theorem readyToPack_outPtr {s : State} (hroom : 14 + 5 * (codedSymbols (tableFor (srcBytes s))).length ≤ s.dstCap.toNat) :
    (readyToPack s).outPtr.toNat = 14 + 5 * (codedSymbols (tableFor (srcBytes s))).length := by
  rw [← withTableFor_ct] at hroom ⊢
  exact Nat.mod_eq_of_lt (hroom.trans_lt s.dstCap.isLt)

theorem srcBytes_readyToPack {s : State} (hapart : windowsApart s)
    (hroom : 14 + 5 * (codedSymbols (tableFor (srcBytes s))).length ≤ s.dstCap.toNat) :
    srcBytes (readyToPack s) = srcBytes s := by
  refine srcBytes_of_dst_write (t := readyToPack s) rfl rfl (readyToPack_mem s) ?_ hapart
  rwa [length_headerBytes]

/-- The header of a container and its payload. -/
theorem length_containerOf (input : List Byte) : (containerOf input).length =
    14 + 5 * (codedSymbols (tableFor input)).length + (packedBytes (codeStream (tableFor input) input)).length := by
  rw [containerOf_eq, containerWith, List.length_append, length_headerBytes, hdrLen]

section
variable {s : State} (hne : s.srcLen ≠ 0#32) (hwin : bothUsable s)
  (hpayload : (packedBytes (codeStream (tableFor (srcBytes s)) (srcBytes s))).length ≤ 4294967295)
include hne hwin hpayload

theorem hdrWriteCheck_withTableFor : hdrWriteCheck (withTableFor s) =
    dstFullCheck (withTableFor s) (14 + 5 * (codedSymbols (tableFor (srcBytes s))).length) := by
  have hcoded : ∀ sym, tableGet (withTableFor s).hist sym ≠ 0#32 → tableGet (withTableFor s).ct sym ≠ [] := by
    intro sym hcount
    rw [withTableFor_ct]
    exact (tableFor_ne_nil_iff (length_srcBytes_le s) (srcBytes_ne_nil.2 hne)).2
      ((histogramOf_ne_zero_iff (length_srcBytes_le s)).1 hcount)
  have hbits : ¬ ceil8 (histCodeBits (withTableFor s)) > Config.maxCount :=
    not_lt.2 ((payloadBytes_withTableFor s).trans_le hpayload)
  have hdst : dstCheck (withTableFor s) = none := (dstCheck_eq_none _).2 hwin.2.1
  rw [hdrWriteCheck, (needCodes_eq_none (withTableFor s)).2 rfl, hdst, (noCodeInHist_eq_none _).2 hcoded, raiseIf_neg _ _ hbits,
    length_tableEntries, hdrLen, withTableFor_ct]
  simp only [Option.none_or]

/-- With room for the header the fifth and sixth steps succeed. -/
theorem encodeRun_from_header (hshort : ∀ sym, (tableGet (tableFor (srcBytes s)) sym).length ≤ 23)
    (hroom : 14 + 5 * (codedSymbols (tableFor (srcBytes s))).length ≤ s.dstCap.toNat) :
    encodeRun s = atStage 0x42#8 (packBlockRule true (readyToPack s)) := by
  have hcheck := (hdrWriteCheck_withTableFor hne hwin hpayload).trans ((dstFullCheck_eq_none (withTableFor s) _).2 hroom)
  have hlast (u : State) : runSteps (encodeSteps.drop 6) u = atStage 0x42#8 (packBlockRule true u) := by
    cases h : packBlockRule true u with
    | ok t => exact runSteps_cons_of_ok h
    | error e => exact runSteps_cons_error.2 (.inl ⟨e, h, rfl⟩)
  rw [encodeRun_from_table hne hwin hshort, ← hlast]
  exact (runSteps_cons_of_ok (hdrWriteRule_of_check hcheck)).trans (runSteps_cons_of_ok rfl)

omit hpayload in
/-- The last step of ENCODE finds every check but that of the room already made. -/
theorem packBlockCheck_readyToPack (hroom : 14 + 5 * (codedSymbols (tableFor (srcBytes s))).length ≤ s.dstCap.toNat) :
    packBlockCheck true (readyToPack s) = dstFullCheck (readyToPack s) (containerOf (srcBytes s)).length := by
  have hct := readyToPack_ct s
  have hsrc := srcBytes_readyToPack hwin.2.2 hroom
  have hcoded : noCodeInSrc (readyToPack s) = none := by
    rw [noCodeInSrc_eq_none, hct, hsrc]
    exact fun b => (tableFor_ne_nil_iff (length_srcBytes_le s) (srcBytes_ne_nil.2 hne)).2
  have hsyms : ¬ (readyToPack s).pwSyms.toNat + (readyToPack s).srcLen.toNat > Config.maxCount := by
    change ¬ (readyToPack s).pwSyms.toNat + s.srcLen.toNat > Config.maxCount
    rw [← length_srcBytes, not_lt]
    exact (Nat.zero_add _).trans_le (length_srcBytes_le s)
  have hneed : packNeeds (readyToPack s) (srcCodeBits (readyToPack s)) true = (containerOf (srcBytes s)).length := by
    rw [packNeeds_eq, srcCodeBits_eq, hct, hsrc, readyToPack_outPtr hroom, length_containerOf]
    exact congrArg _ ((congrArg (streamBytes · true) (Nat.zero_add _)).trans (streamBytes_flushed _))
  rw [packBlockCheck, (needCodes_eq_none (readyToPack s)).2 rfl, (windowsCheck_eq_none (readyToPack s)).2 hwin, hcoded, hneed,
    raiseIf_neg _ _ hsyms]
  simp only [Option.none_or]

end

/-- Settles O52: each clause passes the steps before its own, whose check fails at the step's stage. -/
theorem encodeErrors : Obligations.EncodeErrors := by
  unfold Obligations.EncodeErrors
  intro s hne hwin
  dsimp only
  have rejects (stage : Byte) (code : ErrCode) {info : Word} (h : encodeRun s = .error ⟨stage, code, info⟩) :
      fails .encode s stage (errByte code) info := exec_of_error (i := .encode) h
  refine ⟨fun sym hlong hbefore => rejects 0x21#8 .codeTooLong ?long, fun hshort hpayload =>
    ⟨fun hfull => rejects 0x30#8 .dstFull ?header, fun hroom hfull => rejects 0x42#8 .dstFull ?payload⟩⟩
  case long =>
    have hrule := codeAssign_error (s := withTreeFor s) rfl
      ((congrArg tooLongCheck (assignCodes_withTreeFor hne)).trans (tooLongCheck_first hlong hbefore))
    rw [encodeRun_from_tree hne hwin]
    exact runSteps_cons_error.2 (.inl ⟨_, hrule, rfl⟩)
  case header =>
    have hle := codedSymbols_length_le (tableFor (srcBytes s))
    have hcheck := (hdrWriteCheck_withTableFor hne hwin hpayload).trans (dstFullCheck_of_lt hfull)
    rw [sat32_of_le (by omega)] at hcheck
    rw [encodeRun_from_table hne hwin hshort]
    exact runSteps_cons_error.2 (.inl ⟨_, guarded_eq_error.2 hcheck, rfl⟩)
  case payload =>
    have hcheck := (packBlockCheck_readyToPack hne hwin hroom).trans (dstFullCheck_of_lt hfull)
    rw [encodeRun_from_header hne hwin hpayload hshort hroom]
    exact atStage_eq_error.2 ⟨_, guarded_eq_error.2 hcheck, rfl⟩

/-! ### What ENCODE leaves (R200) -/

/-- A flush leaves an empty writer. -/
theorem emptyWriter_of_packedOnto {s t : State} {bits : Bits} (h : packedOnto s t bits true) :
    t.pwByte = 0#8 ∧ t.pwCur = 0#3 := by
  obtain ⟨-, -, -, hpending, hclean⟩ := h
  have hcur : t.pwCur.toNat = 0 := by
    rw [← length_pendingBits, hpending]
    rfl
  refine ⟨BitVec.eq_of_getLsbD_eq fun k hk => ?_, BitVec.eq_of_toNat_eq hcur⟩
  rw [hclean k (by omega), BitVec.getLsbD_zero]

/-- The bytes of the payload follow those of the header. -/
theorem sameBytesOutside_container {s u : State}
    (hroom : 14 + 5 * (codedSymbols (tableFor (srcBytes s))).length ≤ s.dstCap.toNat)
    (h : sameBytesOutside (readyToPack s) u (readyToPack s).outPtr.toNat
      (packedBytes (codeStream (tableFor (srcBytes s)) (srcBytes s))).length) :
    sameBytesOutside s u 0 (containerOf (srcBytes s)).length := by
  have hdst : (readyToPack s).dstBase = s.dstBase := rfl
  intro a ha
  rw [length_containerOf] at ha
  rw [h a (by rw [readyToPack_outPtr hroom, hdst]; omega), readyToPack_mem,
    readByte_writeBytes_outside _ _ _ _ (by rw [length_headerBytes, hdrLen]; omega)]

/-- Settles O51: an empty input is answered at once; for any other the checks of the seven steps pass, and the packed codes
follow the header. -/
theorem encodeWritesTheContainer : Obligations.EncodeWritesTheContainer := by
  unfold Obligations.EncodeWritesTheContainer
  refine ⟨fun s hempty => exec_of_ok (i := .encode) (encodeRun_of_empty hempty), fun s hne hwin hshort hfit => ?_⟩
  have hcap := s.dstCap.isLt
  have hlen := length_containerOf (srcBytes s)
  have hroom : 14 + 5 * (codedSymbols (tableFor (srcBytes s))).length ≤ s.dstCap.toNat := by omega
  have hrule : packBlockRule true (readyToPack s) = .ok (packBlockEffect true (readyToPack s)) :=
    guarded_eq_ok.2 ⟨(packBlockCheck_readyToPack hne hwin hroom).trans ((dstFullCheck_eq_none (readyToPack s) _).2 hfit), rfl⟩
  have hrun : runOf .encode s = .ok (packBlockEffect true (readyToPack s)) :=
    (encodeRun_from_header hne hwin (by omega) hshort hroom).trans (atStage_eq_ok.2 hrule)
  obtain ⟨-, hprog, -, -, hholds, hout⟩ := encodedFrom_of_runsOk hne ⟨exec_of_ok hrun, rfl⟩
  obtain ⟨-, hpacked, hsame⟩ := packBlockRule_ok (fun k _ => BitVec.getLsbD_zero) hrule
  have hhist : (packBlockEffect true (readyToPack s)).hist = histogramOf (srcBytes s) := by rw [hsame]; rfl
  have hnodes : (packBlockEffect true (readyToPack s)).nodes = (buildTree (histogramOf (srcBytes s))).1 := by
    rw [hsame, readyToPack, withHeaderWritten, withTableFor]
  have hroot : (packBlockEffect true (readyToPack s)).root.toNat = (buildTree (histogramOf (srcBytes s))).2 := by
    rw [hsame]
    exact toNat_root_withTreeFor hne
  have hct : (packBlockEffect true (readyToPack s)).ct = tableFor (srcBytes s) := by rw [hsame, readyToPack_ct]
  obtain ⟨hbyte, hcur⟩ := emptyWriter_of_packedOnto hpacked
  refine ⟨_, exec_of_ok hrun, ⟨rfl, rfl, rfl, rfl, rfl⟩, hholds, ?outside, hout, hhist, hhist ▸ hnodes, hhist ▸ hroot, hct,
    hbyte, hcur, ?syms, by rw [hsame]; rfl, by rw [hsame]; rfl, by rw [hsame]; rfl, hprog, by rw [hsame]; exact ⟨rfl, rfl, rfl⟩⟩
  case outside =>
    obtain ⟨-, -, hother, -, -⟩ := hpacked
    have hpending : pendingBits (readyToPack s) = [] := rfl
    rw [hpending, List.nil_append, streamBytes_flushed, readyToPack_ct, srcBytes_readyToPack hwin.2.2 hroom] at hother
    exact sameBytesOutside_container hroom hother
  case syms =>
    rw [completeOk_pwSyms, packBlockEffect, flushIf_pwSyms, foldl_packOne_pwSyms, length_srcBytes, BitVec.ofNat_toNat,
      BitVec.setWidth_eq]
    exact BitVec.zero_add _

/-! ### What DECODE leaves (R201) -/

/-- Settles O54: the header's entries make the table, and the payload begins with the codes of `out`. -/
theorem decodeReadsTheContainer : Obligations.DecodeReadsTheContainer := by
  unfold Obligations.DecodeReadsTheContainer
  intro s entries out payload hwin hheader hcap hout
  obtain ⟨-, -, -, -, -, -, hpair, -, -⟩ := hheader.1
  have htable := tableIs_tableOfEntries (hpair.imp And.left)
  obtain ⟨hcoded, hpre⟩ := hout _ htable
  have hrun : runOf .decode s = .ok (unpackEffect (withHeader s entries out.length payload) out) :=
    decodeRun_of_container hwin hheader hcap hcoded hpre
  rw [unpackEffect_eq] at hrun
  exact ⟨_, exec_of_ok hrun, rfl, htable, dstHolds_of_mem_eq_writeBytes (s := s) rfl rfl,
    sameBytesOutside_of_mem_eq_writeBytes rfl⟩

end Sys2Proof.Machine
end

section
/-! Proofs that a composite is its unit commands one after the other (47_composite.md R203): a unit command does the same whatever
the completion before it wrote into the bookkeeping. -/

namespace Sys2Proof.Machine

/-! ### The completion's bookkeeping is an input of no rule -/

/-- A rule that reads and writes nothing of the bookkeeping a completion writes. -/
def ignoresCompletion (rule : Rule) : Prop := ∀ s, rule (completeOk s) = (rule s).map completeOk

theorem ignoresCompletion_guarded {check : State → Option CmdError} {effect : State → State}
    (hcheck : ∀ s, check (completeOk s) = check s) (heffect : ∀ s, effect (completeOk s) = completeOk (effect s)) :
    ignoresCompletion (guarded check effect) := by
  intro s
  rw [guarded, guarded, hcheck, heffect]
  cases check s <;> rfl

theorem putBit_completeOk (s : State) (b : Bool) : putBit (completeOk s) b = completeOk (putBit s b) := by
  unfold putBit
  dsimp only
  rw [apply_ite completeOk]
  rfl

theorem packOne_completeOk (s : State) (sym : Byte) : packOne (completeOk s) sym = completeOk (packOne s sym) := by
  have hcode : putCode (completeOk s) (tableGet s.ct sym) = completeOk (putCode s (tableGet s.ct sym)) :=
    List.foldl_hom completeOk putBit_completeOk
  rw [packOne, completeOk_ct, hcode]
  rfl

theorem flushIf_completeOk (last : Bool) (s : State) : flushIf last (completeOk s) = completeOk (flushIf last s) := by
  unfold flushIf flush
  rw [apply_ite completeOk, apply_ite completeOk]
  rfl

theorem unpackLoop_completeOk (s : State) (nbits want lo hi fuel pos : Nat) (cand : Bits) (out : List Byte) :
    unpackLoop (completeOk s) nbits want lo hi fuel pos cand out = unpackLoop s nbits want lo hi fuel pos cand out := by
  induction fuel generalizing pos cand out with
  | zero => rfl
  | succ fuel ih => simp only [unpackLoop, ih]; rfl

theorem ignoresCompletion_histAccum : ignoresCompletion histAccumRule := ignoresCompletion_guarded (fun _ => rfl) fun _ => rfl

theorem ignoresCompletion_treeBuild : ignoresCompletion treeBuildRule := ignoresCompletion_guarded (fun _ => rfl) fun _ => rfl

theorem ignoresCompletion_codeAssign : ignoresCompletion codeAssignRule :=
  ignoresCompletion_guarded (fun _ => rfl) fun _ => rfl

theorem ignoresCompletion_hdrWrite : ignoresCompletion hdrWriteRule :=
  ignoresCompletion_guarded (fun _ => rfl) fun s => by
    rw [hdrWriteEffect, hdrWriteEffect, dstWriteAll_eq, dstWriteAll_eq]
    rfl

theorem ignoresCompletion_packReset : ignoresCompletion packResetRule := fun _ => rfl

theorem ignoresCompletion_packBlock (last : Bool) : ignoresCompletion (packBlockRule last) :=
  ignoresCompletion_guarded (fun _ => rfl) fun s => by
    have hpack : (srcBytes s).foldl packOne (completeOk s) = completeOk ((srcBytes s).foldl packOne s) :=
      List.foldl_hom completeOk packOne_completeOk
    have hsrc : srcBytes (completeOk s) = srcBytes s := rfl
    rw [packBlockEffect, packBlockEffect, hsrc, hpack, flushIf_completeOk]

theorem ignoresCompletion_unpack : ignoresCompletion unpackRule := by
  intro s
  have hcheck : unpackCheck (completeOk s) = unpackCheck s := rfl
  have hsyms : unpackSymbols (completeOk s) = unpackSymbols s := unpackLoop_completeOk s _ _ _ _ _ _ _ _
  unfold unpackRule
  rw [hcheck, hsyms]
  cases unpackCheck s with
  | some e => rfl
  | none =>
    cases unpackSymbols s with
    | error e => rfl
    | ok out =>
      dsimp only
      rw [unpackEffect_eq, unpackEffect_eq]
      rfl

/-! ### One unit command after another (R203) -/

theorem ignoresCompletion.ok_iff {rule : Rule} (h : ignoresCompletion rule) {s t : State} :
    rule (completeOk s) = .ok t ↔ ∃ u, rule s = .ok u ∧ t = completeOk u := by
  rw [h s]
  cases rule s <;> simp [Except.map, eq_comm]

theorem ignoresCompletion.error_iff {rule : Rule} (h : ignoresCompletion rule) {s : State} {e : CmdError} :
    rule (completeOk s) = .error e ↔ rule s = .error e := by
  rw [h s]
  cases rule s <;> simp [Except.map]

theorem runsOk_iff_rule {i : Instr} (rule : Rule) (hrun : ∀ s, runOf i s = atStage (opcodeOf i) (rule s)) {s t : State} :
    runsOk i s t ↔ ∃ u, rule s = .ok u ∧ t = completeOk u := by
  simp only [runsOk_iff, hrun, atStage_eq_ok]

/-- A unit command that follows another's success goes on from the state of its rule. -/
theorem ignoresCompletion.runsOk_iff {i : Instr} {rule : Rule} (h : ignoresCompletion rule)
    (hrun : ∀ s, runOf i s = atStage (opcodeOf i) (rule s)) {s t : State} :
    runsOk i (completeOk s) t ↔ ∃ u, rule s = .ok u ∧ t = completeOk u := by
  simp only [runsOk_iff_rule rule hrun, h.ok_iff]
  constructor
  · rintro ⟨_, ⟨u, hu, rfl⟩, rfl⟩
    exact ⟨u, hu, rfl⟩
  · rintro ⟨u, hu, rfl⟩
    exact ⟨_, ⟨u, hu, rfl⟩, rfl⟩

/-- A command that fails with a code of its own raised that error. -/
theorem runOf_error_of_fails {i : Instr} {s : State} {stage code : Byte} {info : Word} (hcode : code ≠ 0#8)
    (h : fails i s stage code info) :
    ∃ e, runOf i s = .error e ∧ errByte e.err.code = code ∧ e.err.info = info := by
  rcases exec_cases h with ⟨e, he, hstate⟩ | ⟨u, -, hstate⟩
  · exact ⟨e, he, (congrArg State.errCode hstate).symm, (congrArg State.errInfo hstate).symm⟩
  · exact absurd (congrArg State.errCode hstate) hcode

/-- With usable windows DECODE raises the error of the step that fails, at its stage. -/
theorem decodeRun_error {s : State} {e : Raised} (hwin : bothUsable s)
    (h : (∃ c, hdrReadRule s = .error c ∧ e = ⟨0x31#8, c⟩) ∨
      ∃ u, hdrReadRule s = .ok u ∧ ∃ c, unpackRule u = .error c ∧ e = ⟨0x50#8, c⟩) : decodeRun s = .error e := by
  rw [decodeRun, runComposite, (windowsCheck_eq_none s).2 hwin]
  refine runSteps_cons_error.2 (h.imp id fun ⟨u, hu, c, hc, he⟩ => ⟨u, hu, runSteps_cons_error.2 (.inl ⟨c, hc, he⟩)⟩)

/-- Settles O53: each step of a composite does what its unit command does, since no rule reads what a completion writes. -/
theorem compositesEqualTheirUnitCommands : Obligations.CompositesEqualTheirUnitCommands := by
  unfold Obligations.CompositesEqualTheirUnitCommands
  intro s t hwin
  refine ⟨fun hne => ⟨?encodeForth, ?encodeBack⟩, ⟨?decodeForth, ?decodeBack⟩, ?headerFails, ?unpackFails⟩
  case encodeForth =>
    intro h
    obtain ⟨u, hu, rfl⟩ := runsOk_iff.1 h
    obtain ⟨-, s1, s2, s3, s4, s5, s6, h1, h2, h3, h4, h5, h6, h7⟩ := (encodeRun_eq_ok hne).1 hu
    exact ⟨_, _, _, _, _, _, (runsOk_iff_rule histClearRule fun _ => rfl).2 ⟨s1, h1, rfl⟩,
      (ignoresCompletion_histAccum.runsOk_iff fun _ => rfl).2 ⟨s2, h2, rfl⟩,
      (ignoresCompletion_treeBuild.runsOk_iff fun _ => rfl).2 ⟨s3, h3, rfl⟩,
      (ignoresCompletion_codeAssign.runsOk_iff fun _ => rfl).2 ⟨s4, h4, rfl⟩,
      (ignoresCompletion_hdrWrite.runsOk_iff fun _ => rfl).2 ⟨s5, h5, rfl⟩,
      (ignoresCompletion_packReset.runsOk_iff fun _ => rfl).2 ⟨s6, h6, rfl⟩,
      ((ignoresCompletion_packBlock true).runsOk_iff fun _ => rfl).2 ⟨u, h7, rfl⟩⟩
  case encodeBack =>
    rintro ⟨_, _, _, _, _, _, h1, h2, h3, h4, h5, h6, h7⟩
    obtain ⟨s1, r1, rfl⟩ := (runsOk_iff_rule histClearRule fun _ => rfl).1 h1
    obtain ⟨s2, r2, rfl⟩ := (ignoresCompletion_histAccum.runsOk_iff fun _ => rfl).1 h2
    obtain ⟨s3, r3, rfl⟩ := (ignoresCompletion_treeBuild.runsOk_iff fun _ => rfl).1 h3
    obtain ⟨s4, r4, rfl⟩ := (ignoresCompletion_codeAssign.runsOk_iff fun _ => rfl).1 h4
    obtain ⟨s5, r5, rfl⟩ := (ignoresCompletion_hdrWrite.runsOk_iff fun _ => rfl).1 h5
    obtain ⟨s6, r6, rfl⟩ := (ignoresCompletion_packReset.runsOk_iff fun _ => rfl).1 h6
    obtain ⟨u, r7, rfl⟩ := ((ignoresCompletion_packBlock true).runsOk_iff fun _ => rfl).1 h7
    exact runsOk_iff.2 ⟨u, (encodeRun_eq_ok hne).2
      ⟨hwin, s1, s2, s3, s4, s5, s6, r1, r2, r3, r4, r5, r6, r7⟩, rfl⟩
  case decodeForth =>
    intro h
    obtain ⟨u, hu, rfl⟩ := runsOk_iff.1 h
    obtain ⟨-, s1, h1, h2⟩ := decodeRun_eq_ok.1 hu
    exact ⟨_, runsOk_iff.2 ⟨s1, atStage_eq_ok.2 h1, rfl⟩,
      (ignoresCompletion_unpack.runsOk_iff fun _ => rfl).2 ⟨u, h2, rfl⟩⟩
  case decodeBack =>
    rintro ⟨_, h1, h2⟩
    obtain ⟨s1, r1, rfl⟩ := runsOk_iff.1 h1
    obtain ⟨u, r2, rfl⟩ := (ignoresCompletion_unpack.runsOk_iff fun _ => rfl).1 h2
    exact runsOk_iff.2 ⟨u, decodeRun_eq_ok.2 ⟨hwin, s1, atStage_eq_ok.1 r1, r2⟩, rfl⟩
  case headerFails =>
    intro code info hcode h
    obtain ⟨e, he, rfl, rfl⟩ := runOf_error_of_fails hcode h
    obtain ⟨c, hc, rfl⟩ := atStage_eq_error.1 he
    exact exec_of_error (i := .decode) (decodeRun_error hwin (.inl ⟨c, hc, rfl⟩))
  case unpackFails =>
    intro s1 code info hcode h1 h
    obtain ⟨u, hu, rfl⟩ := runsOk_iff.1 h1
    obtain ⟨e, he, rfl, rfl⟩ := runOf_error_of_fails hcode h
    obtain ⟨c, hc, rfl⟩ := atStage_eq_error.1 he
    exact exec_of_error (i := .decode)
      (decodeRun_error hwin (.inr ⟨u, atStage_eq_ok.1 hu, c, ignoresCompletion_unpack.error_iff.1 hc, rfl⟩))

end Sys2Proof.Machine
end

section
/-! Proofs about what every step keeps (10_state.md R26, R49, R53 to R55, 60_exceptions.md R211): the invariant, the code table, the
validity flags. -/

namespace Sys2Proof.Machine

/-! ### Reset -/

theorem inv_reset : Inv State.reset where
  memory := ⟨.nil, fun _ h => nomatch h⟩
  total := histTotal_fill_zero.trans_le (Nat.zero_le _)
  arena := Nat.zero_le _
  codes sym := (congrArg List.length (tableGet_fill [] sym)).trans_le (Nat.zero_le _)
  writer _ _ := BitVec.getLsbD_zero
  protocol h := nomatch h.1
  errors := Nat.zero_le _
  success _ := ⟨rfl, rfl⟩
  tree h := nomatch h

/-- Settles O58: every field is at its reset value, and no flag is set. -/
theorem resetMeetsTheInvariant : Obligations.ResetMeetsTheInvariant := ⟨inv_reset, fun h => nomatch h⟩

/-! ### What a unit command's success keeps -/

theorem writerClean_of_packedOnto {s t : State} {bits : Bits} {last : Bool} (h : packedOnto s t bits last) : writerClean t := by
  obtain ⟨-, -, -, -, hclean⟩ := h
  exact hclean

/-- A packing command leaves a clean writer clean. -/
theorem writerClean_packSym {s t : State} {sym : Byte} {last : Bool} (hclean : writerClean s)
    (h : packSymRule sym last s = .ok t) : writerClean t := by
  obtain ⟨hcheck, rfl⟩ := guarded_eq_ok.1 h
  obtain ⟨-, -, -, -, hfit⟩ := (packSymCheck_eq_none sym last s).1 hcheck
  have hcap := s.dstCap.isLt
  have hle := streamBytes_false_le (s.pwCur.toNat + (tableGet s.ct sym).length) last
  have hpacked : packedOnto s (packOne s sym) (tableGet s.ct sym) false := putCode_packedOnto _ hclean (by omega)
  exact writerClean_of_packedOnto (flushIf_packedOnto last (by rw [packOne_same s sym]) hpacked (by omega))

theorem writerClean_packFlush {s t : State} (hclean : writerClean s) (h : packFlushRule s = .ok t) : writerClean t := by
  obtain ⟨hcheck, rfl⟩ := guarded_eq_ok.1 h
  obtain ⟨-, hfit⟩ := Option.or_eq_none_iff.1 hcheck
  rw [dstFullCheck_eq_none, packNeeds_eq, Nat.add_zero] at hfit
  have hcap := s.dstCap.isLt
  exact writerClean_of_packedOnto (flush_packedOnto hclean (by omega))

/-- HDR_READ takes a table that can be used. -/
theorem hdrReadRule_ok_table {s t : State} (h : hdrReadRule s = .ok t) :
    ∃ es, tableUsable (tableOfEntries es) ∧ t = hdrReadEffect s es := by
  unfold hdrReadRule at h
  split at h
  · cases h
  rename_i hcheck
  split at h
  · cases h
  rename_i es hread
  split at h
  · cases h
  cases h
  obtain ⟨-, -, ⟨hpos, -⟩, -⟩ := (hdrReadCheck_eq_none s).1 hcheck
  obtain ⟨hlen, hbounds, hpair⟩ := readEntries_good (hdrTableSize s) 0 [] es ⟨by simp, .nil⟩ hread
  have hne : es ≠ [] := by
    rw [List.length_nil, Nat.zero_add, hdrTableSize_eq] at hlen
    exact List.ne_nil_of_length_pos (by omega)
  exact ⟨es, tableUsable_of_entries (tableIs_tableOfEntries (hpair.imp And.left)) hne hbounds hpair, rfl⟩

/-- A unit command that succeeds keeps the invariant. -/
theorem inv_of_unit_ok {i : Instr} {s t : State} (hi : isUnit i) (h : runOf i s = .ok t) (hinv : Inv s) : Inv t := by
  have hmem : Memory.wf t.mem := (dstOnly_of_unit_ok hi h).2 hinv.memory
  cases i with
  | encode => exact absurd rfl hi.1
  | decode => exact absurd rfl hi.2
  | nop =>
    cases h
    exact hinv
  | sreset =>
    cases h
    exact { hinv with
      total := inv_reset.total, arena := inv_reset.arena, codes := inv_reset.codes, writer := inv_reset.writer,
      tree := fun h => nomatch h }
  | histClear =>
    cases h
    exact { hinv with total := inv_reset.total, tree := fun h => nomatch h }
  | histAccum =>
    obtain ⟨hcheck, rfl⟩ := guarded_eq_ok.1 (atStage_eq_ok.1 h)
    obtain ⟨-, hroom⟩ := Option.or_eq_none_iff.1 hcheck
    rw [raiseIf_eq_none, gt_iff_lt, not_lt, ← length_srcBytes] at hroom
    obtain ⟨-, htotal⟩ := foldl_countSymbol (srcBytes s) s.hist hroom
    exact { hinv with total := htotal.trans_le hroom, tree := fun h => nomatch h }
  | histByte sym =>
    obtain ⟨hcheck, rfl⟩ := guarded_eq_ok.1 (atStage_eq_ok.1 h)
    rw [histByteCheck, raiseIf_eq_none] at hcheck
    have hroom := lt_of_le_of_ne hinv.total hcheck
    exact { hinv with total := (countSymbol_total s.hist sym hroom).trans_le hroom, tree := fun h => nomatch h }
  | treeBuild =>
    obtain ⟨hne, rfl⟩ := treeBuildRule_ok (atStage_eq_ok.1 h)
    have hlen := length_buildTree s.hist hne
    have hle := length_countedSymbols_le s.hist
    have harena : (buildTree s.hist).1.length ≤ 511 := by omega
    exact { hinv with arena := harena, tree := fun _ => ⟨hne, rfl, toNat_root_buildTree hne hinv.total⟩ }
  | codeAssign =>
    obtain ⟨-, hshort, rfl⟩ := codeAssignRule_ok (atStage_eq_ok.1 h)
    exact { hinv with codes := hshort }
  | hdrRead =>
    obtain ⟨es, ⟨-, hshort, -⟩, rfl⟩ := hdrReadRule_ok_table (atStage_eq_ok.1 h)
    exact { hinv with codes := hshort, tree := fun h => nomatch h }
  | packReset =>
    cases h
    exact { hinv with writer := inv_reset.writer }
  | hdrWrite | unpack =>
    obtain ⟨m, p, rfl⟩ := writesOnly_of_unit_ok hi h
    exact { hinv with memory := hmem }
  | packSym sym last =>
    have hclean := writerClean_packSym hinv.writer (atStage_eq_ok.1 h)
    obtain ⟨_, _, _, _, _, rfl⟩ := writesOnly_of_unit_ok hi h
    exact { hinv with memory := hmem, writer := hclean }
  | packBlock last =>
    obtain ⟨-, hpacked, -⟩ := packBlockRule_ok hinv.writer (atStage_eq_ok.1 h)
    have hclean := writerClean_of_packedOnto hpacked
    obtain ⟨_, _, _, _, _, rfl⟩ := writesOnly_of_unit_ok hi h
    exact { hinv with memory := hmem, writer := hclean }
  | packFlush =>
    have hclean := writerClean_packFlush hinv.writer (atStage_eq_ok.1 h)
    obtain ⟨_, _, _, _, rfl⟩ := writesOnly_of_unit_ok hi h
    exact { hinv with memory := hmem, writer := hclean }

/-- A unit command that succeeds leaves a table that can be used, or one that CODES_VALID does not vouch for. -/
theorem codesUsable_of_unit_ok {i : Instr} {s t : State} (hi : isUnit i) (h : runOf i s = .ok t) (hinv : Inv s)
    (hcodes : codesUsable s) : codesUsable t := by
  cases i with
  | encode => exact absurd rfl hi.1
  | decode => exact absurd rfl hi.2
  | nop | packReset =>
    cases h
    exact hcodes
  | sreset =>
    cases h
    exact fun h => nomatch h
  | histClear | histAccum | histByte _ =>
    obtain ⟨_, rfl⟩ := writesOnly_of_unit_ok hi h
    exact fun h => nomatch h
  | treeBuild =>
    obtain ⟨_, _, rfl⟩ := writesOnly_of_unit_ok hi h
    exact fun h => nomatch h
  | codeAssign =>
    obtain ⟨hne, htable, hshort⟩ := codeAssign_table hinv (atStage_eq_ok.1 h)
    obtain ⟨sym, hsym⟩ := List.exists_mem_of_ne_nil _ hne
    refine fun _ => ⟨⟨sym, ?_⟩, hshort, htable ▸ prefixFree_assignCodes hne hinv.total⟩
    rw [htable]
    exact (assignCodes_ne_nil_iff hne hinv.total).2 (mem_countedSymbols.1 hsym)
  | hdrRead =>
    obtain ⟨es, husable, rfl⟩ := hdrReadRule_ok_table (atStage_eq_ok.1 h)
    exact fun _ => husable
  | hdrWrite | unpack =>
    obtain ⟨_, _, rfl⟩ := writesOnly_of_unit_ok hi h
    exact hcodes
  | packSym _ _ | packBlock _ =>
    obtain ⟨_, _, _, _, _, rfl⟩ := writesOnly_of_unit_ok hi h
    exact hcodes
  | packFlush =>
    obtain ⟨_, _, _, _, rfl⟩ := writesOnly_of_unit_ok hi h
    exact hcodes

/-! ### What a command's success keeps -/

/-- From s to t the invariant is kept, and with it the promise of CODES_VALID. -/
def keepsInv (s t : State) : Prop := Inv s → Inv t ∧ (codesUsable s → codesUsable t)

theorem keepsInv_of_runOf_ok {i : Instr} {s t : State} (h : runOf i s = .ok t) : keepsInv s t :=
  rel_of_runOf_ok (R := keepsInv) (fun _ hinv => ⟨{ hinv with memory := hinv.memory }, id⟩) (fun _ hinv => ⟨hinv, id⟩)
    (fun _ _ _ _ h1 h2 hinv => ⟨(h2 (h1 hinv).1).1, (h2 (h1 hinv).1).2 ∘ (h1 hinv).2⟩)
    (fun _ _ _ hi h hinv => ⟨inv_of_unit_ok hi h hinv, codesUsable_of_unit_ok hi h hinv⟩) h

/-! ### What a step keeps -/

theorem Inv.completeOk {s : State} (h : Inv s) : Inv (completeOk s) :=
  { h with protocol := fun hb => (nomatch hb.1), errors := Nat.zero_le _, success := fun _ => ⟨rfl, rfl⟩ }

theorem Inv.takeError {s : State} (h : Inv s) (e : Raised) : Inv (takeError s e) :=
  { h with
    protocol := fun hb => (nomatch hb.1), errors := (errByte_bounds e.err.code).2,
    success := fun h0 => absurd h0 (errByte_ne_zero _) }

theorem keepsInv_of_coreStep {s t : State} (h : coreStep s = .next t) : keepsInv s t := by
  rcases coreStep_cases h with ⟨-, rfl⟩ | ⟨-, e, rfl⟩ | ⟨-, i, u, -, hu, rfl⟩
  · exact fun hinv => ⟨hinv, id⟩
  · exact fun hinv => ⟨hinv.takeError e, id⟩
  · intro hinv
    obtain ⟨hinv', hcodes⟩ := keepsInv_of_runOf_ok hu hinv
    exact ⟨hinv'.completeOk, hcodes⟩

/-- A register write reaches the host's programming, the word accepted and the flags BUSY, DONE and OVERRUN (R22, R23). -/
theorem regStore_eq (s : State) (o : Nat) (v : Word) :
    let t := regStore s o v
    t = { s with
      cmdLast := t.cmdLast, busy := t.busy, done := t.done, overrun := t.overrun, doneIe := t.doneIe, srcBase := t.srcBase,
      srcLen := t.srcLen, dstBase := t.dstBase, dstCap := t.dstCap, inPtr := t.inPtr, outPtr := t.outPtr,
      histSel := t.histSel, nodeSel := t.nodeSel, codeSel := t.codeSel } := by
  cases hb : s.busy <;> unfold regStore writeCmd writeAck writeIfIdle <;> simp only [hb] <;> split <;> rfl

/-- A register write never leaves both BUSY and DONE (R131). -/
theorem regStore_protocol {s : State} (o : Nat) (v : Word) (h : ¬ (s.busy = true ∧ s.done = true)) :
    ¬ ((regStore s o v).busy = true ∧ (regStore s o v).done = true) := by
  cases hb : s.busy with
  | true =>
    have hd : s.done = false := Bool.eq_false_iff.2 fun hd => h ⟨hb, hd⟩
    simp [regStore_not_done hd]
  | false =>
    unfold regStore
    split <;> simp [writeCmd, writeAck, writeIfIdle, hb]

theorem keepsInv_regStore (s : State) (o : Nat) (v : Word) : keepsInv s (regStore s o v) := by
  intro hinv
  have hprotocol := regStore_protocol o v hinv.protocol
  have hframe := regStore_eq s o v
  dsimp only at hframe
  rw [hframe] at hprotocol ⊢
  exact ⟨{ hinv with protocol := hprotocol }, id⟩

theorem keepsInv_of_step {s t : State} (h : step s = .next t) : keepsInv s t := by
  intro hinv
  obtain ⟨rest, -, hstep⟩ := step_cases h
  have hq : Inv { s with turns := rest } := { hinv with memory := hinv.memory }
  rcases hstep with ⟨hcore, -⟩ | ⟨rfl, -⟩ | ⟨v, rfl⟩ | ⟨addr, o, v, rfl, -⟩ | ⟨addr, v, rfl, -⟩
  · have hkept := keepsInv_of_coreStep hcore hq
    exact hkept
  · exact ⟨{ inv_reset with memory := hinv.memory }, fun _ h => nomatch h⟩
  · exact ⟨{ hinv with memory := hinv.memory }, id⟩
  · exact keepsInv_regStore _ o v hq
  · exact ⟨{ hinv with memory := wf_writeByte v hinv.memory addr.isLt }, id⟩

/-- Settles O57: a command that succeeds keeps the invariant step by step; an error and the host's steps touch no array. -/
theorem stepKeepsTheInvariant : Obligations.StepKeepsTheInvariant := fun _ _ hinv h => (keepsInv_of_step h hinv).1

/-- Settles O59: CODE_ASSIGN and HDR_READ set CODES_VALID, and the table they leave can be used; nothing else writes a table
without clearing the flag. -/
theorem stepKeepsCodesUsable : Obligations.StepKeepsCodesUsable := fun _ _ hinv hcodes h => (keepsInv_of_step h hinv).2 hcodes

/-! ### The validity flags (R26) -/

/-- Settles O60: the flags a command sets and clears stand in its row, and nothing but a success or a reset writes one. -/
theorem validityFlagsFollowTheTable : Obligations.ValidityFlagsFollowTheTable := by
  unfold Obligations.ValidityFlagsFollowTheTable
  refine ⟨fun i s t h => ?_, fun s t h hflags => ?_⟩
  · obtain ⟨u, hu, rfl⟩ := runsOk_iff.1 h
    have hrow := writesOnly_of_runOf_ok hu
    cases i with
    | nop | sreset | packReset =>
      obtain rfl := hrow
      simp [sresetEffect]
    | histClear | histAccum | histByte _ | codeAssign =>
      obtain ⟨_, rfl⟩ := hrow
      simp
    | treeBuild | hdrWrite | unpack =>
      obtain ⟨_, _, rfl⟩ := hrow
      simp
    | hdrRead | packFlush =>
      obtain ⟨_, _, _, _, rfl⟩ := hrow
      simp
    | packSym _ _ | packBlock _ =>
      obtain ⟨_, _, _, _, _, rfl⟩ := hrow
      simp
    | encode =>
      obtain ⟨hempty, rfl⟩ | ⟨-, _, _, _, _, _, _, _, _, _, rfl⟩ := hrow
      · simp [hempty]
      · simp
    | decode =>
      obtain ⟨_, _, _, _, _, _, rfl⟩ := hrow
      simp
  · obtain ⟨rest, -, ⟨hcore, hturns⟩ | ⟨-, hreset⟩ | ⟨v, rfl⟩ | ⟨addr, o, v, rfl, -⟩ | ⟨addr, v, rfl, -⟩⟩ := step_cases h
    · rcases coreStep_cases hcore with ⟨-, rfl⟩ | ⟨-, e, rfl⟩ | ⟨hb, i, u, -, hu, rfl⟩
      · exact absurd ⟨rfl, rfl, rfl⟩ hflags
      · exact absurd ⟨rfl, rfl, rfl⟩ hflags
      · exact .inl ⟨hb, hturns.imp id fun h => ⟨_, h⟩, rfl⟩
    · exact .inr ⟨_, hreset⟩
    · exact absurd ⟨rfl, rfl, rfl⟩ hflags
    · rw [regStore_eq] at hflags
      exact absurd ⟨rfl, rfl, rfl⟩ hflags
    · exact absurd ⟨rfl, rfl, rfl⟩ hflags

end Sys2Proof.Machine
end
